-- ==== Sys2Proof/Word.lean ====
section
/-! DEFINITION. The word types of the engine: the byte and the colour (spec/00_scope.md R11, R12). -/

namespace Sys2Proof

/-- A byte: an unsigned integer 0..255, bit 0 its least significant bit (R11). -/
abbrev Byte := BitVec 8

/-- A 6-bit cache index, 0..63 (R25, R131). -/
abbrev Slot := BitVec 6

/-- A colour: four independent 8-bit channels; two colours are equal iff all four channels match (R12). -/
structure Color where
  r : Byte
  g : Byte
  b : Byte
  a : Byte
deriving DecidableEq, Repr

/-- The seed, opaque black: what E.PREV and D.CUR start from (R7 SEED, R17, R36). -/
def Color.seed : Color := ⟨0, 0, 0, 255⟩

/-- The zero colour: the initial content of every cache slot (R7 ZERO, R17, R36). -/
def Color.zero : Color := ⟨0, 0, 0, 0⟩

end Sys2Proof
end

