-- ==== Sys2Proof/Config.lean ====
section
/-! DEFINITION. The configuration record: every `dec` and `gk` literal and every open parameter of spec/00_scope.md R7,
kept out of the step functions so that a statement can quantify over it (R8), and the one free value of the model. -/

namespace Sys2Proof

/-- The hash weights of the four channels, HASH_W (R7, R131). -/
structure HashWeights where
  r : Nat
  g : Nat
  b : Nat
  a : Nat
deriving DecidableEq, Repr

/-- The range of a biased signed operand and the bias added to it to make the unsigned field (R7, R14). -/
structure Biased where
  lo : Int
  hi : Int
  bias : Int
deriving DecidableEq, Repr

/-- The range is exactly what an n-bit biased field holds: lo is stored as 0 and hi as 2^n - 1 (R14). -/
abbrev Biased.Fills (x : Biased) (n : Nat) : Prop := x.lo + x.bias = 0 ∧ x.hi + x.bias + 1 = 2 ^ n

/-- The value is inside the range. -/
abbrev Biased.Holds (x : Biased) (d : Int) : Prop := x.lo ≤ d ∧ d ≤ x.hi

/-- The parameters of R7 that the document leaves open, in one record (R8). -/
structure Config where
  /-- MAGIC: the first four bytes of a header. -/
  magic : Vector Byte 4
  /-- HASH_W. -/
  hashW : HashWeights
  /-- TAG_RGB: the first byte of OP_RGB. -/
  tagRgb : Byte
  /-- TAG_RGBA: the first byte of OP_RGBA. -/
  tagRgba : Byte
  /-- DIFF_MIN..DIFF_MAX, DIFF_BIAS: the three 2-bit fields of OP_DIFF. -/
  diff : Biased
  /-- LUMA_G_MIN..MAX, LUMA_G_BIAS: the 6-bit green field of OP_LUMA. -/
  lumaG : Biased
  /-- LUMA_RB_MIN..MAX, LUMA_RB_BIAS: the two 4-bit relative fields of OP_LUMA. -/
  lumaRB : Biased
  /-- The nibble order of OP_LUMA byte 1: true when the red-relative field is the high nibble (R85). -/
  lumaRedHigh : Bool
  /-- END_MARKER. -/
  endMarker : Vector Byte 8
  /-- CS_SRGB: the colorspace tag 'gamma-corrected with linear alpha'. -/
  csSrgb : Byte
  /-- CS_LINEAR: the colorspace tag 'fully linear'. -/
  csLinear : Byte
  /-- ENC_DELTA_WRAP: the encoder's differences are taken modulo 256 (R155). -/
  encDeltaWrap : Bool
  /-- MAX_PIXELS: the host's capacity (R243). -/
  maxPixels : Nat
  /-- HDR_ERR_FOLD: DEC_IMAGE reports both header errors as InvalidData (R283). -/
  hdrErrFold : Bool
  /-- MIN_CONTAINER_BYTES: the least length the buffer wrappers accept (R248, R249). -/
  minContainerBytes : Nat
deriving DecidableEq, Repr

/-- CH_RGB, the channel-format tag of an RGB source (R7, document value). -/
def Config.chRgb : Byte := 3

/-- CH_RGBA, the channel-format tag of an RGBA source (R7, document value). -/
def Config.chRgba : Byte := 4

/-- MAX_RUN (R7, document value; R232). -/
def Config.maxRun : Nat := 62

/-- HEADER_BYTES (R7, document value). -/
def Config.headerBytes : Nat := 14

/-- What R7 and R14 require of any choice of the parameters: the two literal tags are the two byte values the run
opcode does not use (R8, R86), each biased range fills its field, and MAX_PIXELS is at most 2^64-1. -/
abbrev Config.Legal (c : Config) : Prop :=
  ((c.tagRgb = 0xFE ∧ c.tagRgba = 0xFF) ∨ (c.tagRgb = 0xFF ∧ c.tagRgba = 0xFE))
    ∧ c.diff.Fills 2 ∧ c.lumaG.Fills 6 ∧ c.lumaRB.Fills 4 ∧ c.maxPixels ≤ 2 ^ 64 - 1

/-- FREE VALUE (log entry 9): what D.POS holds after a read of the given number of bytes has taken it past 2^64 - 1.
R27 leaves it unspecified, so nothing constrains it. -/
opaque Config.posPastEnd : BitVec 64 → Nat → BitVec 64

end Sys2Proof
end

