-- ==== Sys2Proof/Syntax.lean ====
section
/-! DEFINITION. The instructions: one constructor per row of spec/opcode_table.json. Operands are the assembled ones of
spec/30_encoding.md R85 and R93, so the machine never sees a raw field. -/

namespace Sys2Proof

/-- The six opcodes of the wire format, the header and the end marker (R2, R82, R93). -/
inductive Instr where
  /-- OP_RGB: literal red, green, blue; alpha is kept (R192). -/
  | opRgb (r g b : Byte)
  /-- OP_RGBA: literal of all four channels (R193). -/
  | opRgba (r g b a : Byte)
  /-- OP_INDEX: the colour of a cache slot (R194). -/
  | opIndex (idx : Slot)
  /-- OP_DIFF: three small signed deltas (R195). -/
  | opDiff (dr dg db : Int)
  /-- OP_LUMA: the green delta and the red and blue deltas relative to it (R196). -/
  | opLuma (dg drg dbg : Int)
  /-- OP_RUN: the current colour n times (R197). -/
  | opRun (n : Nat)
  /-- HDR: width, height, channel-format tag, colorspace tag (R81, R112). -/
  | hdr (w h : BitVec 32) (ch cs : Byte)
  /-- END: the end-of-stream marker (R88, R236). -/
  | endMarker
deriving DecidableEq, Repr

end Sys2Proof
end

