-- ==== Sys2Proof/WellFormed.lean ====
section
/-! DEFINITION. Which instructions have an encoding: the operand ranges of spec/30_encoding.md R85, R93 and the tag values
of spec/40_header_codec.md R113. -/

namespace Sys2Proof

/-- The operands are ones the encoding carries: deltas in the ranges of R85, a run of 1..62 pixels, recognized tags
(R113). The other operands have no illegal value (R84, R116). -/
def Instr.wellFormed (cfg : Config) : Instr → Bool
  | .opRgb _ _ _ => true
  | .opRgba _ _ _ _ => true
  | .opIndex _ => true
  | .opDiff dr dg db => decide (cfg.diff.Holds dr) && decide (cfg.diff.Holds dg) && decide (cfg.diff.Holds db)
  | .opLuma dg drg dbg =>
      decide (cfg.lumaG.Holds dg) && decide (cfg.lumaRB.Holds drg) && decide (cfg.lumaRB.Holds dbg)
  | .opRun n => decide (1 ≤ n ∧ n ≤ Config.maxRun)
  | .hdr _ _ ch cs => (ch == Config.chRgb || ch == Config.chRgba) && (cs == cfg.csSrgb || cs == cfg.csLinear)
  | .endMarker => true

end Sys2Proof
end

