-- ==== Sys2Proof/Decode.lean ====
section
/-! DEFINITION. From bytes to instructions and back (spec/30_encoding.md): the wire's literals, the byte-order and field
helpers, the decoder and the encoder. -/

namespace Sys2Proof

/-- The values of R7 for WIRE_V1 (decisions D2 to D9, D15, D18; log entries 2 and 4).
MAX_PIXELS is open: the number here is the model's DESIGN CHOICE, the bound R7 states (log entry 3). -/
def Config.wireV1 : Config where
  magic := #v[0x71, 0x6F, 0x69, 0x66]
  hashW := ⟨3, 5, 7, 11⟩
  tagRgb := 0xFE
  tagRgba := 0xFF
  diff := ⟨-2, 1, 2⟩
  lumaG := ⟨-32, 31, 32⟩
  lumaRB := ⟨-8, 7, 8⟩
  lumaRedHigh := true
  endMarker := #v[0, 0, 0, 0, 0, 0, 0, 1]
  csSrgb := 0
  csLinear := 1
  encDeltaWrap := false
  maxPixels := 2 ^ 64 - 1
  hdrErrFold := false
  minContainerBytes := 14

/-! ### Fields -/

/-- bias_n: the n-bit field that holds the signed value d (R14). -/
def biasField (n : Nat) (x : Biased) (d : Int) : BitVec n := BitVec.ofInt n (d + x.bias)

/-- unbias_n: the signed value an n-bit field holds (R14). -/
def unbiasField {n : Nat} (x : Biased) (f : BitVec n) : Int := (f.toNat : Int) - x.bias

/-- be32: the four bytes of a 32-bit number, most significant first (R13). -/
def be32 (v : BitVec 32) : List Byte :=
  [v.extractLsb' 24 8, v.extractLsb' 16 8, v.extractLsb' 8 8, v.extractLsb' 0 8]

/-- unbe32: the number of four bytes, most significant first (R13). -/
def unbe32 (b0 b1 b2 b3 : Byte) : BitVec 32 := b0 ++ b1 ++ b2 ++ b3

/-- OP_LUMA byte 1 from its red-relative and blue-relative fields: red in the high nibble by default (R85). -/
def packNibbles (redHigh : Bool) (fr fb : BitVec 4) : Byte := if redHigh then fr ++ fb else fb ++ fr

/-- The red-relative field of OP_LUMA byte 1 (R85). -/
def redNibble (redHigh : Bool) (b1 : Byte) : BitVec 4 := if redHigh then b1.extractLsb' 4 4 else b1.extractLsb' 0 4

/-- The blue-relative field of OP_LUMA byte 1 (R85). -/
def blueNibble (redHigh : Bool) (b1 : Byte) : BitVec 4 := if redHigh then b1.extractLsb' 0 4 else b1.extractLsb' 4 4

/-! ### Classification -/

/-- The six classes of a first byte. -/
inductive OpClass where
  | rgb
  | rgba
  | index
  | diff
  | luma
  | run
deriving DecidableEq, Repr

/-- Classification of a first byte: the two literal tags first, then the two-bit prefixes (R83). Total: no byte is
unassigned (R89). -/
def classify (cfg : Config) (b0 : Byte) : OpClass :=
  if b0 = cfg.tagRgb then .rgb
  else if b0 = cfg.tagRgba then .rgba
  else if b0.extractLsb' 6 2 = 0b00#2 then .index
  else if b0.extractLsb' 6 2 = 0b01#2 then .diff
  else if b0.extractLsb' 6 2 = 0b10#2 then .luma
  else .run

/-- How many bytes follow the first one (R84). -/
def OpClass.operandBytes : OpClass → Nat
  | .rgb => 3
  | .rgba => 4
  | .index => 0
  | .diff => 0
  | .luma => 1
  | .run => 0

/-! ### The decoder -/

/-- Why bytes do not decode. -/
inductive Reject where
  /-- the bytes end before the instruction does (R54, R115, R201) -/
  | truncated
  /-- the first four header bytes are not MAGIC (R114) -/
  | badMagic
  /-- the eight bytes are not END_MARKER (R88); the machine itself never reads the marker -/
  | notEndMarker
deriving DecidableEq, Repr

/-- The opcode at the head of the bytes, and the bytes after it (R82 to R85). -/
def decodeOpcode (cfg : Config) : List Byte → Except Reject (Instr × List Byte)
  | [] => .error .truncated
  | b0 :: rest =>
    match classify cfg b0, rest with
    | .rgb, r :: g :: b :: rest' => .ok (.opRgb r g b, rest')
    | .rgb, _ => .error .truncated
    | .rgba, r :: g :: b :: a :: rest' => .ok (.opRgba r g b a, rest')
    | .rgba, _ => .error .truncated
    | .index, rest' => .ok (.opIndex (b0.extractLsb' 0 6), rest')
    | .diff, rest' =>
        .ok (.opDiff (unbiasField cfg.diff (b0.extractLsb' 4 2)) (unbiasField cfg.diff (b0.extractLsb' 2 2))
              (unbiasField cfg.diff (b0.extractLsb' 0 2)), rest')
    | .luma, b1 :: rest' =>
        .ok (.opLuma (unbiasField cfg.lumaG (b0.extractLsb' 0 6))
              (unbiasField cfg.lumaRB (redNibble cfg.lumaRedHigh b1))
              (unbiasField cfg.lumaRB (blueNibble cfg.lumaRedHigh b1)), rest')
    | .luma, [] => .error .truncated
    | .run, rest' => .ok (.opRun ((b0.extractLsb' 0 6).toNat + 1), rest')

/-- The header at the head of the bytes: 14 bytes, the magic tested only when all are there (R81, R114, R115). The two tags
are not tested here: an unrecognized tag is the error that executing HDR raises (R114). -/
def decodeHeader (cfg : Config) : List Byte → Except Reject (Instr × List Byte)
  | m0 :: m1 :: m2 :: m3 :: w0 :: w1 :: w2 :: w3 :: h0 :: h1 :: h2 :: h3 :: ch :: cs :: rest =>
      if [m0, m1, m2, m3] = cfg.magic.toList then
        .ok (.hdr (unbe32 w0 w1 w2 w3) (unbe32 h0 h1 h2 h3) ch cs, rest)
      else .error .badMagic
  | _ => .error .truncated

/-- The end marker at the head of the bytes (R88). -/
def decodeEnd (cfg : Config) (bs : List Byte) : Except Reject (Instr × List Byte) :=
  if bs.length < 8 then .error .truncated
  else if bs.take 8 = cfg.endMarker.toList then .ok (.endMarker, bs.drop 8)
  else .error .notEndMarker

/-- The parts of a stream (R80): what stands at a place decides how its bytes are read. -/
inductive Part where
  | header
  | opcode
  | endMarker
deriving DecidableEq, Repr

/-- The part an instruction stands in. -/
def Instr.part : Instr → Part
  | .opRgb _ _ _ => .opcode
  | .opRgba _ _ _ _ => .opcode
  | .opIndex _ => .opcode
  | .opDiff _ _ _ => .opcode
  | .opLuma _ _ _ => .opcode
  | .opRun _ => .opcode
  | .hdr _ _ _ _ => .header
  | .endMarker => .endMarker

/-- The decoder: total on any bytes, rejecting by name. -/
def decode (cfg : Config) : Part → List Byte → Except Reject (Instr × List Byte)
  | .header, bs => decodeHeader cfg bs
  | .opcode, bs => decodeOpcode cfg bs
  | .endMarker, bs => decodeEnd cfg bs

/-! ### The encoder -/

/-- The bytes of an instruction (R81, R82, R88, R92). -/
def encode (cfg : Config) : Instr → List Byte
  | .opRgb r g b => [cfg.tagRgb, r, g, b]
  | .opRgba r g b a => [cfg.tagRgba, r, g, b, a]
  | .opIndex idx => [0b00#2 ++ idx]
  | .opDiff dr dg db => [0b01#2 ++ biasField 2 cfg.diff dr ++ biasField 2 cfg.diff dg ++ biasField 2 cfg.diff db]
  | .opLuma dg drg dbg =>
      [0b10#2 ++ biasField 6 cfg.lumaG dg,
       packNibbles cfg.lumaRedHigh (biasField 4 cfg.lumaRB drg) (biasField 4 cfg.lumaRB dbg)]
  | .opRun n => [0b11#2 ++ BitVec.ofNat 6 (n - 1)]
  | .hdr w h ch cs => cfg.magic.toList ++ be32 w ++ be32 h ++ [ch] ++ [cs]
  | .endMarker => cfg.endMarker.toList

/-- The length of an instruction in bytes (R81, R84, R88). -/
def Instr.length : Instr → Nat
  | .opRgb _ _ _ => 4
  | .opRgba _ _ _ _ => 5
  | .opIndex _ => 1
  | .opDiff _ _ _ => 1
  | .opLuma _ _ _ => 2
  | .opRun _ => 1
  | .hdr _ _ _ _ => Config.headerBytes
  | .endMarker => 8

/-! ### The opcode table's words -/

/-- The bytes of a table word: byte k is bits 8k+7..8k, the bits above nbits zero, padded with zeros to the longest
instruction (14 bytes). -/
def wordBytes (nbits w : Nat) : List Byte :=
  (List.range (max Config.headerBytes (nbits / 8))).map fun k => BitVec.ofNat 8 (w % 2 ^ nbits / 2 ^ (8 * k))

/-- The same, where the table itself writes its match values of HDR (0x716F6966) and END (0x0000000000000001) with the first
byte of the stream on top: such a word stands for the bytes in stream order (log entry 14). -/
def tableBytes (cfg : Config) (nbits w : Nat) : List Byte :=
  if 32 ≤ nbits ∧ (wordBytes nbits w).take 4 = cfg.magic.toList.reverse then
    cfg.magic.toList ++ (wordBytes nbits w).drop 4
  else if nbits = 64 ∧ (wordBytes nbits w).take 8 = cfg.endMarker.toList.reverse then
    cfg.endMarker.toList ++ (wordBytes nbits w).drop 8
  else wordBytes nbits w

/-- Which row a table word belongs to: a header begins with the four magic bytes, an end marker is the eight marker bytes,
every other word of at least one byte is an opcode. -/
def tablePart (cfg : Config) (nbits w : Nat) : Part :=
  if 32 ≤ nbits ∧ (tableBytes cfg nbits w).take 4 = cfg.magic.toList then .header
  else if nbits = 64 ∧ (tableBytes cfg nbits w).take 8 = cfg.endMarker.toList then .endMarker
  else .opcode

/-- What the decoder reads from a table word, for a given configuration. -/
def decodeTableWordWith (cfg : Config) (nbits w : Nat) : Option Instr :=
  if nbits < 8 then none
  else
    match decode cfg (tablePart cfg nbits w) (tableBytes cfg nbits w) with
    | .ok (i, _) => some i
    | .error _ => none

/-- What the decoder reads from a table word in WIRE_V1. -/
def decodeTableWord (nbits w : Nat) : Option Instr := decodeTableWordWith Config.wireV1 nbits w

end Sys2Proof
end

