-- ==== Sys2Proof/Machine/Command.lean ====
section
/-! DEFINITION. The host's side of the ports (spec/20_memory.md R50 to R57): the commands with their operands, the registers
the debug port names, the error kinds and what a command returns. -/

namespace Sys2Proof.Machine

open Sys2Proof

/-- The registers of spec/10_state.md R20, as the status and debug port names them (R57, R301). -/
inductive Reg where
  | encCache (i : Slot)
  | encPrev
  | encRun
  | decCache (i : Slot)
  | decCur
  | decPos
  | decWidth
  | decHeight
  | decChannels
  | decColorspace
  | decHdrValid
  | decNpix
  | decIdx
  | decErr
deriving DecidableEq, Repr

/-- What a register read returns: a colour, or an unsigned value and its width in bits. -/
inductive RegValue where
  | color (c : Color)
  | number (width value : Nat)
deriving DecidableEq, Repr

/-- A transaction on one of the ports: the encoder commands (R51), the decoder commands (R52), a register read (R57).
Operands are what a host can offer, so that the sets R51 restricts them to are a check of the model's (R51, D31). -/
inductive Command where
  | encReset
  | encHeader (w h ch cs : Nat)
  | encPush (px : Color)
  | encFlush
  | encEnd
  | encImage (w h ch cs : Nat) (pixels : List Color)
  | decReset
  | decHeader
  | decFetch
  | decImage
  | readReg (r : Reg)
deriving DecidableEq, Repr

/-- The five error kinds (spec/60_exceptions.md R270). -/
inductive ErrKind where
  | invalidMagic
  | invalidTag
  | invalidData
  | endOfStream
  | outOfMemory
deriving DecidableEq, Repr

/-- What a decoder command returns (R52): the fields of a header, a colour and its count, the fields of a completed image
whose pixels are on the pixel output, or an error. -/
inductive DecResult where
  | header (w h : BitVec 32) (ch cs : Byte)
  | run (c : Color) (n : Nat)
  | image (w h : BitVec 32) (ch cs : Byte)
  | error (k : ErrKind)
deriving DecidableEq, Repr

/-- The operands of a header are in the sets R51 gives: w and h below 2^32, ch 3 or 4, cs one of the two colorspace
values. -/
def headerOperandsLegal (cfg : Config) (w h ch cs : Nat) : Bool :=
  decide (w < 2 ^ 32) && decide (h < 2 ^ 32)
    && (ch == Config.chRgb.toNat || ch == Config.chRgba.toNat)
    && (cs == cfg.csSrgb.toNat || cs == cfg.csLinear.toNat)

/-- A command of the engine (R51): one whose operands are in their sets, and for a whole image exactly w*h pixels. -/
def Command.legal (cfg : Config) : Command → Bool
  | .encReset => true
  | .encHeader w h ch cs => headerOperandsLegal cfg w h ch cs
  | .encPush _ => true
  | .encFlush => true
  | .encEnd => true
  | .encImage w h ch cs pixels => headerOperandsLegal cfg w h ch cs && decide (pixels.length = w * h)
  | .decReset => true
  | .decHeader => true
  | .decFetch => true
  | .decImage => true
  | .readReg _ => true

/-- The command belongs to the encoder unit's port. -/
def Command.isEnc : Command → Bool
  | .encReset => true
  | .encHeader _ _ _ _ => true
  | .encPush _ => true
  | .encFlush => true
  | .encEnd => true
  | .encImage _ _ _ _ _ => true
  | .decReset => false
  | .decHeader => false
  | .decFetch => false
  | .decImage => false
  | .readReg _ => false

/-- The command belongs to the decoder unit's port. -/
def Command.isDec : Command → Bool
  | .encReset => false
  | .encHeader _ _ _ _ => false
  | .encPush _ => false
  | .encFlush => false
  | .encEnd => false
  | .encImage _ _ _ _ _ => false
  | .decReset => true
  | .decHeader => true
  | .decFetch => true
  | .decImage => true
  | .readReg _ => false

end Sys2Proof.Machine
end

