-- ==== Sys2Proof/Machine/State.lean ====
section
/-! DEFINITION. The machine's state (spec/10_state.md R20), the interfaces of spec/20_memory.md R50 beside it, the reset
state (R36) and the reasons a step can stop. -/

namespace Sys2Proof.Machine

open Sys2Proof

/-- A colour cache: 64 slots, each holding a colour (R25, R130). -/
abbrev Cache := Vector Color 64

/-- The encoder unit's registers (R20 to R22). -/
structure Encoder where
  /-- E.CACHE -/
  cache : Cache
  /-- E.PREV -/
  prev : Color
  /-- E.RUN -/
  run : BitVec 6
deriving DecidableEq, Repr

/-- The decoder unit's registers (R20, R23, R27 to R32). -/
structure Decoder where
  /-- D.CACHE -/
  cache : Cache
  /-- D.CUR -/
  cur : Color
  /-- D.POS -/
  pos : BitVec 64
  /-- D.WIDTH -/
  width : BitVec 32
  /-- D.HEIGHT -/
  height : BitVec 32
  /-- D.CHANNELS -/
  channels : Byte
  /-- D.COLORSPACE -/
  colorspace : Byte
  /-- D.HDR_VALID -/
  hdrValid : Bool
  /-- D.NPIX -/
  npix : BitVec 64
  /-- D.IDX -/
  idx : BitVec 64
  /-- D.ERR: none, or the kind of the first error since reset (R31); its 3-bit code is `errCode` (log entry 11) -/
  err : Option ErrKind
deriving DecidableEq, Repr

/-- The configuration, the two units and the interfaces. -/
structure State where
  /-- the parameters of R7; no step changes them (log entry 1) -/
  cfg : Config
  /-- the encoder unit -/
  enc : Encoder
  /-- the decoder unit -/
  dec : Decoder
  /-- the byte sink: every byte written, first byte first (R53) -/
  sink : List Byte
  /-- the byte source: the bytes not yet taken, then its end (R54) -/
  source : List Byte
  /-- the pixel output: the colours of the completed images, first colour first (R56) -/
  pixOut : List Color
  /-- the host's commands not yet executed, the next one first (log entry 5) -/
  commands : List Command
  /-- what the last decoder command returned (R52; log entry 16) -/
  decResult : Option DecResult
  /-- what the last register read returned (R57; log entry 16) -/
  dbgValue : Option RegValue
deriving DecidableEq, Repr

/-- The state a machine stops in with a fault: there is none. The engine's five errors are recorded in D.ERR and control
returns to the host (R280), so an error is a next state. -/
inductive Fault where
deriving DecidableEq, Repr

/-- Why a step has no meaning. -/
inductive Refusal where
  /-- an instruction of the opcode table that has no meaning yet; raised only by `exec`'s arms; safe -/
  | notModelled (mnemonic : String)
  /-- a command whose operands are outside their sets is not a command of the engine, and the model has no step for it
  (20_memory.md R51, 60_exceptions.md R292); raised by `runCommand`; safe -/
  | operandOutsideSet
deriving DecidableEq, Repr

/-- A cache with every slot at the zero colour (R36, R138). -/
def Cache.reset : Cache := Vector.replicate 64 Color.zero

/-- The encoder unit after reset (R36, R311). -/
def Encoder.reset : Encoder := { cache := Cache.reset, prev := Color.seed, run := 0 }

/-- The decoder unit after reset (R36, R312). -/
def Decoder.reset : Decoder where
  cache := Cache.reset
  cur := Color.seed
  pos := 0
  width := 0
  height := 0
  channels := 0
  colorspace := 0
  hdrValid := false
  npix := 0
  idx := 0
  err := none

/-- The machine right after reset (R36, R313): both units reset, the interfaces empty (log entry 15), waiting for
commands. -/
def State.reset : State where
  cfg := Config.wireV1
  enc := Encoder.reset
  dec := Decoder.reset
  sink := []
  source := []
  pixOut := []
  commands := []
  decResult := none
  dbgValue := none

end Sys2Proof.Machine
end

