-- ==== Sys2Proof/Machine/Operands.lean ====
section
/-! DEFINITION. Operand forms and the engine's whole arithmetic (spec/10_state.md R39): the wrapping channel addition, the
encoder's differences, the hash. -/

namespace Sys2Proof.Machine

open Sys2Proof

/-- add8: wrapping 8-bit addition of an integer to a channel (R13). -/
def add8 (x : Byte) (d : Int) : Byte := BitVec.ofInt 8 ((x.toNat : Int) + d)

/-- The hash of a colour: the weighted sum of its channels modulo 64 (R131). -/
def hashOf (w : HashWeights) (c : Color) : Slot :=
  BitVec.ofNat 6 (w.r * c.r.toNat + w.g * c.g.toNat + w.b * c.b.toNat + w.a * c.a.toNat)

/-- One channel's difference: plain, or modulo 256 read as a signed byte (R155). -/
def delta (wrap : Bool) (x p : Byte) : Int := if wrap then (x - p).toInt else (x.toNat : Int) - (p.toNat : Int)

/-- OP_DIFF's colour: each delta added to its own channel, alpha kept (R195). -/
def diffColor (c : Color) (dr dg db : Int) : Color := ⟨add8 c.r dr, add8 c.g dg, add8 c.b db, c.a⟩

/-- OP_LUMA's colour: the relative deltas are added to the green delta first (R196). -/
def lumaColor (c : Color) (dg drg dbg : Int) : Color := diffColor c (dg + drg) dg (dg + dbg)

/-- How many pixels an instruction stands for: 1 for every opcode but OP_RUN (R190, R198). A header and an end marker stand
for none. -/
def pixelCount : Instr → Nat
  | .opRgb _ _ _ => 1
  | .opRgba _ _ _ _ => 1
  | .opIndex _ => 1
  | .opDiff _ _ _ => 1
  | .opLuma _ _ _ => 1
  | .opRun n => n
  | .hdr _ _ _ _ => 0
  | .endMarker => 0

/-- A channel-format tag is recognized: 3 or 4 (R113). -/
def channelsRecognized (ch : Byte) : Bool := ch == Config.chRgb || ch == Config.chRgba

/-- A colorspace tag is recognized: one of the two configured values (R113). -/
def colorspaceRecognized (cfg : Config) (cs : Byte) : Bool := cs == cfg.csSrgb || cs == cfg.csLinear

/-- Which opcode the encoder uses for a pixel that neither continues a run nor hits the cache: small delta, luma-relative
delta, literal RGB, literal RGBA, the first that applies (R150, R151, R156 to R159). -/
def chooseMiss (cfg : Config) (px p : Color) : Instr :=
  let dr := delta cfg.encDeltaWrap px.r p.r
  let dg := delta cfg.encDeltaWrap px.g p.g
  let db := delta cfg.encDeltaWrap px.b p.b
  if px.a = p.a ∧ cfg.diff.Holds dr ∧ cfg.diff.Holds dg ∧ cfg.diff.Holds db then .opDiff dr dg db
  else if px.a = p.a ∧ cfg.lumaG.Holds dg ∧ cfg.lumaRB.Holds (dr - dg) ∧ cfg.lumaRB.Holds (db - dg) then
    .opLuma dg (dr - dg) (db - dg)
  else if px.a = p.a then .opRgb px.r px.g px.b
  else .opRgba px.r px.g px.b px.a

end Sys2Proof.Machine
end

