-- ==== Sys2Proof/Machine/Flags.lean ====
section
/-! DEFINITION. Status. The engine has no arithmetic flags (spec/10_state.md R29); its flag-like state is D.HDR_VALID (R30) and
the zero / non-zero state of D.ERR (R31). -/

namespace Sys2Proof.Machine

open Sys2Proof

/-- The code of an error kind (R31, R270). -/
def ErrKind.code : ErrKind → BitVec 3
  | .invalidMagic => 1
  | .invalidTag => 2
  | .invalidData => 3
  | .endOfStream => 4
  | .outOfMemory => 5

/-- D.ERR as the 3-bit register the host reads: 0 is none (R31). -/
def errCode : Option ErrKind → BitVec 3
  | none => 0
  | some k => k.code

/-- D.HDR_VALID as one bit (R30). -/
def hdrValidBit (v : Bool) : BitVec 1 := BitVec.ofBool v

/-- The error a rejected header is reported as (R114, R115): a wrong magic is InvalidMagic, bytes that end too soon are
EndOfStream. The end marker's rejection never reaches a command, since no decoder command reads a marker (R88). -/
def rejectError : Reject → ErrKind
  | .truncated => .endOfStream
  | .badMagic => .invalidMagic
  | .notEndMarker => .invalidData

end Sys2Proof.Machine
end

