-- ==== Sys2Proof/Machine/Ops.lean ====
section
/-! DEFINITION. The named operations over the registers, the caches and the streams that every meaning goes through: cache
access, byte sink and source, raising an error and the reset that is its only exit, and what completes an opcode. -/

namespace Sys2Proof.Machine

open Sys2Proof

/-! ### The colour cache -/

/-- lookup(i): the colour in slot i; total, changes nothing (R133). -/
def Cache.lookup (m : Cache) (i : Slot) : Color := m[i.toNat]'i.isLt

/-- store(i, c): slot i holds c, whole (R134). -/
def Cache.store (m : Cache) (i : Slot) (c : Color) : Cache := m.set i.toNat c i.isLt

/-! ### Byte sink and byte source -/

/-- MemWrite: the bytes are appended to what the sink has received, in order (R53). -/
def emit (bs : List Byte) (s : State) : State := { s with sink := s.sink ++ bs }

/-- The encoder writes one instruction (R92). -/
def emitInstr (i : Instr) (s : State) : State := emit (encode s.cfg i) s

/-- D.POS after n more bytes were taken (R27). Past 2^64 - 1 the register is unspecified: a free value (log entry 9). -/
def advancePos (pos : BitVec 64) (n : Nat) : BitVec 64 :=
  if pos.toNat + n < 2 ^ 64 then pos + BitVec.ofNat 64 n else Config.posPastEnd pos n

/-- The first n bytes leave the source and are counted in D.POS (R54). -/
def takeBytes (n : Nat) (s : State) : State :=
  { s with source := s.source.drop n, dec := { s.dec with pos := advancePos s.dec.pos n } }

/-- What MemRead answers: the n bytes it was asked for, or that the source ended first. -/
inductive Read where
  | bytes (bs : List Byte) (s : State)
  | short (s : State)
deriving DecidableEq, Repr

/-- MemRead(SRC, n): the next n bytes, each taken once; on a short read the bytes that exist are taken all the same (R54). The
caller raises EndOfStream. -/
def memRead (n : Nat) (s : State) : Read :=
  if n ≤ s.source.length then .bytes (s.source.take n) (takeBytes n s)
  else .short (takeBytes s.source.length s)

/-! ### Errors -/

/-- raise K (R280): K is written to D.ERR and returned to the host; no other register changes. -/
def raise (k : ErrKind) (s : State) : State :=
  { s with dec := { s.dec with err := some k }, decResult := some (.error k) }

/-- DEC_RESET (R312): every register of the decoder at its reset value; the source is not rewound. It is the only way out of
the error state (R291). The command returns nothing (R52). -/
def decReset (s : State) : State := { s with dec := Decoder.reset, decResult := none }

/-- ENC_RESET (R311): every register of the encoder at its reset value; nothing is emitted. -/
def encReset (s : State) : State := { s with enc := Encoder.reset }

/-- A decoder command is refused with the recorded error, doing nothing else, while D.ERR is not 0 (R286). -/
def unlessStopped (f : State → Host.Outcome State Fault Refusal) (s : State) : Host.Outcome State Fault Refusal :=
  match s.dec.err with
  | some k => .next { s with decResult := some (.error k) }
  | none => f s

/-! ### Completing an opcode and a header -/

/-- What every completed opcode does with the colour c it produced (R199, R200): the colour is stored at its hash slot and
becomes the current colour; the command returns it with its count (R198). -/
def produce (c : Color) (n : Nat) (s : State) : State :=
  { s with
    dec := { s.dec with cache := s.dec.cache.store (hashOf s.cfg.hashW c) c, cur := c },
    decResult := some (.run c n) }

/-- What a completed header writes: the four header registers together and D.HDR_VALID (R112, R30, R32). -/
def acceptHeader (w h : BitVec 32) (ch cs : Byte) (s : State) : State :=
  { s with
    dec := { s.dec with width := w, height := h, channels := ch, colorspace := cs, hdrValid := true },
    decResult := some (.header w h ch cs) }

/-- The pixel output takes n copies of c, and D.IDX counts them (R56, R244). -/
def deliver (c : Color) (n : Nat) (s : State) : State :=
  { s with
    pixOut := s.pixOut ++ List.replicate n c,
    dec := { s.dec with idx := s.dec.idx + BitVec.ofNat 64 n } }

end Sys2Proof.Machine
end

