-- ==== Sys2Proof/Machine/Debug.lean ====
section
/-! DEFINITION. The status and debug port (spec/20_memory.md R57, spec/60_exceptions.md R301): every register, read-only. -/

namespace Sys2Proof.Machine

open Sys2Proof

/-- The value of a register (R20). -/
def regValue (s : State) : Reg → RegValue
  | .encCache i => .color (s.enc.cache.lookup i)
  | .encPrev => .color s.enc.prev
  | .encRun => .number 6 s.enc.run.toNat
  | .decCache i => .color (s.dec.cache.lookup i)
  | .decCur => .color s.dec.cur
  | .decPos => .number 64 s.dec.pos.toNat
  | .decWidth => .number 32 s.dec.width.toNat
  | .decHeight => .number 32 s.dec.height.toNat
  | .decChannels => .number 8 s.dec.channels.toNat
  | .decColorspace => .number 8 s.dec.colorspace.toNat
  | .decHdrValid => .number 1 (hdrValidBit s.dec.hdrValid).toNat
  | .decNpix => .number 64 s.dec.npix.toNat
  | .decIdx => .number 64 s.dec.idx.toNat
  | .decErr => .number 3 (errCode s.dec.err).toNat

/-- A register read: its value on the port, and no other effect (R57). -/
def readReg (r : Reg) (s : State) : State := { s with dbgValue := some (regValue s r) }

end Sys2Proof.Machine
end

