-- ==== Sys2Proof/Machine/Delta.lean ====
section
/-! DEFINITION. The delta opcodes (spec/43_decoder.md R195, R196). -/

namespace Sys2Proof.Machine

open Sys2Proof

/-- OP_DIFF: three small deltas are added to the current colour, wrapping; alpha is kept (R195). -/
def execOpDiff (dr dg db : Int) (s : State) : Host.Outcome State Fault Refusal :=
  .next (produce (diffColor s.dec.cur dr dg db) 1 s)

/-- OP_LUMA: the green delta, and red and blue deltas relative to it, are added to the current colour, wrapping; alpha is
kept (R196). -/
def execOpLuma (dg drg dbg : Int) (s : State) : Host.Outcome State Fault Refusal :=
  .next (produce (lumaColor s.dec.cur dg drg dbg) 1 s)

end Sys2Proof.Machine
end

