-- ==== Sys2Proof/Machine/Framing.lean ====
section
/-! DEFINITION. The header and the end marker (spec/40_header_codec.md, spec/44_run_and_framing.md R236), which are rows of
the opcode table but no opcodes. -/

namespace Sys2Proof.Machine

open Sys2Proof

/-- HDR, executed by DEC_HEADER once its 14 bytes are taken and its magic is right: an unrecognized tag raises InvalidTag and
leaves the header registers alone; otherwise the four registers and D.HDR_VALID are written (R112, R114, R282). -/
def execHdr (w h : BitVec 32) (ch cs : Byte) (s : State) : Host.Outcome State Fault Refusal :=
  if channelsRecognized ch && colorspaceRecognized s.cfg cs then .next (acceptHeader w h ch cs s)
  else .next (raise .invalidTag s)

/-- END, emitted by ENC_END: the eight marker bytes go to the sink; no register changes and no pending run is flushed
(R236). -/
def execEndMarker (s : State) : Host.Outcome State Fault Refusal := .next (emit s.cfg.endMarker.toList s)

/-- hdr_parse, the pure function of R114: the magic is tested first, then the two tags. Bytes too few for a header are
EndOfStream (R115). -/
def hdrParse (cfg : Config) (bs : List Byte) : Except ErrKind (BitVec 32 × BitVec 32 × Byte × Byte) :=
  match decodeHeader cfg bs with
  | .ok (.hdr w h ch cs, _) =>
      if channelsRecognized ch && colorspaceRecognized cfg cs then .ok (w, h, ch, cs) else .error .invalidTag
  | .ok (_, _) => .error .invalidData
  | .error k => .error (rejectError k)

end Sys2Proof.Machine
end

