-- ==== Sys2Proof/Machine/Literal.lean ====
section
/-! DEFINITION. The literal opcodes (spec/43_decoder.md R192, R193). A meaning starts when the instruction's bytes have been
taken from the source (R190). -/

namespace Sys2Proof.Machine

open Sys2Proof

/-- OP_RGB: red, green and blue replace the current ones, alpha is kept (R192). -/
def execOpRgb (r g b : Byte) (s : State) : Host.Outcome State Fault Refusal :=
  .next (produce ⟨r, g, b, s.dec.cur.a⟩ 1 s)

/-- OP_RGBA: all four channels are replaced (R193). -/
def execOpRgba (r g b a : Byte) (s : State) : Host.Outcome State Fault Refusal :=
  .next (produce ⟨r, g, b, a⟩ 1 s)

end Sys2Proof.Machine
end

