-- ==== Sys2Proof/Machine/Recall.lean ====
section
/-! DEFINITION. The opcodes that recall a colour the decoder already holds (spec/43_decoder.md R194, R197). -/

namespace Sys2Proof.Machine

open Sys2Proof

/-- OP_INDEX: the colour of a cache slot, whether or not the slot was ever written (R194, R204); it is stored at its own hash
slot like every other colour (R199). -/
def execOpIndex (idx : Slot) (s : State) : Host.Outcome State Fault Refusal :=
  .next (produce (s.dec.cache.lookup idx) 1 s)

/-- OP_RUN: the current colour, n times; it is stored once (R197, R199). -/
def execOpRun (n : Nat) (s : State) : Host.Outcome State Fault Refusal :=
  .next (produce s.dec.cur n s)

end Sys2Proof.Machine
end

