-- ==== Sys2Proof/Machine/Dispatch.lean ====
section
/-! DEFINITION. One arm per row of spec/opcode_table.json. -/

namespace Sys2Proof.Machine

open Sys2Proof

/-- What an instruction does once its bytes have been taken from the source (the end marker takes none). -/
def exec (i : Instr) (s : State) : Host.Outcome State Fault Refusal :=
  match i with
  | .opRgb r g b => Sys2Proof.Machine.execOpRgb r g b s
  | .opRgba r g b a => Sys2Proof.Machine.execOpRgba r g b a s
  | .opIndex idx => Sys2Proof.Machine.execOpIndex idx s
  | .opDiff dr dg db => Sys2Proof.Machine.execOpDiff dr dg db s
  | .opLuma dg drg dbg => Sys2Proof.Machine.execOpLuma dg drg dbg s
  | .opRun n => Sys2Proof.Machine.execOpRun n s
  | .hdr w h ch cs => Sys2Proof.Machine.execHdr w h ch cs s
  | .endMarker => Sys2Proof.Machine.execEndMarker s

end Sys2Proof.Machine
end

