-- ==== Sys2Proof/Machine/Encode.lean ====
section
/-! DEFINITION. The encoder unit (spec/42_encoder.md, the run coalescer of spec/44_run_and_framing.md) and its commands. -/

namespace Sys2Proof.Machine

open Sys2Proof

/-- The pending run becomes one OP_RUN byte and the counter returns to 0, if there is a run (R231, R234). -/
def flushRun (s : State) : State :=
  if s.enc.run = 0 then s
  else
    let s' := emitInstr (.opRun s.enc.run.toNat) s
    { s' with enc := { s'.enc with run := 0 } }

/-- RunStep (R231): an equal pixel grows the run, which is flushed at 62 (R232); a different pixel flushes it (R233). -/
def runStep (same : Bool) (s : State) : State :=
  if same then
    let s' := { s with enc := { s.enc with run := s.enc.run + 1 } }
    if s'.enc.run = BitVec.ofNat 6 Config.maxRun then flushRun s' else s'
  else flushRun s

/-- What a pixel that ends or follows no run emits: OP_INDEX on a cache hit (R153), else the pixel is stored at its hash slot
(R154) and the first applicable of the other four opcodes is emitted (R156 to R159). -/
def emitPixel (px : Color) (s : State) : State :=
  let h := hashOf s.cfg.hashW px
  if s.enc.cache.lookup h = px then emitInstr (.opIndex h) s
  else
    emitInstr (chooseMiss s.cfg px s.enc.prev) { s with enc := { s.enc with cache := s.enc.cache.store h px } }

/-- ENC_PUSH (R150): the run step, then, unless the pixel equals the previous one, its opcode; last E.PREV (R160). -/
def encPush (px : Color) (s : State) : State :=
  let s' := if px = s.enc.prev then runStep true s else emitPixel px (runStep false s)
  { s' with enc := { s'.enc with prev := px } }

/-- ENC_FLUSH (R234). -/
def encFlush (s : State) : State := flushRun s

/-- ENC_HEADER (R111): the 14 header bytes; no register changes. -/
def encHeader (w h ch cs : Nat) (s : State) : State :=
  emitInstr (.hdr (BitVec.ofNat 32 w) (BitVec.ofNat 32 h) (BitVec.ofNat 8 ch) (BitVec.ofNat 8 cs)) s

/-- ENC_PUSH of each pixel, in order (R240). -/
def encPushAll (pixels : List Color) (s : State) : State := pixels.foldl (fun t px => encPush px t) s

/-- ENC_END (R236): END is executed. -/
def encEnd (s : State) : Host.Outcome State Fault Refusal := exec .endMarker s

/-- ENC_IMAGE (R240): reset, header, every pixel, flush, end marker. -/
def encImage (w h ch cs : Nat) (pixels : List Color) (s : State) : Host.Outcome State Fault Refusal :=
  encEnd (encFlush (encPushAll pixels (encHeader w h ch cs (encReset s))))

end Sys2Proof.Machine
end

