-- ==== Sys2Proof/Machine/Fetch.lean ====
section
/-! DEFINITION. The decoder unit's commands (spec/43_decoder.md R190, spec/40_header_codec.md R112, spec/44_run_and_framing.md
R243 to R247). -/

namespace Sys2Proof.Machine

open Sys2Proof

/-- What taking an instruction's bytes from the source gives: the instruction and the state after its bytes were taken, or
an error already raised. -/
inductive Fetched where
  | instr (i : Instr) (s : State)
  | failed (s : State)
deriving DecidableEq, Repr

/-- Bytes already taken are decoded; bytes that do not decode raise their error. -/
def decodeTaken (part : Part) (bs : List Byte) (s : State) : Fetched :=
  match decode s.cfg part bs with
  | .ok (i, _) => .instr i s
  | .error k => .failed (raise (rejectError k) s)

/-- The bytes of one opcode: the first byte, then as many as its class needs (R190, R84). No byte beyond them is taken
(R62). -/
def fetchOpcode (s : State) : Fetched :=
  match memRead 1 s with
  | .short s1 => .failed (raise .endOfStream s1)
  | .bytes b s1 =>
    match memRead (classify s.cfg (b.headD 0)).operandBytes s1 with
    | .short s2 => .failed (raise .endOfStream s2)
    | .bytes rest s2 => decodeTaken .opcode (b ++ rest) s2

/-- The 14 bytes of a header; none is tested before all are taken (R112, R115). -/
def fetchHeader (s : State) : Fetched :=
  match memRead Config.headerBytes s with
  | .short s1 => .failed (raise .endOfStream s1)
  | .bytes bs s1 => decodeTaken .header bs s1

/-- An instruction that was fetched is executed; a failed fetch leaves its error. -/
def execFetched : Fetched → Host.Outcome State Fault Refusal
  | .instr i s => exec i s
  | .failed s => .next s

/-- DEC_FETCH after its D.ERR test (R190). -/
def fetchAndExec (s : State) : Host.Outcome State Fault Refusal := execFetched (fetchOpcode s)

/-- DEC_HEADER after its D.ERR test (R112). -/
def headerAndExec (s : State) : Host.Outcome State Fault Refusal := execFetched (fetchHeader s)

/-- DEC_FETCH (R190). -/
def decFetch (s : State) : Host.Outcome State Fault Refusal := unlessStopped fetchAndExec s

/-- DEC_HEADER (R112). -/
def decHeader (s : State) : Host.Outcome State Fault Refusal := unlessStopped headerAndExec s

/-- The overrun test of R245 after an opcode of the image was executed, and the delivery of its pixels. -/
def deliverChecked (n : Nat) (s : State) : State :=
  if s.dec.idx.toNat + n > s.dec.npix.toNat then raise .invalidData s else deliver s.dec.cur n s

/-- The loop of DEC_IMAGE (R244), which ends when D.IDX = D.NPIX (R246) or at the first error. The first argument bounds the
bytes left, since each turn takes at least one; with none left the next fetch is a short read. -/
def imageLoop : Nat → State → Host.Outcome State Fault Refusal
  | 0, s => if s.dec.idx < s.dec.npix then .next (raise .endOfStream s) else .next s
  | k + 1, s =>
    if s.dec.idx < s.dec.npix then
      match fetchOpcode s with
      | .failed s1 => .next s1
      | .instr i s1 =>
        match exec i s1 with
        | .next s2 =>
          let s3 := deliverChecked (pixelCount i) s2
          if s3.dec.err = none then imageLoop k s3 else .next s3
        | .fault e => .fault e
        | .refused r => .refused r
    else .next s

/-- With HDR_ERR_FOLD a header error of DEC_IMAGE is InvalidData in its place (R283). -/
def foldHeaderError (s : State) : State :=
  if s.cfg.hdrErrFold ∧ (s.dec.err = some .invalidMagic ∨ s.dec.err = some .invalidTag) then raise .invalidData s else s

/-- D.NPIX receives the exact product of width and height (R28, R243). -/
def setPixelTotal (s : State) : State :=
  { s with dec := { s.dec with npix := s.dec.width.zeroExtend 64 * s.dec.height.zeroExtend 64 } }

/-- The end of DEC_IMAGE: the header fields are returned and the pixels stay on the output; after an error the pixels already
delivered are void (R56, R280), so the output is what it was before the command. -/
def closeImage (before : List Color) (s : State) : State :=
  if s.dec.err = none then
    { s with decResult := some (.image s.dec.width s.dec.height s.dec.channels s.dec.colorspace) }
  else { s with pixOut := before }

/-- DEC_IMAGE from the accepted header on: the pixel-count test before any opcode byte is taken (R243), then the loop. -/
def decodePixels (s : State) : Host.Outcome State Fault Refusal :=
  if (setPixelTotal s).dec.npix.toNat > s.cfg.maxPixels then .next (raise .outOfMemory (setPixelTotal s))
  else imageLoop s.source.length (setPixelTotal s)

/-- DEC_IMAGE after its D.ERR test (R244): reset, header, pixels. -/
def imageAndExec (s : State) : Host.Outcome State Fault Refusal :=
  match headerAndExec (decReset s) with
  | .next s1 =>
    if s1.dec.err = none then
      match decodePixels s1 with
      | .next s2 => .next (closeImage s.pixOut s2)
      | .fault e => .fault e
      | .refused r => .refused r
    else .next (foldHeaderError s1)
  | .fault e => .fault e
  | .refused r => .refused r

/-- DEC_IMAGE (R244). -/
def decImage (s : State) : Host.Outcome State Fault Refusal := unlessStopped imageAndExec s

end Sys2Proof.Machine
end

