-- ==== Sys2Proof/Machine/Run.lean ====
section
/-! DEFINITION. What a command does (spec/20_memory.md R51, R52, R57). -/

namespace Sys2Proof.Machine

open Sys2Proof

/-- The effect of a command whose operands are in their sets. -/
def commandEffect (c : Command) (s : State) : Host.Outcome State Fault Refusal :=
  match c with
  | .encReset => .next (encReset s)
  | .encHeader w h ch cs => .next (encHeader w h ch cs s)
  | .encPush px => .next (encPush px s)
  | .encFlush => .next (encFlush s)
  | .encEnd => encEnd s
  | .encImage w h ch cs pixels => encImage w h ch cs pixels s
  | .decReset => .next (decReset s)
  | .decHeader => decHeader s
  | .decFetch => decFetch s
  | .decImage => decImage s
  | .readReg r => .next (readReg r s)

/-- A command is executed; one whose operands are outside their sets is no command of the engine and is refused (R51). -/
def runCommand (c : Command) (s : State) : Host.Outcome State Fault Refusal :=
  if c.legal s.cfg then commandEffect c s else .refused .operandOutsideSet

/-- One step: the next command of the host is taken and executed whole (R9); with no command pending the units wait (R313,
log entry 5). -/
def nextStep (s : State) : Host.Outcome State Fault Refusal :=
  match s.commands with
  | [] => .next s
  | c :: rest => runCommand c { s with commands := rest }

/-- The source with the bytes of a table word in front, no error recorded, and the command that fetches it next; an end
marker is not fetched but executed by ENC_END (R88, log entry 14). -/
def placeWord (part : Part) (bs : List Byte) (s : State) : State :=
  match part with
  | .opcode =>
      { s with source := bs ++ s.source, dec := { s.dec with err := none }, commands := .decFetch :: s.commands }
  | .header =>
      { s with source := bs ++ s.source, dec := { s.dec with err := none }, commands := .decHeader :: s.commands }
  | .endMarker => { s with commands := .encEnd :: s.commands }

end Sys2Proof.Machine
end

