-- ==== Sys2Proof/Machine/Wrapper.lean ====
section
/-! DEFINITION. The buffer-based operations around the block (spec/44_run_and_framing.md R242, R248, R249). They lie outside the
hardware block and touch no state of a running engine: each runs an engine of its own from reset. -/

namespace Sys2Proof.Machine

open Sys2Proof

/-- What decoding a buffer gives: dimensions, tags and the pixels in row-major order (R52, R248). -/
structure Image where
  width : BitVec 32
  height : BitVec 32
  channels : Byte
  colorspace : Byte
  pixels : List Color
deriving DecidableEq, Repr

/-- A fresh engine of the given configuration. -/
def freshEngine (cfg : Config) : State := { State.reset with cfg := cfg }

/-- encode(image): ENC_IMAGE with a sink that collects into a buffer (R242); none for operands R51 refuses. -/
def encodeBuffer (cfg : Config) (w h ch cs : Nat) (pixels : List Color) : Option (List Byte) :=
  match runCommand (.encImage w h ch cs pixels) (freshEngine cfg) with
  | .next s => some s.sink
  | .fault _ => none
  | .refused _ => none

/-- The result of a finished DEC_IMAGE as the host of R248 reads it: the image with the pixel output, or the error. -/
def imageResult (s : State) : Except ErrKind Image :=
  match s.decResult with
  | some (.image w h ch cs) => .ok ⟨w, h, ch, cs, s.pixOut⟩
  | some (.error k) => .error k
  | some (.header _ _ _ _) => .error .invalidData
  | some (.run _ _) => .error .invalidData
  | none => .error .invalidData

/-- decode(bytes) (R248): a buffer shorter than MIN_CONTAINER_BYTES is InvalidData, unread; else DEC_IMAGE on a source that
delivers the bytes and then ends. -/
def decodeBuffer (cfg : Config) (bs : List Byte) : Except ErrKind Image :=
  if bs.length < cfg.minContainerBytes then .error .invalidData
  else
    match runCommand .decImage { freshEngine cfg with source := bs } with
    | .next s => imageResult s
    | .fault _ => .error .invalidData
    | .refused _ => .error .invalidData

/-- isValidContainer(bytes) (R249): the length check, and hdr_parse of the first 14 bytes succeeds. -/
def isValidContainer (cfg : Config) (bs : List Byte) : Bool :=
  decide (cfg.minContainerBytes ≤ bs.length)
    && (match hdrParse cfg (bs.take Config.headerBytes) with
        | .ok _ => true
        | .error _ => false)

end Sys2Proof.Machine
end

