-- ==== Sys2Proof/Machine/Step.lean ====
section
/-! DEFINITION. One step of the machine, and a table word placed where the next step fetches. -/

namespace Sys2Proof.Machine

open Sys2Proof

/-- One step: one command of the host (spec/00_scope.md R9). -/
def step (s : State) : Host.Outcome State Fault Refusal := nextStep s

/-- The state in which the very next step fetches and runs the instruction of a table word. The engine has no program counter
(R26): the word's bytes become the next bytes of the source and the command that fetches them becomes the host's next
one (log entry 14). -/
def State.withFetchWord (s : State) (nbits w : Nat) : State :=
  placeWord (tablePart s.cfg nbits w) (tableBytes s.cfg nbits w) s

end Sys2Proof.Machine
end

