-- ==== Sys2Proof/Safety.lean ====
section
/-! DEFINITION. The vocabulary of claims: the invariants the spec states of the registers, the wire's bytes in numbers, and
what a host reads when it drives the two units by hand. Nothing here is used by the machine. -/

namespace Sys2Proof

open Sys2Proof.Machine

/-- The seed and the zero colour live in different slots (R37); it is so for the weights of R131, and a wire whose weights
broke it would not decode what it encodes. -/
abbrev Config.SeedApart (c : Config) : Prop := hashOf c.hashW Color.seed ≠ hashOf c.hashW Color.zero

end Sys2Proof

namespace Sys2Proof.Machine

open Sys2Proof

/-- Every slot of a cache holds the zero colour or a colour that hashes to it (spec/41_color_cache.md R139). -/
abbrev Cache.Hashed (w : HashWeights) (m : Cache) : Prop :=
  ∀ i : Slot, m.lookup i = Color.zero ∨ hashOf w (m.lookup i) = i

/-- R139 in both units. -/
abbrev State.CachesHashed (s : State) : Prop :=
  s.enc.cache.Hashed s.cfg.hashW ∧ s.dec.cache.Hashed s.cfg.hashW

/-- What spec/10_state.md says of the registers between commands: E.RUN is in 0..61 (R22), D.IDX is at most D.NPIX (R28), the
header registers hold 0 while D.HDR_VALID is 0 (R30) and recognized tags once it is 1 (R32). -/
abbrev State.RegsLegal (s : State) : Prop :=
  s.enc.run.toNat ≤ 61 ∧ s.dec.idx.toNat ≤ s.dec.npix.toNat
    ∧ (s.dec.hdrValid = false → s.dec.width = 0 ∧ s.dec.height = 0 ∧ s.dec.channels = 0 ∧ s.dec.colorspace = 0)
    ∧ (s.dec.hdrValid = true →
        channelsRecognized s.dec.channels = true ∧ colorspaceRecognized s.cfg s.dec.colorspace = true)

/-- The byte of a pending run of 1..62 pixels, and no byte for a run of 0: 0xC0 | (run - 1) (R231). -/
def pendingRun (run : BitVec 6) : List Byte := if run = 0 then [] else [0xC0 ||| (run.zeroExtend 8 - 1)]

/-- The 14 bytes of a header (R81). -/
def headerBytes (cfg : Config) (w h : BitVec 32) (ch cs : Byte) : List Byte :=
  cfg.magic.toList ++ be32 w ++ be32 h ++ [ch, cs]

/-- Both tags are recognized (R113). -/
abbrev tagsLegal (cfg : Config) (ch cs : Byte) : Prop :=
  channelsRecognized ch = true ∧ colorspaceRecognized cfg cs = true

/-- The encoder after a host pushed the pixels to a fresh engine and flushed (R207, R235). -/
def pushedAndFlushed (cfg : Config) (pixels : List Color) : State := encFlush (encPushAll pixels (freshEngine cfg))

/-- What a host gets that issues DEC_FETCH k times and expands each count: the last state and the pixels, or none if a fetch
fails (R198, R207). -/
def fetchTimes : Nat → State → Option (State × List Color)
  | 0, s => some (s, [])
  | k + 1, s =>
    match step { s with commands := [.decFetch] } with
    | .next t =>
      match t.decResult with
      | some (.run c n) => (fetchTimes k t).map fun p => (p.1, List.replicate n c ++ p.2)
      | some (.header _ _ _ _) => none
      | some (.image _ _ _ _) => none
      | some (.error _) => none
      | none => none
    | .fault _ => none
    | .refused _ => none

/-- The state from which DEC_IMAGE fetches its first opcode: the decoder reset, a header accepted and its 14 bytes counted, the
bytes behind it next (R244, R112). -/
def headed (s : State) (w h : BitVec 32) (ch cs : Byte) (body : List Byte) : State :=
  { s with
    source := body
    dec := { Decoder.reset with
      pos := 14, width := w, height := h, channels := ch, colorspace := cs, hdrValid := true } }

/-- The pixels of opcodes executed one after another: each one's colour as many times as it counts, in order (R198, R56). -/
def pixelsInOrder : List Instr → State → List Color
  | [], _ => []
  | i :: is, s =>
    match exec i s with
    | .next t => List.replicate (pixelCount i) t.dec.cur ++ pixelsInOrder is t
    | .fault _ => []
    | .refused _ => []

end Sys2Proof.Machine
end

