-- ==== Sys2Proof/Certificates/Slice0/Obligations.lean ====
section
/-! DEFINITION. The statements about the model, from the numbered rules of spec/. -/

open Sys2Proof Sys2Proof.Machine

/-! ### The wire -/

/-- R82 to R85, R92, R111, R236: decoding the bytes of a well-formed instruction gives it back, with nothing else taken. -/
def Obligations.DecodeUndoesEncode : Prop :=
  ∀ (cfg : Config) (i : Instr) (rest : List Byte), cfg.Legal → i.wellFormed cfg = true →
    decode cfg i.part (encode cfg i ++ rest) = .ok (i, rest)

/-- R84, R89, R91: bytes that decode are the bytes of exactly the instruction read (R81, R85, R88, R92), as long as the
instruction is. No opcode encoding is illegal: every first byte, with the operand bytes its class has and any bytes behind
them, decodes, and to a well-formed opcode. -/
def Obligations.DecodedBytesAreTheEncoding : Prop :=
  ∀ cfg : Config, cfg.Legal →
    (∀ (part : Part) (bs rest : List Byte) (i : Instr), decode cfg part bs = .ok (i, rest) →
      i.part = part ∧ encode cfg i ++ rest = bs ∧ (encode cfg i).length = i.length
        ∧ (part = .opcode → i.wellFormed cfg = true))
    ∧ (∀ (b0 : Byte) (ops rest : List Byte),
      ops.length = (match classify cfg b0 with
        | .rgb => 3
        | .rgba => 4
        | .index => 0
        | .diff => 0
        | .luma => 1
        | .run => 0) →
      ∃ i, decode cfg .opcode (b0 :: (ops ++ rest)) = .ok (i, rest) ∧ i.wellFormed cfg = true)

/-- R83: the classification of all 256 first bytes of WIRE_V1, and the six counts. -/
def Obligations.FirstBytesPartition : Prop :=
  (∀ b : Byte,
    (classify Config.wireV1 b = .rgb ↔ b = 0xFE) ∧ (classify Config.wireV1 b = .rgba ↔ b = 0xFF)
    ∧ (classify Config.wireV1 b = .index ↔ b.toNat ≤ 0x3F)
    ∧ (classify Config.wireV1 b = .diff ↔ 0x40 ≤ b.toNat ∧ b.toNat ≤ 0x7F)
    ∧ (classify Config.wireV1 b = .luma ↔ 0x80 ≤ b.toNat ∧ b.toNat ≤ 0xBF)
    ∧ (classify Config.wireV1 b = .run ↔ 0xC0 ≤ b.toNat ∧ b.toNat ≤ 0xFD))
  ∧ (∀ k : OpClass, ((List.range 256).countP fun n => classify Config.wireV1 (BitVec.ofNat 8 n) = k) =
      match k with
      | .rgb => 1
      | .rgba => 1
      | .index => 64
      | .diff => 64
      | .luma => 64
      | .run => 62)

/-- R85 and worked bytes of R111, R156, R157, R192, R193: some words written out from the encodings, in the opcode table's
numbering (bit 0 is the least significant bit of the first byte). That a word's bytes are read as a header or an end marker, and
not as opcodes, is the model's choice (log entry 14): in a stream the command that reads decides, and at an opcode's place the
bytes of END are OP_INDEX (R88). -/
def Obligations.WrittenWordsDecode : Prop :=
  decodeTableWord 8 0x7F = some (.opDiff 1 1 1) ∧ decodeTableWord 8 0x4E = some (.opDiff (-2) 1 0)
  ∧ decodeTableWord 16 0xA8A0 = some (.opLuma 0 2 0) ∧ decodeTableWord 8 0x09 = some (.opIndex 9)
  ∧ decodeTableWord 8 0xFD = some (.opRun 62) ∧ decodeTableWord 32 0x030201FE = some (.opRgb 1 2 3)
  ∧ decodeTableWord 40 0x04030201FF = some (.opRgba 1 2 3 4)
  ∧ decodeTableWord 112 0x0004020000000200000066696F71 = some (.hdr 2 2 4 0)
  ∧ decodeTableWord 64 0x0100000000000000 = some .endMarker

/-- R92: the bytes of each choice in numbers, for every legal configuration. -/
def Obligations.EmittedBytesInNumbers : Prop :=
  ∀ cfg : Config, cfg.Legal →
    (∀ n : Nat, 1 ≤ n → n ≤ 62 → encode cfg (.opRun n) = [BitVec.ofNat 8 (0xC0 + (n - 1))])
    ∧ (∀ h : Slot, encode cfg (.opIndex h) = [BitVec.ofNat 8 h.toNat])
    ∧ (∀ dr dg db : Int, cfg.diff.Holds dr → cfg.diff.Holds dg → cfg.diff.Holds db →
        encode cfg (.opDiff dr dg db) =
          [BitVec.ofInt 8 (0x40 + (dr + cfg.diff.bias) * 16 + (dg + cfg.diff.bias) * 4 + (db + cfg.diff.bias))])
    ∧ (∀ dg drg dbg : Int, cfg.lumaG.Holds dg → cfg.lumaRB.Holds drg → cfg.lumaRB.Holds dbg →
        encode cfg (.opLuma dg drg dbg) =
          [BitVec.ofInt 8 (0x80 + (dg + cfg.lumaG.bias)),
           if cfg.lumaRedHigh then BitVec.ofInt 8 ((drg + cfg.lumaRB.bias) * 16 + (dbg + cfg.lumaRB.bias))
           else BitVec.ofInt 8 ((dbg + cfg.lumaRB.bias) * 16 + (drg + cfg.lumaRB.bias))])
    ∧ (∀ r g b : Byte, encode cfg (.opRgb r g b) = [cfg.tagRgb, r, g, b])
    ∧ (∀ r g b a : Byte, encode cfg (.opRgba r g b a) = [cfg.tagRgba, r, g, b, a])

/-- R117: the header codec's round trip, both ways. -/
def Obligations.HeaderRoundTrip : Prop :=
  ∀ cfg : Config,
    (∀ (w h : BitVec 32) (ch cs : Byte), tagsLegal cfg ch cs →
      hdrParse cfg (headerBytes cfg w h ch cs) = .ok (w, h, ch, cs))
    ∧ (∀ (bs : List Byte) (w h : BitVec 32) (ch cs : Byte), bs.length = 14 → hdrParse cfg bs = .ok (w, h, ch, cs) →
      headerBytes cfg w h ch cs = bs)

/-- R114: the order of the header checks on any 14 bytes. -/
def Obligations.HeaderChecksInOrder : Prop :=
  ∀ (cfg : Config) (m0 m1 m2 m3 w0 w1 w2 w3 h0 h1 h2 h3 ch cs : Byte),
    hdrParse cfg [m0, m1, m2, m3, w0, w1, w2, w3, h0, h1, h2, h3, ch, cs] =
      if [m0, m1, m2, m3] ≠ cfg.magic.toList then .error .invalidMagic
      else if ch ≠ 3 ∧ ch ≠ 4 then .error .invalidTag
      else if cs ≠ cfg.csSrgb ∧ cs ≠ cfg.csLinear then .error .invalidTag
      else .ok (unbe32 w0 w1 w2 w3, unbe32 h0 h1 h2 h3, ch, cs)

/-! ### The colour cache -/

/-- R132: the hash is the low 6 bits of the 8-bit wrapping sum, for any weights; with the weights of R131 the sum is at most
6630. -/
def Obligations.HashFromWrappingBytes : Prop :=
  (∀ (w : HashWeights) (c : Color),
    hashOf w c =
      (BitVec.ofNat 8 w.r * c.r + BitVec.ofNat 8 w.g * c.g + BitVec.ofNat 8 w.b * c.b
        + BitVec.ofNat 8 w.a * c.a).extractLsb' 0 6)
  ∧ (∀ c : Color, (hashOf ⟨3, 5, 7, 11⟩ c).toNat =
      (3 * c.r.toNat + 5 * c.g.toNat + 7 * c.b.toNat + 11 * c.a.toNat) % 64)
  ∧ (∀ c : Color, 3 * c.r.toNat + 5 * c.g.toNat + 7 * c.b.toNat + 11 * c.a.toNat ≤ 6630)

/-- R133, R134: a slot holds what was stored to it last, and a store leaves every other slot alone. -/
def Obligations.CacheStoresWhole : Prop :=
  ∀ (m : Cache) (i j : Slot) (c : Color), (m.store i c).lookup j = if j = i then c else m.lookup j

/-- R139: every step of every command keeps the cache invariant of both units. -/
def Obligations.CachesStayHashed : Prop :=
  ∀ s t : State, s.CachesHashed → step s = .next t → t.CachesHashed

/-- R22, R28, R30, R32: every step keeps E.RUN in 0..61, D.IDX at most D.NPIX, the header registers 0 while D.HDR_VALID is 0
and their tags recognized once it is 1. -/
def Obligations.RegistersStayLegal : Prop :=
  ∀ s t : State, s.RegsLegal → step s = .next t → t.RegsLegal

/-- R37, R138: the reset state satisfies every invariant, and the configuration it holds is legal. -/
def Obligations.ResetSatisfiesInvariants : Prop :=
  State.reset.CachesHashed ∧ State.reset.RegsLegal ∧ State.reset.cfg.Legal ∧ State.reset.cfg.SeedApart

/-! ### The opcodes, executed -/

/-- R192, R193: a literal completes from every state; this is its whole effect once its bytes are taken. -/
def Obligations.LiteralsComplete : Prop :=
  ∀ (s : State) (r g b a : Byte),
    exec (.opRgb r g b) s = .next { s with
      dec := { s.dec with
        cur := ⟨r, g, b, s.dec.cur.a⟩
        cache := s.dec.cache.store (hashOf s.cfg.hashW ⟨r, g, b, s.dec.cur.a⟩) ⟨r, g, b, s.dec.cur.a⟩ }
      decResult := some (.run ⟨r, g, b, s.dec.cur.a⟩ 1) }
    ∧ exec (.opRgba r g b a) s = .next { s with
      dec := { s.dec with
        cur := ⟨r, g, b, a⟩
        cache := s.dec.cache.store (hashOf s.cfg.hashW ⟨r, g, b, a⟩) ⟨r, g, b, a⟩ }
      decResult := some (.run ⟨r, g, b, a⟩ 1) }

/-- R195, R196: OP_DIFF and OP_LUMA complete from every state. Each channel is its sum with its delta modulo 256 (in OP_LUMA
red and blue move by the green delta plus their own), alpha is kept. -/
def Obligations.DeltasComplete : Prop :=
  (∀ (s : State) (dr dg db : Int), ∃ c : Color,
    (c.r.toNat : Int) = ((s.dec.cur.r.toNat : Int) + dr) % 256
    ∧ (c.g.toNat : Int) = ((s.dec.cur.g.toNat : Int) + dg) % 256
    ∧ (c.b.toNat : Int) = ((s.dec.cur.b.toNat : Int) + db) % 256
    ∧ c.a = s.dec.cur.a
    ∧ exec (.opDiff dr dg db) s = .next { s with
        dec := { s.dec with cur := c, cache := s.dec.cache.store (hashOf s.cfg.hashW c) c }
        decResult := some (.run c 1) })
  ∧ (∀ (s : State) (dg drg dbg : Int), ∃ c : Color,
    (c.r.toNat : Int) = ((s.dec.cur.r.toNat : Int) + (dg + drg)) % 256
    ∧ (c.g.toNat : Int) = ((s.dec.cur.g.toNat : Int) + dg) % 256
    ∧ (c.b.toNat : Int) = ((s.dec.cur.b.toNat : Int) + (dg + dbg)) % 256
    ∧ c.a = s.dec.cur.a
    ∧ exec (.opLuma dg drg dbg) s = .next { s with
        dec := { s.dec with cur := c, cache := s.dec.cache.store (hashOf s.cfg.hashW c) c }
        decResult := some (.run c 1) })

/-- R194, R197: OP_INDEX and OP_RUN complete from every state, whatever the slot holds and whatever pixels remain. -/
def Obligations.RecallsComplete : Prop :=
  ∀ (s : State) (idx : Slot) (n : Nat),
    exec (.opIndex idx) s = .next { s with
      dec := { s.dec with
        cur := s.dec.cache.lookup idx
        cache := s.dec.cache.store (hashOf s.cfg.hashW (s.dec.cache.lookup idx)) (s.dec.cache.lookup idx) }
      decResult := some (.run (s.dec.cache.lookup idx) 1) }
    ∧ exec (.opRun n) s = .next { s with
      dec := { s.dec with cache := s.dec.cache.store (hashOf s.cfg.hashW s.dec.cur) s.dec.cur }
      decResult := some (.run s.dec.cur n) }

/-- R112, R114, R282: HDR with recognized tags completes from every state and writes the four header registers and D.HDR_VALID,
nothing else; with an unrecognized tag it raises InvalidTag and the header registers keep their values. -/
def Obligations.HeaderExecutes : Prop :=
  ∀ (s : State) (w h : BitVec 32) (ch cs : Byte),
    ((ch = 3 ∨ ch = 4) ∧ (cs = s.cfg.csSrgb ∨ cs = s.cfg.csLinear) →
      exec (.hdr w h ch cs) s = .next { s with
        dec := { s.dec with width := w, height := h, channels := ch, colorspace := cs, hdrValid := true }
        decResult := some (.header w h ch cs) })
    ∧ (¬ ((ch = 3 ∨ ch = 4) ∧ (cs = s.cfg.csSrgb ∨ cs = s.cfg.csLinear)) →
      exec (.hdr w h ch cs) s = .next { s with
        dec := { s.dec with err := some .invalidTag }
        decResult := some (.error .invalidTag) })

/-- R236: END completes from every state: the eight marker bytes, no register, no flush of a pending run; and ENC_END is
END. -/
def Obligations.EndMarkerCompletes : Prop :=
  ∀ (s : State) (rest : List Command),
    exec .endMarker s = .next { s with sink := s.sink ++ s.cfg.endMarker.toList }
    ∧ step { s with commands := .encEnd :: rest } =
        .next { s with commands := rest, sink := s.sink ++ s.cfg.endMarker.toList }

/-! ### The opcodes, fetched -/

/-- R190, R112, R236: a step runs the instruction decoded. When the source begins with the bytes of an opcode i, DEC_FETCH is
exec of i in the state whose source has lost exactly those bytes and whose D.POS counts them; DEC_HEADER likewise runs the
header; ENC_END runs the end marker. -/
def Obligations.StepRunsTheDecodedInstruction : Prop :=
  ∀ (s : State) (cmds : List Command) (i : Instr) (tail : List Byte), s.dec.err = none →
    (decode s.cfg .opcode s.source = .ok (i, tail) → s.dec.pos.toNat + i.length < 2 ^ 64 →
      step { s with commands := .decFetch :: cmds } =
        exec i { s with
          commands := cmds, source := tail, dec := { s.dec with pos := s.dec.pos + BitVec.ofNat 64 i.length } })
    ∧ (decode s.cfg .header s.source = .ok (i, tail) → s.dec.pos.toNat + 14 < 2 ^ 64 →
      step { s with commands := .decHeader :: cmds } =
        exec i { s with commands := cmds, source := tail, dec := { s.dec with pos := s.dec.pos + 14 } })
    ∧ step { s with commands := .encEnd :: cmds } = exec .endMarker { s with commands := cmds }

/-- The host's table words (the model's choice, log entry 14): the step after a word is placed runs the instruction the word decodes to. The first
clause is an opcode's, the second a header's, the third the end marker's. -/
def Obligations.PlacedWordRuns : Prop :=
  ∀ (s : State) (nbits w : Nat) (i : Instr), decodeTableWordWith s.cfg nbits w = some i →
    s.dec.pos.toNat + 14 < 2 ^ 64 →
    (i.part ≠ .endMarker → ∃ tail,
      step (s.withFetchWord nbits w) = exec i { s with
        source := tail ++ s.source
        dec := { s.dec with err := none, pos := s.dec.pos + BitVec.ofNat 64 i.length } })
    ∧ (i.part = .endMarker → step (s.withFetchWord nbits w) = exec i s)

/-- R192, R193: the literals from their bytes to their effect. OP_RGB keeps D.CUR's alpha; OP_RGBA keeps nothing. -/
def Obligations.FetchedLiterals : Prop :=
  ∀ (s : State) (cmds : List Command) (r g b a : Byte) (tail : List Byte), s.cfg.Legal → s.dec.err = none →
    (s.dec.pos.toNat + 4 < 2 ^ 64 →
      step { s with commands := .decFetch :: cmds, source := s.cfg.tagRgb :: r :: g :: b :: tail } =
        .next { s with
          commands := cmds
          source := tail
          dec := { s.dec with
            pos := s.dec.pos + 4
            cur := ⟨r, g, b, s.dec.cur.a⟩
            cache := s.dec.cache.store (hashOf s.cfg.hashW ⟨r, g, b, s.dec.cur.a⟩) ⟨r, g, b, s.dec.cur.a⟩ }
          decResult := some (.run ⟨r, g, b, s.dec.cur.a⟩ 1) })
    ∧ (s.dec.pos.toNat + 5 < 2 ^ 64 →
      step { s with commands := .decFetch :: cmds, source := s.cfg.tagRgba :: r :: g :: b :: a :: tail } =
        .next { s with
          commands := cmds
          source := tail
          dec := { s.dec with
            pos := s.dec.pos + 5
            cur := ⟨r, g, b, a⟩
            cache := s.dec.cache.store (hashOf s.cfg.hashW ⟨r, g, b, a⟩) ⟨r, g, b, a⟩ }
          decResult := some (.run ⟨r, g, b, a⟩ 1) })

/-- R194, R197: OP_INDEX and OP_RUN from their byte to their effect. The slot may never have been written (R204); every run
field 0..61 occurs, and the pixels that remain are not looked at. -/
def Obligations.FetchedRecalls : Prop :=
  ∀ (s : State) (cmds : List Command) (tail : List Byte),
    s.cfg.Legal → s.dec.err = none → s.dec.pos.toNat + 1 < 2 ^ 64 →
    (∀ idx : Slot,
      step { s with commands := .decFetch :: cmds, source := (0b00#2 ++ idx) :: tail } =
        .next { s with
          commands := cmds
          source := tail
          dec := { s.dec with
            pos := s.dec.pos + 1
            cur := s.dec.cache.lookup idx
            cache := s.dec.cache.store (hashOf s.cfg.hashW (s.dec.cache.lookup idx)) (s.dec.cache.lookup idx) }
          decResult := some (.run (s.dec.cache.lookup idx) 1) })
    ∧ (∀ x : BitVec 6, x.toNat ≤ 61 →
      step { s with commands := .decFetch :: cmds, source := (0b11#2 ++ x) :: tail } =
        .next { s with
          commands := cmds
          source := tail
          dec := { s.dec with
            pos := s.dec.pos + 1, cache := s.dec.cache.store (hashOf s.cfg.hashW s.dec.cur) s.dec.cur }
          decResult := some (.run s.dec.cur (x.toNat + 1)) })

/-- R195: OP_DIFF from its byte 01rrggbb to its effect. -/
def Obligations.FetchedDiff : Prop :=
  ∀ (s : State) (cmds : List Command) (fr fg fb : BitVec 2) (tail : List Byte),
    s.cfg.Legal → s.dec.err = none → s.dec.pos.toNat + 1 < 2 ^ 64 →
    ∃ c : Color,
      (c.r.toNat : Int) = ((s.dec.cur.r.toNat : Int) + (fr.toNat - s.cfg.diff.bias)) % 256
      ∧ (c.g.toNat : Int) = ((s.dec.cur.g.toNat : Int) + (fg.toNat - s.cfg.diff.bias)) % 256
      ∧ (c.b.toNat : Int) = ((s.dec.cur.b.toNat : Int) + (fb.toNat - s.cfg.diff.bias)) % 256
      ∧ c.a = s.dec.cur.a
      ∧ step { s with commands := .decFetch :: cmds, source := (0b01#2 ++ fr ++ fg ++ fb) :: tail } =
        .next { s with
          commands := cmds
          source := tail
          dec := { s.dec with
            pos := s.dec.pos + 1, cur := c, cache := s.dec.cache.store (hashOf s.cfg.hashW c) c }
          decResult := some (.run c 1) }

/-- R196: OP_LUMA from its bytes 10gggggg, rrrrbbbb to its effect; the nibble order is the configured one (R85). -/
def Obligations.FetchedLuma : Prop :=
  ∀ (s : State) (cmds : List Command) (fg : BitVec 6) (fr fb : BitVec 4) (tail : List Byte),
    s.cfg.Legal → s.dec.err = none → s.dec.pos.toNat + 2 < 2 ^ 64 →
    ∃ c : Color,
      (c.r.toNat : Int) =
        ((s.dec.cur.r.toNat : Int) + ((fg.toNat - s.cfg.lumaG.bias) + (fr.toNat - s.cfg.lumaRB.bias))) % 256
      ∧ (c.g.toNat : Int) = ((s.dec.cur.g.toNat : Int) + (fg.toNat - s.cfg.lumaG.bias)) % 256
      ∧ (c.b.toNat : Int) =
        ((s.dec.cur.b.toNat : Int) + ((fg.toNat - s.cfg.lumaG.bias) + (fb.toNat - s.cfg.lumaRB.bias))) % 256
      ∧ c.a = s.dec.cur.a
      ∧ step { s with
          commands := .decFetch :: cmds
          source := (0b10#2 ++ fg) :: (if s.cfg.lumaRedHigh then fr ++ fb else fb ++ fr) :: tail } =
        .next { s with
          commands := cmds
          source := tail
          dec := { s.dec with
            pos := s.dec.pos + 2, cur := c, cache := s.dec.cache.store (hashOf s.cfg.hashW c) c }
          decResult := some (.run c 1) }

/-- R201, R202, R115, R251, R288: an opcode or a header cut short is EndOfStream, in DEC_FETCH, in DEC_HEADER and in DEC_IMAGE. The
bytes that exist are taken and counted, whatever they are; D.CUR, D.CACHE and the header registers are unchanged. In DEC_IMAGE
the opcode cut short may stand behind any fetches that leave pixels missing (those pixels are void, log entry 8). -/
def Obligations.ShortReadsAreEndOfStream : Prop :=
  ∀ (s : State) (cmds : List Command), s.dec.err = none →
    (∀ c : Command, s.dec.pos.toNat + s.source.length < 2 ^ 64 →
      (c = .decFetch ∧
          (s.source = [] ∨ ∃ b0 ops, s.source = b0 :: ops ∧ ops.length < (classify s.cfg b0).operandBytes))
        ∨ (c = .decHeader ∧ s.source.length < 14) →
      step { s with commands := c :: cmds } =
        .next { s with
          commands := cmds
          source := []
          dec := { s.dec with
            pos := s.dec.pos + BitVec.ofNat 64 s.source.length, err := some .endOfStream }
          decResult := some (.error .endOfStream) })
    ∧ (s.source.length < 14 →
      step { s with commands := .decImage :: cmds } =
        .next { s with
          commands := cmds
          source := []
          dec := { Decoder.reset with
            pos := BitVec.ofNat 64 s.source.length, err := some .endOfStream }
          decResult := some (.error .endOfStream) })
    ∧ (∀ (w h : BitVec 32) (ch cs : Byte) (body : List Byte) (k : Nat) (u : State) (pixels : List Color),
      tagsLegal s.cfg ch cs → w.toNat * h.toNat ≤ s.cfg.maxPixels →
      fetchTimes k (headed s w h ch cs body) = some (u, pixels) → pixels.length < w.toNat * h.toNat →
      (u.source = [] ∨ ∃ b0 ops, u.source = b0 :: ops ∧ ops.length < (classify s.cfg b0).operandBytes) →
      u.dec.pos.toNat + u.source.length < 2 ^ 64 →
      step { s with commands := .decImage :: cmds, source := headerBytes s.cfg w h ch cs ++ body } =
        .next { s with
          commands := cmds
          source := []
          dec := { u.dec with
            npix := BitVec.ofNat 64 (w.toNat * h.toNat), idx := BitVec.ofNat 64 pixels.length
            pos := u.dec.pos + BitVec.ofNat 64 u.source.length, err := some .endOfStream }
          decResult := some (.error .endOfStream) })

/-- R203: DEC_FETCH is total: from every state with no error recorded it ends in a colour and a count in 1..62, or in
EndOfStream, and takes at most 5 bytes. -/
def Obligations.FetchIsTotal : Prop :=
  ∀ (s : State) (cmds : List Command), s.cfg.Legal → s.dec.err = none → ∃ t taken,
    step { s with commands := .decFetch :: cmds } = .next t
    ∧ s.source = taken ++ t.source ∧ taken.length ≤ 5
    ∧ ((∃ n, 1 ≤ n ∧ n ≤ 62 ∧ t.dec.err = none ∧ t.decResult = some (.run t.dec.cur n))
      ∨ (t.dec.err = some .endOfStream ∧ t.decResult = some (.error .endOfStream)))

/-! ### The header commands -/

/-- R111, R51: ENC_HEADER writes the 14 bytes and no register; operands outside their sets are refused. -/
def Obligations.EncoderWritesHeader : Prop :=
  ∀ (s : State) (cmds : List Command) (w h ch cs : Nat),
    (w < 2 ^ 32 ∧ h < 2 ^ 32 ∧ (ch = 3 ∨ ch = 4) ∧ (cs = s.cfg.csSrgb.toNat ∨ cs = s.cfg.csLinear.toNat) →
      step { s with commands := .encHeader w h ch cs :: cmds } =
        .next { s with
          commands := cmds
          sink := s.sink ++ (s.cfg.magic.toList
            ++ [BitVec.ofNat 8 (w / 2 ^ 24), BitVec.ofNat 8 (w / 2 ^ 16), BitVec.ofNat 8 (w / 2 ^ 8), BitVec.ofNat 8 w]
            ++ [BitVec.ofNat 8 (h / 2 ^ 24), BitVec.ofNat 8 (h / 2 ^ 16), BitVec.ofNat 8 (h / 2 ^ 8), BitVec.ofNat 8 h]
            ++ [BitVec.ofNat 8 ch, BitVec.ofNat 8 cs]) })
    ∧ (¬ (w < 2 ^ 32 ∧ h < 2 ^ 32 ∧ (ch = 3 ∨ ch = 4) ∧ (cs = s.cfg.csSrgb.toNat ∨ cs = s.cfg.csLinear.toNat)) →
      step { s with commands := .encHeader w h ch cs :: cmds } = .refused .operandOutsideSet)

/-- R112: DEC_HEADER on 14 good bytes: the four header registers and D.HDR_VALID together, D.POS + 14, nothing else. -/
def Obligations.DecoderAcceptsHeader : Prop :=
  ∀ (s : State) (cmds : List Command) (w0 w1 w2 w3 h0 h1 h2 h3 ch cs : Byte) (tail : List Byte),
    s.dec.err = none → s.dec.pos.toNat + 14 < 2 ^ 64 → tagsLegal s.cfg ch cs →
    step { s with
        commands := .decHeader :: cmds
        source := s.cfg.magic.toList ++ [w0, w1, w2, w3] ++ [h0, h1, h2, h3] ++ [ch, cs] ++ tail } =
      .next { s with
        commands := cmds
        source := tail
        dec := { s.dec with
          pos := s.dec.pos + 14, width := w0 ++ w1 ++ w2 ++ w3, height := h0 ++ h1 ++ h2 ++ h3
          channels := ch, colorspace := cs, hdrValid := true }
        decResult := some (.header (w0 ++ w1 ++ w2 ++ w3) (h0 ++ h1 ++ h2 ++ h3) ch cs) }

/-- R283, R281, R282: a header error. DEC_HEADER raises the error hdr_parse gives, D.POS has advanced by 14 and the header
registers keep their values; DEC_IMAGE, which has reset the unit first, raises the same error, or InvalidData in its place
when HDR_ERR_FOLD is true. -/
def Obligations.HeaderErrorsAtBothLevels : Prop :=
  ∀ (s : State) (cmds : List Command) (b14 tail : List Byte) (k : ErrKind),
    s.dec.err = none → s.dec.pos.toNat + 14 < 2 ^ 64 → b14.length = 14 → hdrParse s.cfg b14 = .error k →
    (k = .invalidMagic ∨ k = .invalidTag)
    ∧ step { s with commands := .decHeader :: cmds, source := b14 ++ tail } =
        .next { s with
          commands := cmds
          source := tail
          dec := { s.dec with pos := s.dec.pos + 14, err := some k }
          decResult := some (.error k) }
    ∧ step { s with commands := .decImage :: cmds, source := b14 ++ tail } =
        .next { s with
          commands := cmds
          source := tail
          dec := { Decoder.reset with
            pos := 14, err := some (if s.cfg.hdrErrFold then .invalidData else k) }
          decResult := some (.error (if s.cfg.hdrErrFold then .invalidData else k)) }

/-! ### Errors, reset, status -/

/-- R286, R31, R291: while D.ERR is not 0 every decoder command but DEC_RESET does nothing and returns the recorded error again,
and no step of any command but DEC_RESET changes a recorded error. -/
def Obligations.StoppedUntilReset : Prop :=
  (∀ (s : State) (cmds : List Command) (c : Command) (k : ErrKind),
    s.dec.err = some k → c.isDec = true → c ≠ .decReset →
    step { s with commands := c :: cmds } = .next { s with commands := cmds, decResult := some (.error k) })
  ∧ (∀ (s t : State) (k : ErrKind), s.dec.err = some k → step s = .next t →
      t.dec.err = some k ∨ (t.dec.err = none ∧ ∃ cmds, s.commands = .decReset :: cmds))

/-- R310 to R312: each unit's reset from any state, an error recorded or a run pending or not. It leaves the other unit, the sink
and the source alone, and a pending run is dropped. -/
def Obligations.UnitResets : Prop :=
  ∀ (s : State) (cmds : List Command),
    (∃ t, step { s with commands := .encReset :: cmds } = .next t
      ∧ (∀ i : Slot, t.enc.cache.lookup i = ⟨0, 0, 0, 0⟩) ∧ t.enc.prev = ⟨0, 0, 0, 255⟩ ∧ t.enc.run = 0
      ∧ t = { s with commands := cmds, enc := t.enc })
    ∧ (∃ t, step { s with commands := .decReset :: cmds } = .next t
      ∧ (∀ i : Slot, t.dec.cache.lookup i = ⟨0, 0, 0, 0⟩) ∧ t.dec.cur = ⟨0, 0, 0, 255⟩
      ∧ t.dec.pos = 0 ∧ t.dec.npix = 0 ∧ t.dec.idx = 0
      ∧ t.dec.width = 0 ∧ t.dec.height = 0 ∧ t.dec.channels = 0 ∧ t.dec.colorspace = 0 ∧ t.dec.hdrValid = false
      ∧ t.dec.err = none
      ∧ t = { s with commands := cmds, dec := t.dec, decResult := t.decResult })

/-- R36: every register's value after power-on reset, and again after the unit's reset command from any state. -/
def Obligations.ResetValues : Prop :=
  (∀ i : Slot, State.reset.enc.cache.lookup i = ⟨0, 0, 0, 0⟩) ∧ State.reset.enc.prev = ⟨0, 0, 0, 255⟩
  ∧ State.reset.enc.run = 0
  ∧ (∀ i : Slot, State.reset.dec.cache.lookup i = ⟨0, 0, 0, 0⟩) ∧ State.reset.dec.cur = ⟨0, 0, 0, 255⟩
  ∧ State.reset.dec.pos = 0 ∧ State.reset.dec.width = 0 ∧ State.reset.dec.height = 0
  ∧ State.reset.dec.channels = 0 ∧ State.reset.dec.colorspace = 0 ∧ State.reset.dec.hdrValid = false
  ∧ State.reset.dec.npix = 0 ∧ State.reset.dec.idx = 0 ∧ errCode State.reset.dec.err = 0
  ∧ (∀ (s : State) (cmds : List Command),
      step { s with commands := .encReset :: cmds } = .next { s with commands := cmds, enc := State.reset.enc }
      ∧ ∃ r, step { s with commands := .decReset :: cmds } =
          .next { s with commands := cmds, dec := State.reset.dec, decResult := r })

/-- R57, R301, R31: reading a register returns its value and changes nothing else; D.ERR reads as its code, 6 and 7 never. -/
def Obligations.DebugReadOnly : Prop :=
  (∀ (s : State) (cmds : List Command) (r : Reg),
    step { s with commands := .readReg r :: cmds } = .next { s with commands := cmds, dbgValue := some (regValue s r) })
  ∧ (∀ s : State,
      regValue s .decErr = .number 3 (match s.dec.err with
        | none => 0
        | some .invalidMagic => 1
        | some .invalidTag => 2
        | some .invalidData => 3
        | some .endOfStream => 4
        | some .outOfMemory => 5))
  ∧ (∀ (s : State) (i : Slot),
      regValue s (.encCache i) = .color (s.enc.cache.lookup i) ∧ regValue s (.decCache i) = .color (s.dec.cache.lookup i)
      ∧ regValue s .encPrev = .color s.enc.prev ∧ regValue s .decCur = .color s.dec.cur
      ∧ regValue s .encRun = .number 6 s.enc.run.toNat ∧ regValue s .decPos = .number 64 s.dec.pos.toNat
      ∧ regValue s .decWidth = .number 32 s.dec.width.toNat ∧ regValue s .decHeight = .number 32 s.dec.height.toNat
      ∧ regValue s .decChannels = .number 8 s.dec.channels.toNat
      ∧ regValue s .decColorspace = .number 8 s.dec.colorspace.toNat
      ∧ regValue s .decHdrValid = .number 1 (if s.dec.hdrValid then 1 else 0)
      ∧ regValue s .decNpix = .number 64 s.dec.npix.toNat ∧ regValue s .decIdx = .number 64 s.dec.idx.toNat)

/-! ### The encoder -/

/-- R165: in both modes the delta the encoder takes is undone by the decoder's wrapping addition. -/
def Obligations.DeltasDecodeInBothModes : Prop :=
  ∀ (wrap : Bool) (x p : Byte),
    BitVec.ofInt 8 ((p.toNat : Int) + delta wrap x p) = x
    ∧ (wrap = false → delta wrap x p = (x.toNat : Int) - p.toNat)
    ∧ (wrap = true → -128 ≤ delta wrap x p ∧ delta wrap x p ≤ 127)

/-- R152, R232: a pixel equal to the previous one grows the run by one and emits nothing, until the run reaches 62, which is
emitted at once as byte FD; the cache is neither read nor written. -/
def Obligations.EqualPixelGrowsTheRun : Prop :=
  ∀ (s : State) (cmds : List Command), s.enc.run.toNat ≤ 61 →
    step { s with commands := .encPush s.enc.prev :: cmds } =
      .next (if s.enc.run.toNat = 61 then
          { s with commands := cmds, enc := { s.enc with run := 0 }, sink := s.sink ++ [0xFD] }
        else { s with commands := cmds, enc := { s.enc with run := s.enc.run + 1 } })

/-- R153, R233, R161: a pixel that is a cache hit: the pending run's byte, then one byte, its hash; the cache is unchanged. -/
def Obligations.CacheHitEmitsIndex : Prop :=
  ∀ (s : State) (cmds : List Command) (px : Color),
    px ≠ s.enc.prev → s.enc.cache.lookup (hashOf s.cfg.hashW px) = px →
    step { s with commands := .encPush px :: cmds } =
      .next { s with
        commands := cmds
        enc := { s.enc with prev := px, run := 0 }
        sink := s.sink ++ pendingRun s.enc.run ++ [0b00#2 ++ hashOf s.cfg.hashW px] }

/-- R156, R154: a miss whose alpha is unchanged and whose three deltas are small is OP_DIFF, whatever else applies. -/
def Obligations.SmallDeltaEmitsDiff : Prop :=
  ∀ (s : State) (cmds : List Command) (px : Color) (dr dg db : Int),
    px ≠ s.enc.prev → s.enc.cache.lookup (hashOf s.cfg.hashW px) ≠ px → px.a = s.enc.prev.a →
    dr = delta s.cfg.encDeltaWrap px.r s.enc.prev.r → dg = delta s.cfg.encDeltaWrap px.g s.enc.prev.g →
    db = delta s.cfg.encDeltaWrap px.b s.enc.prev.b →
    s.cfg.diff.Holds dr → s.cfg.diff.Holds dg → s.cfg.diff.Holds db →
    step { s with commands := .encPush px :: cmds } =
      .next { s with
        commands := cmds
        enc := { s.enc with
          cache := s.enc.cache.store (hashOf s.cfg.hashW px) px, prev := px, run := 0 }
        sink := s.sink ++ pendingRun s.enc.run ++ encode s.cfg (.opDiff dr dg db) }

/-- R157, R154: a miss with unchanged alpha that fails OP_DIFF and whose luma-relative deltas fit is OP_LUMA. -/
def Obligations.LumaDeltaEmitsLuma : Prop :=
  ∀ (s : State) (cmds : List Command) (px : Color) (dr dg db : Int),
    px ≠ s.enc.prev → s.enc.cache.lookup (hashOf s.cfg.hashW px) ≠ px → px.a = s.enc.prev.a →
    dr = delta s.cfg.encDeltaWrap px.r s.enc.prev.r → dg = delta s.cfg.encDeltaWrap px.g s.enc.prev.g →
    db = delta s.cfg.encDeltaWrap px.b s.enc.prev.b →
    ¬ (s.cfg.diff.Holds dr ∧ s.cfg.diff.Holds dg ∧ s.cfg.diff.Holds db) →
    s.cfg.lumaG.Holds dg → s.cfg.lumaRB.Holds (dr - dg) → s.cfg.lumaRB.Holds (db - dg) →
    step { s with commands := .encPush px :: cmds } =
      .next { s with
        commands := cmds
        enc := { s.enc with
          cache := s.enc.cache.store (hashOf s.cfg.hashW px) px, prev := px, run := 0 }
        sink := s.sink ++ pendingRun s.enc.run ++ encode s.cfg (.opLuma dg (dr - dg) (db - dg)) }

/-- R158, R159, R154: every other miss is a literal: RGB when alpha is unchanged (and no delta form applies), RGBA whenever
alpha changed, however small the other deltas are. -/
def Obligations.OtherMissesEmitLiterals : Prop :=
  ∀ (s : State) (cmds : List Command) (px : Color) (dr dg db : Int),
    px ≠ s.enc.prev → s.enc.cache.lookup (hashOf s.cfg.hashW px) ≠ px →
    dr = delta s.cfg.encDeltaWrap px.r s.enc.prev.r → dg = delta s.cfg.encDeltaWrap px.g s.enc.prev.g →
    db = delta s.cfg.encDeltaWrap px.b s.enc.prev.b →
    (px.a = s.enc.prev.a →
      ¬ (s.cfg.diff.Holds dr ∧ s.cfg.diff.Holds dg ∧ s.cfg.diff.Holds db) ∧
      ¬ (s.cfg.lumaG.Holds dg ∧ s.cfg.lumaRB.Holds (dr - dg) ∧ s.cfg.lumaRB.Holds (db - dg))) →
    step { s with commands := .encPush px :: cmds } =
      .next { s with
        commands := cmds
        enc := { s.enc with
          cache := s.enc.cache.store (hashOf s.cfg.hashW px) px, prev := px, run := 0 }
        sink := s.sink ++ pendingRun s.enc.run ++
          (if px.a = s.enc.prev.a then [s.cfg.tagRgb, px.r, px.g, px.b]
           else [s.cfg.tagRgba, px.r, px.g, px.b, px.a]) }

/-- R162: the encoder's registers after any push. -/
def Obligations.StateAfterPush : Prop :=
  ∀ (s : State) (cmds : List Command) (px : Color), s.enc.run.toNat ≤ 61 → ∃ t,
    step { s with commands := .encPush px :: cmds } = .next t
    ∧ t.enc.prev = px ∧ t.enc.run.toNat ≤ 61
    ∧ (px ≠ s.enc.prev → t.enc.run = 0 ∧ t.enc.cache.lookup (hashOf s.cfg.hashW px) = px)
    ∧ (px = s.enc.prev → t.enc.cache = s.enc.cache
        ∧ t.enc.run.toNat = (if s.enc.run.toNat + 1 = 62 then 0 else s.enc.run.toNat + 1))

/-- R161: one push appends at most 6 bytes; when it ends a run, the run's byte comes first and the bytes the same push emits
with no run pending follow it. -/
def Obligations.PushEmitsAtMostSixBytes : Prop :=
  ∀ (s : State) (cmds : List Command) (px : Color), ∃ t out,
    step { s with commands := .encPush px :: cmds } = .next t
    ∧ t.sink = s.sink ++ out ∧ out.length ≤ 6
    ∧ (px ≠ s.enc.prev → s.enc.run ≠ 0 → ∃ opcode u, out = (0xC0 ||| (s.enc.run.zeroExtend 8 - 1)) :: opcode
        ∧ 1 ≤ opcode.length
        ∧ step { s with commands := .encPush px :: cmds, enc := { s.enc with run := 0 } } = .next u
        ∧ u.sink = s.sink ++ opcode)

/-- R234: ENC_FLUSH emits the pending run and clears E.RUN, keeps E.PREV and E.CACHE, and with no run does nothing. -/
def Obligations.FlushEmitsThePendingRun : Prop :=
  ∀ (s : State) (cmds : List Command),
    step { s with commands := .encFlush :: cmds } =
      .next { s with
        commands := cmds
        enc := { s.enc with run := 0 }
        sink := s.sink ++ (if s.enc.run.toNat = 0 then [] else [0xC0 ||| BitVec.ofNat 8 (s.enc.run.toNat - 1)]) }

/-- R235: k pixels equal to E.PREV and a flush, from a state with no pending run: floor(k/62) bytes FD, then one byte for the
rest if there is a rest. -/
def Obligations.RunLengthsProduced : Prop :=
  ∀ (s : State) (k : Nat), s.enc.run = 0 →
    Host.Core.run Sys2Proof.core (k + 1)
        ({ s with commands := List.replicate k (.encPush s.enc.prev) ++ [.encFlush] } : State) =
      .next ({ s with
        commands := []
        sink := s.sink ++ List.replicate (k / 62) 0xFD
          ++ (if k % 62 = 0 then [] else [0xC0 ||| BitVec.ofNat 8 (k % 62 - 1)]) } : State)

/-- R242: ENC_IMAGE and the primitive commands a host issues itself reach the same state, and so the same bytes. -/
def Obligations.IncrementalEqualsWhole : Prop :=
  ∀ (s : State) (cmds : List Command) (w h ch cs : Nat) (pixels : List Color),
    (Command.encImage w h ch cs pixels).legal s.cfg = true →
    Host.Core.run Sys2Proof.core (pixels.length + 4)
        ({ s with commands := .encReset :: .encHeader w h ch cs ::
            (pixels.map .encPush ++ .encFlush :: .encEnd :: cmds) } : State) =
      step { s with commands := .encImage w h ch cs pixels :: cmds }

/-- R240, R241, R63: what ENC_IMAGE appends is the header, the opcodes and the end marker; for n = w*h pixels the opcodes have
at most 5n and at least ceil(n/62) bytes; wrong operands are refused. -/
def Obligations.WholeImageLayout : Prop :=
  ∀ (s : State) (cmds : List Command) (w h ch cs : Nat) (pixels : List Color),
    ((Command.encImage w h ch cs pixels).legal s.cfg = true → ∃ t ops,
      step { s with commands := .encImage w h ch cs pixels :: cmds } = .next t
      ∧ t.sink = s.sink ++ (headerBytes s.cfg (BitVec.ofNat 32 w) (BitVec.ofNat 32 h) (BitVec.ofNat 8 ch)
          (BitVec.ofNat 8 cs) ++ ops ++ s.cfg.endMarker.toList)
      ∧ ops.length ≤ 5 * (w * h) ∧ w * h ≤ 62 * ops.length ∧ t.sink.length = s.sink.length + 22 + ops.length
      ∧ t = { s with commands := cmds, enc := t.enc, sink := t.sink })
    ∧ ((Command.encImage w h ch cs pixels).legal s.cfg = false →
      step { s with commands := .encImage w h ch cs pixels :: cmds } = .refused .operandOutsideSet)

/-- R314: two encodings of the same image give the same bytes whatever was encoded before. -/
def Obligations.NothingLeaksBetweenImages : Prop :=
  ∀ (s1 s2 t1 t2 : State) (c1 c2 : List Command) (w h ch cs : Nat) (pixels : List Color),
    s1.cfg = s2.cfg →
    step { s1 with commands := .encImage w h ch cs pixels :: c1 } = .next t1 →
    step { s2 with commands := .encImage w h ch cs pixels :: c2 } = .next t2 →
    ∃ out, t1.sink = s1.sink ++ out ∧ t2.sink = s2.sink ++ out ∧ t1.enc = t2.enc

/-! ### Whole images, decoded -/

/-- R243, R287: an image with more than MAX_PIXELS pixels is OutOfMemory, after the header and before any other byte is
taken. -/
def Obligations.OversizedImageIsOutOfMemory : Prop :=
  ∀ (s : State) (cmds : List Command) (w h : BitVec 32) (ch cs : Byte) (tail : List Byte),
    s.dec.err = none → tagsLegal s.cfg ch cs → s.cfg.maxPixels < w.toNat * h.toNat →
    step { s with commands := .decImage :: cmds, source := headerBytes s.cfg w h ch cs ++ tail } =
      .next { s with
        commands := cmds
        source := tail
        dec := { Decoder.reset with
          pos := 14, width := w, height := h, channels := ch, colorspace := cs, hdrValid := true
          npix := BitVec.ofNat 64 (w.toNat * h.toNat), err := some .outOfMemory }
        decResult := some (.error .outOfMemory) }

/-- R247: an image of no pixels: exactly the 14 header bytes are taken, and it is no error that the source then ends. -/
def Obligations.EmptyImageTakesOnlyTheHeader : Prop :=
  ∀ (s : State) (cmds : List Command) (w h : BitVec 32) (ch cs : Byte) (tail : List Byte),
    s.dec.err = none → tagsLegal s.cfg ch cs → w.toNat * h.toNat = 0 →
    step { s with commands := .decImage :: cmds, source := headerBytes s.cfg w h ch cs ++ tail } =
      .next { s with
        commands := cmds
        source := tail
        dec := { Decoder.reset with
          pos := 14, width := w, height := h, channels := ch, colorspace := cs, hdrValid := true }
        decResult := some (.image w h ch cs) }

/-- R245: a run longer than the pixels that remain is InvalidData, whatever opcodes stand before it in the image. The run's
opcode has taken its effect on D.CACHE and its bytes are counted; D.IDX does not move. That no pixel is left on the output is
how the model voids them (log entry 8). -/
def Obligations.OverrunIsInvalidData : Prop :=
  ∀ (s : State) (cmds : List Command) (w h : BitVec 32) (ch cs : Byte) (before : List Instr) (x : BitVec 6)
    (tail : List Byte),
    s.cfg.Legal → s.dec.err = none → tagsLegal s.cfg ch cs → w.toNat * h.toNat ≤ s.cfg.maxPixels → x.toNat ≤ 61 →
    (∀ i ∈ before, i.part = .opcode ∧ i.wellFormed s.cfg = true) →
    (before.map pixelCount).sum < w.toNat * h.toNat →
    w.toNat * h.toNat < (before.map pixelCount).sum + (x.toNat + 1) →
    ∃ t, step { s with
        commands := .decImage :: cmds
        source := headerBytes s.cfg w h ch cs ++ (before.flatMap (encode s.cfg) ++ (0b11#2 ++ x) :: tail) } = .next t
      ∧ t.decResult = some (.error .invalidData) ∧ t.dec.err = some .invalidData
      ∧ t.source = tail ∧ t.pixOut = s.pixOut
      ∧ t.dec.idx.toNat = (before.map pixelCount).sum ∧ t.dec.npix.toNat = w.toNat * h.toNat
      ∧ t.dec.cache.lookup (hashOf s.cfg.hashW t.dec.cur) = t.dec.cur
      ∧ (14 + (before.flatMap (encode s.cfg)).length + 1 < 2 ^ 64 →
          t.dec.pos.toNat = 14 + (before.flatMap (encode s.cfg)).length + 1)
      ∧ t = { s with commands := cmds, source := t.source, dec := t.dec, decResult := t.decResult }

/-- R250, R280, R56, R244, R198: DEC_IMAGE ends from every state with no error recorded and every source, either in a complete
image of D.NPIX <= MAX_PIXELS pixels whose dimensions and tags are those of the 14 bytes it took first, or in one of the five
errors with no pixel left on the output (the model's way to void them, log entry 8); it takes a part of the source from its
front. Which pixels a complete image has: behind a good header, whenever DEC_FETCH issued some number of times returns colours
whose counts add up to the image, DEC_IMAGE delivers those colours, each as often as it counts, in order, and leaves D as the
fetches do; and for any well-formed opcodes that fill the image exactly this is so, with each opcode's colour repeated
pixelCount times, in order. -/
def Obligations.ImageOrError : Prop :=
  ∀ (s : State) (cmds : List Command), s.dec.err = none →
    (∃ t taken,
      step { s with commands := .decImage :: cmds } = .next t
      ∧ s.source = taken ++ t.source
      ∧ t = { s with
          commands := cmds, source := t.source, dec := t.dec, pixOut := t.pixOut, decResult := t.decResult }
      ∧ ((∃ pixels body, t.dec.err = none ∧ t.pixOut = s.pixOut ++ pixels
            ∧ taken = headerBytes s.cfg t.dec.width t.dec.height t.dec.channels t.dec.colorspace ++ body
            ∧ pixels.length = t.dec.width.toNat * t.dec.height.toNat ∧ pixels.length ≤ s.cfg.maxPixels
            ∧ t.dec.idx = t.dec.npix ∧ t.dec.npix.toNat = pixels.length
            ∧ t.decResult = some (.image t.dec.width t.dec.height t.dec.channels t.dec.colorspace))
        ∨ (∃ k, t.dec.err = some k ∧ t.pixOut = s.pixOut ∧ t.decResult = some (.error k))))
    ∧ (∀ (w h : BitVec 32) (ch cs : Byte) (body : List Byte) (k : Nat) (u : State) (pixels : List Color),
      tagsLegal s.cfg ch cs → w.toNat * h.toNat ≤ s.cfg.maxPixels →
      fetchTimes k (headed s w h ch cs body) = some (u, pixels) → pixels.length = w.toNat * h.toNat →
      step { s with commands := .decImage :: cmds, source := headerBytes s.cfg w h ch cs ++ body } =
        .next { s with
          commands := cmds
          source := u.source
          pixOut := s.pixOut ++ pixels
          dec := { u.dec with
            npix := BitVec.ofNat 64 (w.toNat * h.toNat), idx := BitVec.ofNat 64 (w.toNat * h.toNat) }
          decResult := some (.image w h ch cs) })
    ∧ (∀ (w h : BitVec 32) (ch cs : Byte) (is : List Instr) (tail : List Byte),
      s.cfg.Legal → tagsLegal s.cfg ch cs → w.toNat * h.toNat ≤ s.cfg.maxPixels →
      (∀ i ∈ is, i.part = .opcode ∧ i.wellFormed s.cfg = true) →
      (is.map pixelCount).sum = w.toNat * h.toNat →
      ∃ u t, fetchTimes is.length (headed s w h ch cs (is.flatMap (encode s.cfg) ++ tail)) =
          some (u, pixelsInOrder is (headed s w h ch cs (is.flatMap (encode s.cfg) ++ tail)))
        ∧ step { s with
            commands := .decImage :: cmds
            source := headerBytes s.cfg w h ch cs ++ (is.flatMap (encode s.cfg) ++ tail) } = .next t
        ∧ t.pixOut = s.pixOut ++ pixelsInOrder is (headed s w h ch cs (is.flatMap (encode s.cfg) ++ tail))
        ∧ t.source = tail ∧ t.dec.err = none ∧ t.decResult = some (.image w h ch cs)
        ∧ t.dec.cache = u.dec.cache ∧ t.dec.cur = u.dec.cur)

/-- R246: a completed image does not depend on what follows its last opcode: with any bytes added at the end of the source the
result is the same and the added bytes are left there, unread. -/
def Obligations.TrailingBytesAreNeverRead : Prop :=
  ∀ (s t : State) (cmds : List Command) (extra : List Byte),
    step { s with commands := .decImage :: cmds } = .next t → s.dec.err = none → t.dec.err = none →
    step { s with commands := .decImage :: cmds, source := s.source ++ extra } =
      .next { t with source := t.source ++ extra }

/-- R118, R32: the two tags change nothing else. DEC_FETCH does the same whatever D.CHANNELS and D.COLORSPACE hold; DEC_IMAGE does
the same on two headers that differ only in recognized tags, but for the tags it records and returns: the pixels are the same,
and so is an error; and ENC_IMAGE emits the same opcodes, and leaves the same registers, behind either header. -/
def Obligations.TagsAreInformational : Prop :=
  (∀ (s t : State) (cmds : List Command) (ch cs : Byte),
    step { s with commands := .decFetch :: cmds } = .next t →
    step { s with commands := .decFetch :: cmds, dec := { s.dec with channels := ch, colorspace := cs } } =
      .next { t with dec := { t.dec with channels := ch, colorspace := cs } })
  ∧ (∀ (s t : State) (cmds : List Command) (w h : BitVec 32) (ch cs ch' cs' : Byte) (body : List Byte),
    s.dec.err = none → tagsLegal s.cfg ch cs → tagsLegal s.cfg ch' cs' →
    step { s with commands := .decImage :: cmds, source := headerBytes s.cfg w h ch cs ++ body } = .next t →
    step { s with commands := .decImage :: cmds, source := headerBytes s.cfg w h ch' cs' ++ body } =
      .next { t with
        dec := { t.dec with channels := ch', colorspace := cs' }
        decResult := if t.dec.err = none then some (.image w h ch' cs') else t.decResult })
  ∧ (∀ (s : State) (cmds : List Command) (w h ch cs ch' cs' : Nat) (pixels : List Color),
    (Command.encImage w h ch cs pixels).legal s.cfg = true → (Command.encImage w h ch' cs' pixels).legal s.cfg = true →
    ∃ e ops,
      step { s with commands := .encImage w h ch cs pixels :: cmds } = .next { s with
        commands := cmds
        enc := e
        sink := s.sink ++ (headerBytes s.cfg (BitVec.ofNat 32 w) (BitVec.ofNat 32 h) (BitVec.ofNat 8 ch)
          (BitVec.ofNat 8 cs) ++ ops) }
      ∧ step { s with commands := .encImage w h ch' cs' pixels :: cmds } = .next { s with
        commands := cmds
        enc := e
        sink := s.sink ++ (headerBytes s.cfg (BitVec.ofNat 32 w) (BitVec.ofNat 32 h) (BitVec.ofNat 8 ch')
          (BitVec.ofNat 8 cs') ++ ops) })

/-! ### Encoder and decoder together -/

/-- R18: the round trip of whole images, under both values of ENC_DELTA_WRAP. The bytes ENC_IMAGE appends to the sink, given to
DEC_IMAGE, return the same dimensions, tags and colours, with no error; the end marker is left unread. The wire's literals are
any legal ones that keep the seed and the zero colour in different slots (R37), as those of R7 do. -/
def Obligations.ImageRoundTrip : Prop :=
  ∀ (s t u : State) (c1 c2 : List Command) (w h ch cs : Nat) (pixels : List Color) (tail : List Byte),
    s.cfg.Legal → s.cfg.SeedApart → w * h ≤ s.cfg.maxPixels →
    (Command.encImage w h ch cs pixels).legal s.cfg = true → u.cfg = s.cfg → u.dec.err = none →
    step { s with commands := .encImage w h ch cs pixels :: c1 } = .next t →
    ∃ (out : List Byte) (v : State), t.sink = s.sink ++ out
      ∧ step { u with commands := .decImage :: c2, source := out ++ tail } = .next v
      ∧ v.decResult = some (.image (BitVec.ofNat 32 w) (BitVec.ofNat 32 h) (BitVec.ofNat 8 ch) (BitVec.ofNat 8 cs))
      ∧ v.pixOut = u.pixOut ++ pixels ∧ v.dec.err = none ∧ v.source = s.cfg.endMarker.toList ++ tail

/-- R207: the pixels a host pushed and flushed come back from as many DEC_FETCH as there are opcodes, each count expanded, and
D.CUR ends equal to E.PREV. -/
def Obligations.FetchesReturnThePushedPixels : Prop :=
  ∀ (cfg : Config) (pixels : List Color), cfg.Legal → cfg.SeedApart →
    ∃ k t, fetchTimes k { freshEngine cfg with source := (pushedAndFlushed cfg pixels).sink } = some (t, pixels)
      ∧ t.source = [] ∧ t.dec.cur = (pushedAndFlushed cfg pixels).enc.prev

/-- R140: the two caches agree after any pixel sequence except, at most, in the seed's slot: there the encoder may still hold
the zero colour and the decoder the seed, and only if the first pixel was the seed. -/
def Obligations.CachesAgreeButForTheSeedSlot : Prop :=
  ∀ (cfg : Config) (pixels : List Color), cfg.Legal → cfg.SeedApart →
    ∃ k t, fetchTimes k { freshEngine cfg with source := (pushedAndFlushed cfg pixels).sink } = some (t, pixels)
      ∧ t.source = []
      ∧ (∀ i : Slot, i ≠ hashOf cfg.hashW Color.seed →
          (pushedAndFlushed cfg pixels).enc.cache.lookup i = t.dec.cache.lookup i)
      ∧ ((pushedAndFlushed cfg pixels).enc.cache.lookup (hashOf cfg.hashW Color.seed) =
            t.dec.cache.lookup (hashOf cfg.hashW Color.seed)
        ∨ ((pushedAndFlushed cfg pixels).enc.cache.lookup (hashOf cfg.hashW Color.seed) = Color.zero
          ∧ t.dec.cache.lookup (hashOf cfg.hashW Color.seed) = Color.seed ∧ pixels.head? = some Color.seed))

/-! ### The whole machine -/

/-- R20: no register of E, and not the sink, is written by a command of D, and conversely; a register read writes neither. -/
def Obligations.UnitsWriteOnlyTheirOwn : Prop :=
  ∀ (s t : State) (c : Command) (cmds : List Command), s.commands = c :: cmds → step s = .next t →
    t.cfg = s.cfg ∧ t.commands = cmds
    ∧ (c.isEnc = false → t.enc = s.enc ∧ t.sink = s.sink)
    ∧ (c.isDec = false → t.dec = s.dec ∧ t.source = s.source ∧ t.pixOut = s.pixOut ∧ t.decResult = s.decResult)

/-- R65, R20: a command of one unit reads nothing of the other's: what it does to its own unit's registers and streams is the
same whatever the other unit holds. -/
def Obligations.UnitsReadOnlyTheirOwn : Prop :=
  ∀ (s1 s2 t1 t2 : State) (c : Command) (cmds1 cmds2 : List Command), s1.cfg = s2.cfg →
    step { s1 with commands := c :: cmds1 } = .next t1 → step { s2 with commands := c :: cmds2 } = .next t2 →
    (c.isEnc = true → s1.enc = s2.enc → s1.sink = s2.sink → t1.enc = t2.enc ∧ t1.sink = t2.sink)
    ∧ (c.isDec = true → s1.dec = s2.dec → s1.source = s2.source → s1.pixOut = s2.pixOut →
        s1.decResult = s2.decResult →
        t1.dec = t2.dec ∧ t1.source = t2.source ∧ t1.pixOut = t2.pixOut ∧ t1.decResult = t2.decResult)

/-- R51, R292, R250, R313: the engine has no step for a command exactly when its operands are outside their sets; every other
command completes, from every state. The model's choice (log entry 5): with no command pending a step changes nothing. -/
def Obligations.EveryLegalCommandCompletes : Prop :=
  ∀ (s : State) (c : Command) (cmds : List Command),
    (c.legal s.cfg = true → ∃ t, step { s with commands := c :: cmds } = .next t)
    ∧ (c.legal s.cfg = false → step { s with commands := c :: cmds } = .refused .operandOutsideSet)
    ∧ step { s with commands := [] } = .next { s with commands := [] }

/-- R53, R54, R62: a step only appends to the sink and only takes bytes from the front of the source. -/
def Obligations.StreamsMoveForward : Prop :=
  ∀ s t : State, step s = .next t →
    (∃ out, t.sink = s.sink ++ out) ∧ (∃ taken, s.source = taken ++ t.source)

/-- R27, R246: D.POS counts exactly the bytes taken since the last DEC_RESET, as long as the count fits 64 bits: it starts at 0
after DEC_RESET, DEC_IMAGE's count starts again at its own reset, and every other command adds what it takes. -/
def Obligations.PositionCountsTheBytesTaken : Prop :=
  ∀ (s t : State) (c : Command) (cmds : List Command), s.commands = c :: cmds → step s = .next t →
    (c = .decReset → t.dec.pos = 0 ∧ t.source = s.source)
    ∧ (c = .decImage → s.dec.err = none → ∃ taken, s.source = taken ++ t.source
        ∧ (taken.length < 2 ^ 64 → t.dec.pos = BitVec.ofNat 64 taken.length))
    ∧ (c ≠ .decReset → (c = .decImage → s.dec.err ≠ none) → ∃ taken, s.source = taken ++ t.source
        ∧ (s.dec.pos.toNat + taken.length < 2 ^ 64 → t.dec.pos = s.dec.pos + BitVec.ofNat 64 taken.length))

/-- R248, R249, R242: the buffer wrappers: a buffer shorter than MIN_CONTAINER_BYTES is InvalidData and no container; decoding
what encode gave returns the image; a container that decodes is valid. -/
def Obligations.BufferWrappers : Prop :=
  ∀ cfg : Config, cfg.Legal → cfg.SeedApart →
    (∀ bs : List Byte, bs.length < cfg.minContainerBytes →
      decodeBuffer cfg bs = .error .invalidData ∧ isValidContainer cfg bs = false)
    ∧ (∀ (w h ch cs : Nat) (pixels : List Color) (bs : List Byte), cfg.minContainerBytes ≤ 22 →
        w * h ≤ cfg.maxPixels → encodeBuffer cfg w h ch cs pixels = some bs →
        decodeBuffer cfg bs =
          .ok ⟨BitVec.ofNat 32 w, BitVec.ofNat 32 h, BitVec.ofNat 8 ch, BitVec.ofNat 8 cs, pixels⟩)
    ∧ (∀ (bs : List Byte) (im : Image), decodeBuffer cfg bs = .ok im → isValidContainer cfg bs = true)
end

