-- ==== Sys2Proof/Laws/State.lean ====
section
/-! SUPPORT. What each named update leaves in each field: one lemma per field per update, so that no proof unfolds a record
update. -/

namespace Sys2Proof.Machine

open Sys2Proof

section emitFields

@[simp] theorem emit_cfg (bs : List Byte) (s : State) : (emit bs s).cfg = s.cfg := rfl
@[simp] theorem emit_enc (bs : List Byte) (s : State) : (emit bs s).enc = s.enc := rfl
@[simp] theorem emit_dec (bs : List Byte) (s : State) : (emit bs s).dec = s.dec := rfl
@[simp] theorem emit_sink (bs : List Byte) (s : State) : (emit bs s).sink = s.sink ++ bs := rfl
@[simp] theorem emit_source (bs : List Byte) (s : State) : (emit bs s).source = s.source := rfl
@[simp] theorem emit_pixOut (bs : List Byte) (s : State) : (emit bs s).pixOut = s.pixOut := rfl
@[simp] theorem emit_commands (bs : List Byte) (s : State) : (emit bs s).commands = s.commands := rfl
@[simp] theorem emit_decResult (bs : List Byte) (s : State) : (emit bs s).decResult = s.decResult := rfl
@[simp] theorem emit_dbgValue (bs : List Byte) (s : State) : (emit bs s).dbgValue = s.dbgValue := rfl

end emitFields

section emitInstrFields

@[simp] theorem emitInstr_cfg (i : Instr) (s : State) : (emitInstr i s).cfg = s.cfg := rfl
@[simp] theorem emitInstr_enc (i : Instr) (s : State) : (emitInstr i s).enc = s.enc := rfl
@[simp] theorem emitInstr_dec (i : Instr) (s : State) : (emitInstr i s).dec = s.dec := rfl
@[simp] theorem emitInstr_sink (i : Instr) (s : State) : (emitInstr i s).sink = s.sink ++ encode s.cfg i := rfl
@[simp] theorem emitInstr_source (i : Instr) (s : State) : (emitInstr i s).source = s.source := rfl
@[simp] theorem emitInstr_pixOut (i : Instr) (s : State) : (emitInstr i s).pixOut = s.pixOut := rfl
@[simp] theorem emitInstr_commands (i : Instr) (s : State) : (emitInstr i s).commands = s.commands := rfl
@[simp] theorem emitInstr_decResult (i : Instr) (s : State) : (emitInstr i s).decResult = s.decResult := rfl
@[simp] theorem emitInstr_dbgValue (i : Instr) (s : State) : (emitInstr i s).dbgValue = s.dbgValue := rfl

end emitInstrFields

section takeBytesFields

@[simp] theorem takeBytes_cfg (n : Nat) (s : State) : (takeBytes n s).cfg = s.cfg := rfl
@[simp] theorem takeBytes_enc (n : Nat) (s : State) : (takeBytes n s).enc = s.enc := rfl
@[simp] theorem takeBytes_dec_cache (n : Nat) (s : State) : (takeBytes n s).dec.cache = s.dec.cache := rfl
@[simp] theorem takeBytes_dec_cur (n : Nat) (s : State) : (takeBytes n s).dec.cur = s.dec.cur := rfl
@[simp] theorem takeBytes_dec_pos (n : Nat) (s : State) : (takeBytes n s).dec.pos = advancePos s.dec.pos n := rfl
@[simp] theorem takeBytes_dec_width (n : Nat) (s : State) : (takeBytes n s).dec.width = s.dec.width := rfl
@[simp] theorem takeBytes_dec_height (n : Nat) (s : State) : (takeBytes n s).dec.height = s.dec.height := rfl
@[simp] theorem takeBytes_dec_channels (n : Nat) (s : State) : (takeBytes n s).dec.channels = s.dec.channels := rfl
@[simp] theorem takeBytes_dec_colorspace (n : Nat) (s : State) : (takeBytes n s).dec.colorspace = s.dec.colorspace := rfl
@[simp] theorem takeBytes_dec_hdrValid (n : Nat) (s : State) : (takeBytes n s).dec.hdrValid = s.dec.hdrValid := rfl
@[simp] theorem takeBytes_dec_npix (n : Nat) (s : State) : (takeBytes n s).dec.npix = s.dec.npix := rfl
@[simp] theorem takeBytes_dec_idx (n : Nat) (s : State) : (takeBytes n s).dec.idx = s.dec.idx := rfl
@[simp] theorem takeBytes_dec_err (n : Nat) (s : State) : (takeBytes n s).dec.err = s.dec.err := rfl
@[simp] theorem takeBytes_sink (n : Nat) (s : State) : (takeBytes n s).sink = s.sink := rfl
@[simp] theorem takeBytes_source (n : Nat) (s : State) : (takeBytes n s).source = s.source.drop n := rfl
@[simp] theorem takeBytes_pixOut (n : Nat) (s : State) : (takeBytes n s).pixOut = s.pixOut := rfl
@[simp] theorem takeBytes_commands (n : Nat) (s : State) : (takeBytes n s).commands = s.commands := rfl
@[simp] theorem takeBytes_decResult (n : Nat) (s : State) : (takeBytes n s).decResult = s.decResult := rfl
@[simp] theorem takeBytes_dbgValue (n : Nat) (s : State) : (takeBytes n s).dbgValue = s.dbgValue := rfl

end takeBytesFields

section raiseFields

@[simp] theorem raise_cfg (k : ErrKind) (s : State) : (raise k s).cfg = s.cfg := rfl
@[simp] theorem raise_enc (k : ErrKind) (s : State) : (raise k s).enc = s.enc := rfl
@[simp] theorem raise_dec_cache (k : ErrKind) (s : State) : (raise k s).dec.cache = s.dec.cache := rfl
@[simp] theorem raise_dec_cur (k : ErrKind) (s : State) : (raise k s).dec.cur = s.dec.cur := rfl
@[simp] theorem raise_dec_pos (k : ErrKind) (s : State) : (raise k s).dec.pos = s.dec.pos := rfl
@[simp] theorem raise_dec_width (k : ErrKind) (s : State) : (raise k s).dec.width = s.dec.width := rfl
@[simp] theorem raise_dec_height (k : ErrKind) (s : State) : (raise k s).dec.height = s.dec.height := rfl
@[simp] theorem raise_dec_channels (k : ErrKind) (s : State) : (raise k s).dec.channels = s.dec.channels := rfl
@[simp] theorem raise_dec_colorspace (k : ErrKind) (s : State) : (raise k s).dec.colorspace = s.dec.colorspace := rfl
@[simp] theorem raise_dec_hdrValid (k : ErrKind) (s : State) : (raise k s).dec.hdrValid = s.dec.hdrValid := rfl
@[simp] theorem raise_dec_npix (k : ErrKind) (s : State) : (raise k s).dec.npix = s.dec.npix := rfl
@[simp] theorem raise_dec_idx (k : ErrKind) (s : State) : (raise k s).dec.idx = s.dec.idx := rfl
@[simp] theorem raise_dec_err (k : ErrKind) (s : State) : (raise k s).dec.err = some k := rfl
@[simp] theorem raise_sink (k : ErrKind) (s : State) : (raise k s).sink = s.sink := rfl
@[simp] theorem raise_source (k : ErrKind) (s : State) : (raise k s).source = s.source := rfl
@[simp] theorem raise_pixOut (k : ErrKind) (s : State) : (raise k s).pixOut = s.pixOut := rfl
@[simp] theorem raise_commands (k : ErrKind) (s : State) : (raise k s).commands = s.commands := rfl
@[simp] theorem raise_decResult (k : ErrKind) (s : State) : (raise k s).decResult = some (.error k) := rfl
@[simp] theorem raise_dbgValue (k : ErrKind) (s : State) : (raise k s).dbgValue = s.dbgValue := rfl

end raiseFields

section decResetFields

@[simp] theorem decReset_cfg (s : State) : (decReset s).cfg = s.cfg := rfl
@[simp] theorem decReset_enc (s : State) : (decReset s).enc = s.enc := rfl
@[simp] theorem decReset_dec (s : State) : (decReset s).dec = Decoder.reset := rfl
@[simp] theorem decReset_sink (s : State) : (decReset s).sink = s.sink := rfl
@[simp] theorem decReset_source (s : State) : (decReset s).source = s.source := rfl
@[simp] theorem decReset_pixOut (s : State) : (decReset s).pixOut = s.pixOut := rfl
@[simp] theorem decReset_commands (s : State) : (decReset s).commands = s.commands := rfl
@[simp] theorem decReset_decResult (s : State) : (decReset s).decResult = none := rfl
@[simp] theorem decReset_dbgValue (s : State) : (decReset s).dbgValue = s.dbgValue := rfl

end decResetFields

section encResetFields

@[simp] theorem encReset_cfg (s : State) : (encReset s).cfg = s.cfg := rfl
@[simp] theorem encReset_enc (s : State) : (encReset s).enc = Encoder.reset := rfl
@[simp] theorem encReset_dec (s : State) : (encReset s).dec = s.dec := rfl
@[simp] theorem encReset_sink (s : State) : (encReset s).sink = s.sink := rfl
@[simp] theorem encReset_source (s : State) : (encReset s).source = s.source := rfl
@[simp] theorem encReset_pixOut (s : State) : (encReset s).pixOut = s.pixOut := rfl
@[simp] theorem encReset_commands (s : State) : (encReset s).commands = s.commands := rfl
@[simp] theorem encReset_decResult (s : State) : (encReset s).decResult = s.decResult := rfl
@[simp] theorem encReset_dbgValue (s : State) : (encReset s).dbgValue = s.dbgValue := rfl

end encResetFields

section produceFields

@[simp] theorem produce_cfg (c : Color) (n : Nat) (s : State) : (produce c n s).cfg = s.cfg := rfl
@[simp] theorem produce_enc (c : Color) (n : Nat) (s : State) : (produce c n s).enc = s.enc := rfl
@[simp] theorem produce_dec_cache (c : Color) (n : Nat) (s : State) : (produce c n s).dec.cache = s.dec.cache.store (hashOf s.cfg.hashW c) c := rfl
@[simp] theorem produce_dec_cur (c : Color) (n : Nat) (s : State) : (produce c n s).dec.cur = c := rfl
@[simp] theorem produce_dec_pos (c : Color) (n : Nat) (s : State) : (produce c n s).dec.pos = s.dec.pos := rfl
@[simp] theorem produce_dec_width (c : Color) (n : Nat) (s : State) : (produce c n s).dec.width = s.dec.width := rfl
@[simp] theorem produce_dec_height (c : Color) (n : Nat) (s : State) : (produce c n s).dec.height = s.dec.height := rfl
@[simp] theorem produce_dec_channels (c : Color) (n : Nat) (s : State) : (produce c n s).dec.channels = s.dec.channels := rfl
@[simp] theorem produce_dec_colorspace (c : Color) (n : Nat) (s : State) : (produce c n s).dec.colorspace = s.dec.colorspace := rfl
@[simp] theorem produce_dec_hdrValid (c : Color) (n : Nat) (s : State) : (produce c n s).dec.hdrValid = s.dec.hdrValid := rfl
@[simp] theorem produce_dec_npix (c : Color) (n : Nat) (s : State) : (produce c n s).dec.npix = s.dec.npix := rfl
@[simp] theorem produce_dec_idx (c : Color) (n : Nat) (s : State) : (produce c n s).dec.idx = s.dec.idx := rfl
@[simp] theorem produce_dec_err (c : Color) (n : Nat) (s : State) : (produce c n s).dec.err = s.dec.err := rfl
@[simp] theorem produce_sink (c : Color) (n : Nat) (s : State) : (produce c n s).sink = s.sink := rfl
@[simp] theorem produce_source (c : Color) (n : Nat) (s : State) : (produce c n s).source = s.source := rfl
@[simp] theorem produce_pixOut (c : Color) (n : Nat) (s : State) : (produce c n s).pixOut = s.pixOut := rfl
@[simp] theorem produce_commands (c : Color) (n : Nat) (s : State) : (produce c n s).commands = s.commands := rfl
@[simp] theorem produce_decResult (c : Color) (n : Nat) (s : State) : (produce c n s).decResult = some (.run c n) := rfl
@[simp] theorem produce_dbgValue (c : Color) (n : Nat) (s : State) : (produce c n s).dbgValue = s.dbgValue := rfl

end produceFields

section acceptHeaderFields

@[simp] theorem acceptHeader_cfg (w h : BitVec 32) (ch cs : Byte) (s : State) : (acceptHeader w h ch cs s).cfg = s.cfg := rfl
@[simp] theorem acceptHeader_enc (w h : BitVec 32) (ch cs : Byte) (s : State) : (acceptHeader w h ch cs s).enc = s.enc := rfl
@[simp] theorem acceptHeader_dec_cache (w h : BitVec 32) (ch cs : Byte) (s : State) : (acceptHeader w h ch cs s).dec.cache = s.dec.cache := rfl
@[simp] theorem acceptHeader_dec_cur (w h : BitVec 32) (ch cs : Byte) (s : State) : (acceptHeader w h ch cs s).dec.cur = s.dec.cur := rfl
@[simp] theorem acceptHeader_dec_pos (w h : BitVec 32) (ch cs : Byte) (s : State) : (acceptHeader w h ch cs s).dec.pos = s.dec.pos := rfl
@[simp] theorem acceptHeader_dec_width (w h : BitVec 32) (ch cs : Byte) (s : State) : (acceptHeader w h ch cs s).dec.width = w := rfl
@[simp] theorem acceptHeader_dec_height (w h : BitVec 32) (ch cs : Byte) (s : State) : (acceptHeader w h ch cs s).dec.height = h := rfl
@[simp] theorem acceptHeader_dec_channels (w h : BitVec 32) (ch cs : Byte) (s : State) : (acceptHeader w h ch cs s).dec.channels = ch := rfl
@[simp] theorem acceptHeader_dec_colorspace (w h : BitVec 32) (ch cs : Byte) (s : State) : (acceptHeader w h ch cs s).dec.colorspace = cs := rfl
@[simp] theorem acceptHeader_dec_hdrValid (w h : BitVec 32) (ch cs : Byte) (s : State) : (acceptHeader w h ch cs s).dec.hdrValid = true := rfl
@[simp] theorem acceptHeader_dec_npix (w h : BitVec 32) (ch cs : Byte) (s : State) : (acceptHeader w h ch cs s).dec.npix = s.dec.npix := rfl
@[simp] theorem acceptHeader_dec_idx (w h : BitVec 32) (ch cs : Byte) (s : State) : (acceptHeader w h ch cs s).dec.idx = s.dec.idx := rfl
@[simp] theorem acceptHeader_dec_err (w h : BitVec 32) (ch cs : Byte) (s : State) : (acceptHeader w h ch cs s).dec.err = s.dec.err := rfl
@[simp] theorem acceptHeader_sink (w h : BitVec 32) (ch cs : Byte) (s : State) : (acceptHeader w h ch cs s).sink = s.sink := rfl
@[simp] theorem acceptHeader_source (w h : BitVec 32) (ch cs : Byte) (s : State) : (acceptHeader w h ch cs s).source = s.source := rfl
@[simp] theorem acceptHeader_pixOut (w h : BitVec 32) (ch cs : Byte) (s : State) : (acceptHeader w h ch cs s).pixOut = s.pixOut := rfl
@[simp] theorem acceptHeader_commands (w h : BitVec 32) (ch cs : Byte) (s : State) : (acceptHeader w h ch cs s).commands = s.commands := rfl
@[simp] theorem acceptHeader_decResult (w h : BitVec 32) (ch cs : Byte) (s : State) : (acceptHeader w h ch cs s).decResult = some (.header w h ch cs) := rfl
@[simp] theorem acceptHeader_dbgValue (w h : BitVec 32) (ch cs : Byte) (s : State) : (acceptHeader w h ch cs s).dbgValue = s.dbgValue := rfl

end acceptHeaderFields

section deliverFields

@[simp] theorem deliver_cfg (c : Color) (n : Nat) (s : State) : (deliver c n s).cfg = s.cfg := rfl
@[simp] theorem deliver_enc (c : Color) (n : Nat) (s : State) : (deliver c n s).enc = s.enc := rfl
@[simp] theorem deliver_dec_cache (c : Color) (n : Nat) (s : State) : (deliver c n s).dec.cache = s.dec.cache := rfl
@[simp] theorem deliver_dec_cur (c : Color) (n : Nat) (s : State) : (deliver c n s).dec.cur = s.dec.cur := rfl
@[simp] theorem deliver_dec_pos (c : Color) (n : Nat) (s : State) : (deliver c n s).dec.pos = s.dec.pos := rfl
@[simp] theorem deliver_dec_width (c : Color) (n : Nat) (s : State) : (deliver c n s).dec.width = s.dec.width := rfl
@[simp] theorem deliver_dec_height (c : Color) (n : Nat) (s : State) : (deliver c n s).dec.height = s.dec.height := rfl
@[simp] theorem deliver_dec_channels (c : Color) (n : Nat) (s : State) : (deliver c n s).dec.channels = s.dec.channels := rfl
@[simp] theorem deliver_dec_colorspace (c : Color) (n : Nat) (s : State) : (deliver c n s).dec.colorspace = s.dec.colorspace := rfl
@[simp] theorem deliver_dec_hdrValid (c : Color) (n : Nat) (s : State) : (deliver c n s).dec.hdrValid = s.dec.hdrValid := rfl
@[simp] theorem deliver_dec_npix (c : Color) (n : Nat) (s : State) : (deliver c n s).dec.npix = s.dec.npix := rfl
@[simp] theorem deliver_dec_idx (c : Color) (n : Nat) (s : State) : (deliver c n s).dec.idx = s.dec.idx + BitVec.ofNat 64 n := rfl
@[simp] theorem deliver_dec_err (c : Color) (n : Nat) (s : State) : (deliver c n s).dec.err = s.dec.err := rfl
@[simp] theorem deliver_sink (c : Color) (n : Nat) (s : State) : (deliver c n s).sink = s.sink := rfl
@[simp] theorem deliver_source (c : Color) (n : Nat) (s : State) : (deliver c n s).source = s.source := rfl
@[simp] theorem deliver_pixOut (c : Color) (n : Nat) (s : State) : (deliver c n s).pixOut = s.pixOut ++ List.replicate n c := rfl
@[simp] theorem deliver_commands (c : Color) (n : Nat) (s : State) : (deliver c n s).commands = s.commands := rfl
@[simp] theorem deliver_decResult (c : Color) (n : Nat) (s : State) : (deliver c n s).decResult = s.decResult := rfl
@[simp] theorem deliver_dbgValue (c : Color) (n : Nat) (s : State) : (deliver c n s).dbgValue = s.dbgValue := rfl

end deliverFields

section setPixelTotalFields

@[simp] theorem setPixelTotal_cfg (s : State) : (setPixelTotal s).cfg = s.cfg := rfl
@[simp] theorem setPixelTotal_enc (s : State) : (setPixelTotal s).enc = s.enc := rfl
@[simp] theorem setPixelTotal_dec_cache (s : State) : (setPixelTotal s).dec.cache = s.dec.cache := rfl
@[simp] theorem setPixelTotal_dec_cur (s : State) : (setPixelTotal s).dec.cur = s.dec.cur := rfl
@[simp] theorem setPixelTotal_dec_pos (s : State) : (setPixelTotal s).dec.pos = s.dec.pos := rfl
@[simp] theorem setPixelTotal_dec_width (s : State) : (setPixelTotal s).dec.width = s.dec.width := rfl
@[simp] theorem setPixelTotal_dec_height (s : State) : (setPixelTotal s).dec.height = s.dec.height := rfl
@[simp] theorem setPixelTotal_dec_channels (s : State) : (setPixelTotal s).dec.channels = s.dec.channels := rfl
@[simp] theorem setPixelTotal_dec_colorspace (s : State) : (setPixelTotal s).dec.colorspace = s.dec.colorspace := rfl
@[simp] theorem setPixelTotal_dec_hdrValid (s : State) : (setPixelTotal s).dec.hdrValid = s.dec.hdrValid := rfl
@[simp] theorem setPixelTotal_dec_npix (s : State) : (setPixelTotal s).dec.npix = s.dec.width.zeroExtend 64 * s.dec.height.zeroExtend 64 := rfl
@[simp] theorem setPixelTotal_dec_idx (s : State) : (setPixelTotal s).dec.idx = s.dec.idx := rfl
@[simp] theorem setPixelTotal_dec_err (s : State) : (setPixelTotal s).dec.err = s.dec.err := rfl
@[simp] theorem setPixelTotal_sink (s : State) : (setPixelTotal s).sink = s.sink := rfl
@[simp] theorem setPixelTotal_source (s : State) : (setPixelTotal s).source = s.source := rfl
@[simp] theorem setPixelTotal_pixOut (s : State) : (setPixelTotal s).pixOut = s.pixOut := rfl
@[simp] theorem setPixelTotal_commands (s : State) : (setPixelTotal s).commands = s.commands := rfl
@[simp] theorem setPixelTotal_decResult (s : State) : (setPixelTotal s).decResult = s.decResult := rfl
@[simp] theorem setPixelTotal_dbgValue (s : State) : (setPixelTotal s).dbgValue = s.dbgValue := rfl

end setPixelTotalFields

section readRegFields

@[simp] theorem readReg_cfg (r : Reg) (s : State) : (readReg r s).cfg = s.cfg := rfl
@[simp] theorem readReg_enc (r : Reg) (s : State) : (readReg r s).enc = s.enc := rfl
@[simp] theorem readReg_dec (r : Reg) (s : State) : (readReg r s).dec = s.dec := rfl
@[simp] theorem readReg_sink (r : Reg) (s : State) : (readReg r s).sink = s.sink := rfl
@[simp] theorem readReg_source (r : Reg) (s : State) : (readReg r s).source = s.source := rfl
@[simp] theorem readReg_pixOut (r : Reg) (s : State) : (readReg r s).pixOut = s.pixOut := rfl
@[simp] theorem readReg_commands (r : Reg) (s : State) : (readReg r s).commands = s.commands := rfl
@[simp] theorem readReg_decResult (r : Reg) (s : State) : (readReg r s).decResult = s.decResult := rfl
@[simp] theorem readReg_dbgValue (r : Reg) (s : State) : (readReg r s).dbgValue = some (regValue s r) := rfl

end readRegFields

end Sys2Proof.Machine
end

