-- ==== Sys2Proof/Laws/Wire.lean ====
section
/-! SUPPORT. The wire: fields, classification, and one spec lemma for each shape the decoder reads. -/

namespace Sys2Proof

/-! ### Biased fields -/

theorem unbias_bias {n : Nat} {x : Biased} {d : Int} (hx : x.Fills n) (hd : x.Holds d) :
    unbiasField x (biasField n x d) = d := by
  obtain ⟨hlo, hhi⟩ := hx
  obtain ⟨h1, h2⟩ := hd
  have hpow : ((2 ^ n : Nat) : Int) = 2 ^ n := by push_cast; rfl
  have hmod : (d + x.bias) % ((2 ^ n : Nat) : Int) = d + x.bias := by
    apply Int.emod_eq_of_lt <;> omega
  simp only [unbiasField, biasField, BitVec.toNat_ofInt, hmod]
  omega

theorem bias_unbias {n : Nat} (x : Biased) (f : BitVec n) : biasField n x (unbiasField x f) = f := by
  apply BitVec.eq_of_toNat_eq
  have h : ((f.toNat : Int) - x.bias + x.bias) % ((2 ^ n : Nat) : Int) = f.toNat := by
    rw [Int.sub_add_cancel]
    exact Int.emod_eq_of_lt (by omega) (by exact_mod_cast f.isLt)
  simp only [biasField, unbiasField, BitVec.toNat_ofInt, h, Int.toNat_natCast]

theorem unbias_holds {n : Nat} {x : Biased} (hx : x.Fills n) (f : BitVec n) : x.Holds (unbiasField x f) := by
  obtain ⟨hlo, hhi⟩ := hx
  have hf : (f.toNat : Int) < 2 ^ n := by exact_mod_cast f.isLt
  constructor <;> simp only [unbiasField] <;> omega

/-- A biased value in its range, as a number below 2^n. -/
theorem biasField_toNat {n : Nat} {x : Biased} {d : Int} (hx : x.Fills n) (hd : x.Holds d) :
    ((biasField n x d).toNat : Int) = d + x.bias := by
  have h := unbias_bias hx hd
  simp only [unbiasField] at h
  omega

/-! ### Bits of a first byte -/

theorem top_index (i : BitVec 6) : (0b00#2 ++ i : Byte).extractLsb' 6 2 = 0b00#2 := by revert i; decide
theorem low_index (i : BitVec 6) : (0b00#2 ++ i : Byte).extractLsb' 0 6 = i := by revert i; decide
theorem top_luma (i : BitVec 6) : (0b10#2 ++ i : Byte).extractLsb' 6 2 = 0b10#2 := by revert i; decide
theorem low_luma (i : BitVec 6) : (0b10#2 ++ i : Byte).extractLsb' 0 6 = i := by revert i; decide
theorem top_run (i : BitVec 6) : (0b11#2 ++ i : Byte).extractLsb' 6 2 = 0b11#2 := by revert i; decide
theorem low_run (i : BitVec 6) : (0b11#2 ++ i : Byte).extractLsb' 0 6 = i := by revert i; decide
theorem top_diff (a b c : BitVec 2) : (0b01#2 ++ a ++ b ++ c : Byte).extractLsb' 6 2 = 0b01#2 := by
  revert a b c; decide
theorem red_diff (a b c : BitVec 2) : (0b01#2 ++ a ++ b ++ c : Byte).extractLsb' 4 2 = a := by revert a b c; decide
theorem green_diff (a b c : BitVec 2) : (0b01#2 ++ a ++ b ++ c : Byte).extractLsb' 2 2 = b := by revert a b c; decide
theorem blue_diff (a b c : BitVec 2) : (0b01#2 ++ a ++ b ++ c : Byte).extractLsb' 0 2 = c := by revert a b c; decide
theorem high_nibble (a b : BitVec 4) : (a ++ b : Byte).extractLsb' 4 4 = a := by revert a b; decide
theorem low_nibble (a b : BitVec 4) : (a ++ b : Byte).extractLsb' 0 4 = b := by revert a b; decide
theorem byte_of_nibbles (b : Byte) : (b.extractLsb' 4 4 ++ b.extractLsb' 0 4 : Byte) = b := by revert b; decide
theorem byte_of_index (b : Byte) (h : b.extractLsb' 6 2 = 0b00#2) : (0b00#2 ++ b.extractLsb' 0 6 : Byte) = b := by
  revert b; decide
theorem byte_of_luma (b : Byte) (h : b.extractLsb' 6 2 = 0b10#2) : (0b10#2 ++ b.extractLsb' 0 6 : Byte) = b := by
  revert b; decide
theorem byte_of_diff (b : Byte) (h : b.extractLsb' 6 2 = 0b01#2) :
    (0b01#2 ++ b.extractLsb' 4 2 ++ b.extractLsb' 2 2 ++ b.extractLsb' 0 2 : Byte) = b := by revert b; decide
theorem byte_of_run (b : Byte) (h0 : b.extractLsb' 6 2 ≠ 0b00#2) (h1 : b.extractLsb' 6 2 ≠ 0b01#2)
    (h2 : b.extractLsb' 6 2 ≠ 0b10#2) : (0b11#2 ++ b.extractLsb' 0 6 : Byte) = b := by revert b; decide

@[simp] theorem redNibble_pack (o : Bool) (fr fb : BitVec 4) : redNibble o (packNibbles o fr fb) = fr := by
  cases o <;> simp [redNibble, packNibbles, high_nibble, low_nibble]

@[simp] theorem blueNibble_pack (o : Bool) (fr fb : BitVec 4) : blueNibble o (packNibbles o fr fb) = fb := by
  cases o <;> simp [blueNibble, packNibbles, high_nibble, low_nibble]

@[simp] theorem pack_nibbles (o : Bool) (b : Byte) : packNibbles o (redNibble o b) (blueNibble o b) = b := by
  cases o <;> simp [redNibble, blueNibble, packNibbles, byte_of_nibbles]

/-! ### Classification -/

theorem classify_rgb (cfg : Config) : classify cfg cfg.tagRgb = .rgb := by simp [classify]

/-- The two tags are the bytes 0xFE and 0xFF in one order or the other. -/
theorem tags_of_legal {cfg : Config} (h : cfg.Legal) :
    (cfg.tagRgb = 0xFE ∧ cfg.tagRgba = 0xFF) ∨ (cfg.tagRgb = 0xFF ∧ cfg.tagRgba = 0xFE) := h.1

theorem classify_rgba {cfg : Config} (h : cfg.Legal) : classify cfg cfg.tagRgba = .rgba := by
  rcases tags_of_legal h with ⟨h1, h2⟩ | ⟨h1, h2⟩ <;> simp [classify, h1, h2]

/-- A byte that is neither 0xFE nor 0xFF is classified by its prefix alone. -/
theorem classify_prefixed {cfg : Config} (h : cfg.Legal) {b : Byte} (h1 : b ≠ 0xFE) (h2 : b ≠ 0xFF) :
    classify cfg b =
      if b.extractLsb' 6 2 = 0b00#2 then .index
      else if b.extractLsb' 6 2 = 0b01#2 then .diff
      else if b.extractLsb' 6 2 = 0b10#2 then .luma
      else .run := by
  rcases tags_of_legal h with ⟨e1, e2⟩ | ⟨e1, e2⟩
  · rw [classify, e1, e2, if_neg h1, if_neg h2]
  · rw [classify, e1, e2, if_neg h2, if_neg h1]

theorem classify_index {cfg : Config} (h : cfg.Legal) (i : BitVec 6) : classify cfg (0b00#2 ++ i) = .index := by
  rw [classify_prefixed h (by revert i; decide) (by revert i; decide), if_pos (top_index i)]

theorem classify_luma {cfg : Config} (h : cfg.Legal) (i : BitVec 6) : classify cfg (0b10#2 ++ i) = .luma := by
  rw [classify_prefixed h (by revert i; decide) (by revert i; decide), top_luma]; simp

theorem classify_diff {cfg : Config} (h : cfg.Legal) (a b c : BitVec 2) :
    classify cfg (0b01#2 ++ a ++ b ++ c) = .diff := by
  rw [classify_prefixed h (by revert a b c; decide) (by revert a b c; decide), top_diff]; simp

theorem classify_run {cfg : Config} (h : cfg.Legal) (i : BitVec 6) (hi : i.toNat ≤ 61) :
    classify cfg (0b11#2 ++ i) = .run := by
  have h1 : (0b11#2 ++ i : Byte) ≠ 0xFE := by revert i; decide
  have h2 : (0b11#2 ++ i : Byte) ≠ 0xFF := by revert i; decide
  rw [classify_prefixed h h1 h2, top_run]; simp

/-- What a first byte's class says of the byte. -/
theorem classify_cases {cfg : Config} (h : cfg.Legal) (b : Byte) :
    (classify cfg b = .rgb ∧ b = cfg.tagRgb) ∨ (classify cfg b = .rgba ∧ b = cfg.tagRgba)
    ∨ (classify cfg b = .index ∧ (0b00#2 ++ b.extractLsb' 0 6 : Byte) = b)
    ∨ (classify cfg b = .diff ∧ (0b01#2 ++ b.extractLsb' 4 2 ++ b.extractLsb' 2 2 ++ b.extractLsb' 0 2 : Byte) = b)
    ∨ (classify cfg b = .luma ∧ (0b10#2 ++ b.extractLsb' 0 6 : Byte) = b)
    ∨ (classify cfg b = .run ∧ (0b11#2 ++ b.extractLsb' 0 6 : Byte) = b ∧ (b.extractLsb' 0 6).toNat ≤ 61) := by
  by_cases h1 : b = cfg.tagRgb
  · exact .inl ⟨h1 ▸ classify_rgb cfg, h1⟩
  by_cases h2 : b = cfg.tagRgba
  · exact .inr (.inl ⟨h2 ▸ classify_rgba h, h2⟩)
  have hn : b ≠ 0xFE ∧ b ≠ 0xFF := by
    rcases tags_of_legal h with ⟨e1, e2⟩ | ⟨e1, e2⟩ <;> simp_all
  rw [classify_prefixed h hn.1 hn.2]
  by_cases p0 : b.extractLsb' 6 2 = 0b00#2
  · simp [p0, byte_of_index b p0]
  by_cases p1 : b.extractLsb' 6 2 = 0b01#2
  · simp [p1, byte_of_diff b p1]
  by_cases p2 : b.extractLsb' 6 2 = 0b10#2
  · simp [p2, byte_of_luma b p2]
  have hle : (b.extractLsb' 0 6).toNat ≤ 61 := by
    obtain ⟨n1, n2⟩ := hn
    clear h1 h2 h
    revert b; decide
  exact .inr (.inr (.inr (.inr (.inr ⟨by simp [p0, p1, p2], byte_of_run b p0 p1 p2, hle⟩))))

/-! ### Byte order -/

theorem unbe32_be32 (v : BitVec 32) :
    unbe32 (v.extractLsb' 24 8) (v.extractLsb' 16 8) (v.extractLsb' 8 8) (v.extractLsb' 0 8) = v := by
  apply BitVec.eq_of_getLsbD_eq
  intro i hi
  simp only [unbe32, BitVec.getLsbD_append, BitVec.getLsbD_extractLsb']
  split
  · simp_all
  · split
    · have : 8 + (i - 8) = i := by omega
      simp_all
    · split
      · have : 16 + (i - 8 - 8) = i := by omega
        simp_all
      · have : 24 + (i - 8 - 8 - 8) = i := by omega
        simp_all; omega

theorem be32_unbe32 (b0 b1 b2 b3 : Byte) : be32 (unbe32 b0 b1 b2 b3) = [b0, b1, b2, b3] := by
  simp only [be32, unbe32, List.cons.injEq, and_true]
  refine ⟨?_, ?_, ?_, ?_⟩ <;> apply BitVec.eq_of_getLsbD_eq <;> intro i hi <;>
    simp only [BitVec.getLsbD_extractLsb', BitVec.getLsbD_append, hi, decide_true, Bool.true_and]
  · rw [if_neg (by omega), if_neg (by omega), if_neg (by omega)]; congr 1; omega
  · rw [if_neg (by omega), if_neg (by omega), if_pos (by omega)]; congr 1; omega
  · rw [if_neg (by omega), if_pos (by omega)]; congr 1; omega
  · rw [if_pos (by omega)]; congr 1; omega

end Sys2Proof
end

