-- ==== Sys2Proof/Laws/Ops.lean ====
section
/-! SUPPORT. One lemma per shared operation, saying what it can do: the cache, the byte source, raising an error, the result of
executing an instruction. -/

namespace Sys2Proof.Machine

open Sys2Proof

/-! ### The cache -/

theorem lookup_store_same (m : Cache) (i : Slot) (c : Color) : (m.store i c).lookup i = c := by
  simp [Cache.lookup, Cache.store]

theorem lookup_store_other (m : Cache) {i j : Slot} (c : Color) (h : j ≠ i) :
    (m.store i c).lookup j = m.lookup j := by
  have hne : i.toNat ≠ j.toNat := fun e => h (BitVec.eq_of_toNat_eq e).symm
  simp [Cache.lookup, Cache.store, hne]

theorem lookup_reset (i : Slot) : Cache.reset.lookup i = Color.zero := by
  simp [Cache.lookup, Cache.reset]

/-- Two caches with the same content in every slot are the same. -/
theorem cache_ext {m n : Cache} (h : ∀ i : Slot, m.lookup i = n.lookup i) : m = n := by
  apply Vector.ext
  intro k hk
  have hi := h (BitVec.ofNatLT k hk)
  simpa only [Cache.lookup, BitVec.toNat_ofNatLT] using hi

/-- Storing what the slot already holds changes nothing (the idempotent store of R153). -/
theorem store_same {m : Cache} {i : Slot} {c : Color} (h : m.lookup i = c) : m.store i c = m := by
  apply cache_ext
  intro j
  by_cases hj : j = i
  · subst hj; rw [lookup_store_same, h]
  · rw [lookup_store_other m c hj]

theorem hashed_store {w : HashWeights} {m : Cache} (h : m.Hashed w) (c : Color) : (m.store (hashOf w c) c).Hashed w := by
  intro i
  by_cases hi : i = hashOf w c
  · subst hi; exact .inr (by rw [lookup_store_same])
  · rw [lookup_store_other m c hi]; exact h i

theorem hashed_reset (w : HashWeights) : Cache.reset.Hashed w := fun i => .inl (lookup_reset i)

/-! ### The byte source -/

theorem advancePos_of_lt {pos : BitVec 64} {n : Nat} (h : pos.toNat + n < 2 ^ 64) :
    advancePos pos n = pos + BitVec.ofNat 64 n := if_pos h

theorem advancePos_zero (pos : BitVec 64) : advancePos pos 0 = pos := by
  rw [advancePos_of_lt (by simpa using pos.isLt)]; simp

/-- Two reads in a row count like one, while the sum stays below 2^64. -/
theorem advancePos_twice {pos : BitVec 64} {m n : Nat} (h : pos.toNat + (m + n) < 2 ^ 64) :
    advancePos (advancePos pos m) n = pos + BitVec.ofNat 64 (m + n) := by
  have h1 : (pos + BitVec.ofNat 64 m).toNat = pos.toNat + m := by
    rw [BitVec.toNat_add, BitVec.toNat_ofNat]; omega
  rw [advancePos_of_lt (pos := pos) (by omega), advancePos_of_lt (by omega), BitVec.ofNat_add, BitVec.add_assoc]

/-- A read of bytes that are there. -/
theorem memRead_bytes {s : State} {bs tail : List Byte} (h : s.source = bs ++ tail) :
    memRead bs.length s = .bytes bs (takeBytes bs.length s) := by
  simp [memRead, h]

/-- A read of more bytes than there are. -/
theorem memRead_short {s : State} {n : Nat} (h : s.source.length < n) :
    memRead n s = .short (takeBytes s.source.length s) := by
  simp [memRead, Nat.not_le.mpr h]

theorem takeBytes_source_of_append {s : State} {bs tail : List Byte} (h : s.source = bs ++ tail) :
    (takeBytes bs.length s).source = tail := by simp [h]

/-! ### Executing an instruction -/

/-- The colour an opcode produces from the cache and the current colour (R192 to R197). A header and an end marker produce
none; the current colour stands there. -/
def opcodeColor (m : Cache) (cur : Color) : Instr → Color
  | .opRgb r g b => ⟨r, g, b, cur.a⟩
  | .opRgba r g b a => ⟨r, g, b, a⟩
  | .opIndex idx => m.lookup idx
  | .opDiff dr dg db => diffColor cur dr dg db
  | .opLuma dg drg dbg => lumaColor cur dg drg dbg
  | .opRun _ => cur
  | .hdr _ _ _ _ => cur
  | .endMarker => cur

/-- Executing an opcode is one `produce` of its colour and count. -/
theorem exec_opcode {i : Instr} (h : i.part = .opcode) (s : State) :
    exec i s = .next (produce (opcodeColor s.dec.cache s.dec.cur i) (pixelCount i) s) := by
  cases i <;> first | rfl | simp [Instr.part] at h

theorem exec_hdr (w h : BitVec 32) (ch cs : Byte) (s : State) :
    exec (.hdr w h ch cs) s =
      .next (if channelsRecognized ch && colorspaceRecognized s.cfg cs then acceptHeader w h ch cs s
             else raise .invalidTag s) := by
  show execHdr w h ch cs s = _
  unfold execHdr
  split <;> simp

/-- Every instruction runs, in every state. -/
theorem exec_completes (i : Instr) (s : State) : ∃ t, exec i s = .next t := by
  cases hp : i.part with
  | opcode => exact ⟨_, exec_opcode hp s⟩
  | header => cases i <;> simp [Instr.part] at hp; exact ⟨_, exec_hdr ..⟩
  | endMarker => cases i <;> simp [Instr.part] at hp; exact ⟨_, rfl⟩

end Sys2Proof.Machine
end

