-- ==== Sys2Proof/Laws/Encoder.lean ====
section
/-! SUPPORT. The encoder as two pure functions of its registers: what a push or a flush emits, as instructions, and the
registers it leaves. Each command of the encoder is then one equation. -/

namespace Sys2Proof.Machine

open Sys2Proof

/-- The pending run as instructions: none, or one OP_RUN (R231, R234). -/
def pendingInstrs (run : BitVec 6) : List Instr := if run = 0 then [] else [.opRun run.toNat]

/-- What a pixel that differs from the previous one is encoded as (R151). -/
def missOrHit (cfg : Config) (e : Encoder) (px : Color) : Instr :=
  if e.cache.lookup (hashOf cfg.hashW px) = px then .opIndex (hashOf cfg.hashW px) else chooseMiss cfg px e.prev

/-- The instructions one push emits, in order (R150, R161). -/
def pushInstrs (cfg : Config) (e : Encoder) (px : Color) : List Instr :=
  if px = e.prev then (if e.run + 1 = 62 then [.opRun 62] else [])
  else pendingInstrs e.run ++ [missOrHit cfg e px]

/-- The registers after a push (R162): a cache hit re-stores what the slot holds (R153). -/
def pushRegs (cfg : Config) (e : Encoder) (px : Color) : Encoder :=
  if px = e.prev then { e with run := if e.run + 1 = 62 then 0 else e.run + 1 }
  else { cache := e.cache.store (hashOf cfg.hashW px) px, prev := px, run := 0 }

/-- The bytes of a sequence of instructions. -/
def encodeAll (cfg : Config) (is : List Instr) : List Byte := is.flatMap (encode cfg)

@[simp] theorem encodeAll_nil (cfg : Config) : encodeAll cfg [] = [] := rfl

@[simp] theorem encodeAll_cons (cfg : Config) (i : Instr) (is : List Instr) :
    encodeAll cfg (i :: is) = encode cfg i ++ encodeAll cfg is := rfl

@[simp] theorem encodeAll_append (cfg : Config) (is js : List Instr) :
    encodeAll cfg (is ++ js) = encodeAll cfg is ++ encodeAll cfg js := by simp [encodeAll]

/-- The byte of a pending run, in the words of the wire (R92) and of R231. -/
theorem encode_pendingInstrs (cfg : Config) (run : BitVec 6) : encodeAll cfg (pendingInstrs run) = pendingRun run := by
  by_cases h : run = 0
  · simp [pendingInstrs, pendingRun, h]
  · have hb : ∀ x : BitVec 6, x ≠ 0 → (0b11#2 ++ BitVec.ofNat 6 (x.toNat - 1) : Byte) = 0xC0 ||| (x.zeroExtend 8 - 1) := by
      decide
    simp only [pendingInstrs, pendingRun, if_neg h, encodeAll_cons, encode, hb run h, encodeAll_nil, List.append_nil]

theorem flushRun_eq (s : State) :
    flushRun s = { s with
      enc := { s.enc with run := 0 }
      sink := s.sink ++ encodeAll s.cfg (pendingInstrs s.enc.run) } := by
  by_cases h : s.enc.run = 0
  · have he : ({ s.enc with run := 0 } : Encoder) = s.enc := by rw [← h]
    simp only [flushRun, if_pos h, pendingInstrs, encodeAll_nil, List.append_nil, he]
  · simp only [flushRun, if_neg h, pendingInstrs, encodeAll_cons, encodeAll_nil, List.append_nil, emitInstr, emit]

/-- RunStep on an equal pixel (R231, R232). -/
theorem runStep_same (s : State) :
    runStep true s = if s.enc.run + 1 = 62 then
        flushRun { s with enc := { s.enc with run := s.enc.run + 1 } }
      else { s with enc := { s.enc with run := s.enc.run + 1 } } := rfl

/-- ENC_PUSH in one equation. -/
theorem encPush_eq (px : Color) (s : State) :
    encPush px s = { s with
      enc := pushRegs s.cfg s.enc px
      sink := s.sink ++ encodeAll s.cfg (pushInstrs s.cfg s.enc px) } := by
  by_cases h : px = s.enc.prev
  · have hn : (62 : BitVec 6).toNat = 62 := by decide
    have h0 : (62 : BitVec 6) ≠ 0 := by decide
    by_cases hr : s.enc.run + 1 = 62
    · simp only [encPush, runStep_same, pushRegs, pushInstrs, flushRun_eq, pendingInstrs, hr, hn, if_neg h0, h, if_true]
    · simp only [encPush, runStep_same, if_neg hr, pushRegs, pushInstrs, encodeAll_nil, List.append_nil, h, if_true]
  · by_cases hh : s.enc.cache.lookup (hashOf s.cfg.hashW px) = px
    · simp only [encPush, runStep, if_neg h, Bool.false_eq_true, if_false, flushRun_eq, emitPixel, if_pos hh, pushRegs, pushInstrs, missOrHit,
        encodeAll_append, encodeAll_cons, encodeAll_nil, List.append_nil, emitInstr, emit, store_same hh, List.append_assoc]
    · simp only [encPush, runStep, if_neg h, Bool.false_eq_true, if_false, flushRun_eq, emitPixel, if_neg hh, pushRegs, pushInstrs, missOrHit,
        encodeAll_append, encodeAll_cons, encodeAll_nil, List.append_nil, emitInstr, emit, List.append_assoc]

/-- A pixel equal to the previous one that makes the run 62 long (R232). -/
theorem push_equal_full (cfg : Config) {e : Encoder} (h : e.run.toNat = 61) :
    pushRegs cfg e e.prev = { e with run := 0 } ∧ pushInstrs cfg e e.prev = [.opRun 62] := by
  have hr : e.run + 1 = 62 := by
    apply BitVec.eq_of_toNat_eq; rw [BitVec.toNat_add, h]; rfl
  simp only [pushRegs, pushInstrs, hr, if_true, and_self]

/-- A pixel equal to the previous one that only makes the run longer (R231). -/
theorem push_equal_grows (cfg : Config) {e : Encoder} (h : e.run.toNat < 61) :
    pushRegs cfg e e.prev = { e with run := e.run + 1 } ∧ pushInstrs cfg e e.prev = []
      ∧ (e.run + 1).toNat = e.run.toNat + 1 := by
  have hadd : (e.run + 1).toNat = e.run.toNat + 1 := by
    rw [BitVec.toNat_add, show (1 : BitVec 6).toNat = 1 from rfl]; omega
  have hr : ¬ e.run + 1 = 62 := fun x => by
    rw [x, show (62 : BitVec 6).toNat = 62 from rfl] at hadd; omega
  simp only [pushRegs, pushInstrs, if_neg hr, if_true, hadd, and_self]

/-- A pixel that differs from the previous one (R233, R160). -/
theorem push_differs (cfg : Config) {e : Encoder} {px : Color} (h : px ≠ e.prev) :
    pushRegs cfg e px = { cache := e.cache.store (hashOf cfg.hashW px) px, prev := px, run := 0 }
      ∧ pushInstrs cfg e px = pendingInstrs e.run ++ [missOrHit cfg e px] := by
  simp only [pushRegs, pushInstrs, if_neg h, and_self]

/-- The registers after a sequence of pushes. -/
def regsAfter (cfg : Config) : Encoder → List Color → Encoder
  | e, [] => e
  | e, px :: rest => regsAfter cfg (pushRegs cfg e px) rest

/-- The instructions a sequence of pushes emits. -/
def instrsOf (cfg : Config) : Encoder → List Color → List Instr
  | _, [] => []
  | e, px :: rest => pushInstrs cfg e px ++ instrsOf cfg (pushRegs cfg e px) rest

theorem encPushAll_eq (pixels : List Color) (s : State) :
    encPushAll pixels s = { s with
      enc := regsAfter s.cfg s.enc pixels
      sink := s.sink ++ encodeAll s.cfg (instrsOf s.cfg s.enc pixels) } := by
  induction pixels generalizing s with
  | nil => simp [encPushAll, regsAfter, instrsOf]
  | cons px rest ih =>
    have h := ih (encPush px s)
    simp only [encPushAll, List.foldl_cons] at h ⊢
    rw [h, encPush_eq]
    simp [regsAfter, instrsOf, List.append_assoc]

/-- The instructions of a whole image: its pixels, then the flush (R240). -/
def imageInstrs (cfg : Config) (e : Encoder) (pixels : List Color) : List Instr :=
  instrsOf cfg e pixels ++ pendingInstrs (regsAfter cfg e pixels).run

theorem flushed_eq (pixels : List Color) (s : State) :
    encFlush (encPushAll pixels s) = { s with
      enc := { regsAfter s.cfg s.enc pixels with run := 0 }
      sink := s.sink ++ encodeAll s.cfg (imageInstrs s.cfg s.enc pixels) } := by
  simp only [encFlush, flushRun_eq, encPushAll_eq, imageInstrs, encodeAll_append, List.append_assoc]

theorem encHeader_eq (w h ch cs : Nat) (s : State) :
    encHeader w h ch cs s = { s with
      sink := s.sink ++ headerBytes s.cfg (BitVec.ofNat 32 w) (BitVec.ofNat 32 h) (BitVec.ofNat 8 ch) (BitVec.ofNat 8 cs) } := by
  simp [encHeader, emitInstr, emit, encode, headerBytes]

theorem encEnd_eq (s : State) : encEnd s = .next { s with sink := s.sink ++ s.cfg.endMarker.toList } := rfl

/-- ENC_IMAGE in one equation (R240). -/
theorem encImage_eq (w h ch cs : Nat) (pixels : List Color) (s : State) :
    encImage w h ch cs pixels s = .next { s with
      enc := { regsAfter s.cfg Encoder.reset pixels with run := 0 }
      sink := s.sink ++ (headerBytes s.cfg (BitVec.ofNat 32 w) (BitVec.ofNat 32 h) (BitVec.ofNat 8 ch) (BitVec.ofNat 8 cs)
        ++ encodeAll s.cfg (imageInstrs s.cfg Encoder.reset pixels) ++ s.cfg.endMarker.toList) } := by
  simp only [encImage, encEnd_eq, flushed_eq, encHeader_eq, encReset, List.append_assoc]

end Sys2Proof.Machine
end

