-- ==== Sys2Proof/Laws/Fetch.lean ====
section
/-! SUPPORT. Taking an instruction from the source: the three ways fetching an opcode ends, and the two of a header. -/

namespace Sys2Proof.Machine

open Sys2Proof

/-- The first byte and exactly its operand bytes are an opcode, whatever follows them. -/
theorem decodeOpcode_exact {cfg : Config} {b0 : Byte} {ops : List Byte}
    (h : ops.length = (classify cfg b0).operandBytes) :
    ∃ i, (∀ rest, decodeOpcode cfg (b0 :: (ops ++ rest)) = .ok (i, rest))
      ∧ i.part = .opcode ∧ i.length = 1 + ops.length ∧ 1 ≤ pixelCount i
      ∧ (pixelCount i = 1 ∨ pixelCount i = (b0.extractLsb' 0 6).toNat + 1 ∧ classify cfg b0 = .run) := by
  cases hc : classify cfg b0 <;> simp only [hc, OpClass.operandBytes] at h
  · match ops, h with
    | [r, g, b], _ =>
      exact ⟨.opRgb r g b, fun rest => by simp [decodeOpcode, hc], rfl, rfl, Nat.le_refl 1, .inl rfl⟩
  · match ops, h with
    | [r, g, b, a], _ =>
      exact ⟨.opRgba r g b a, fun rest => by simp [decodeOpcode, hc], rfl, rfl, Nat.le_refl 1, .inl rfl⟩
  · match ops, h with
    | [], _ =>
      exact ⟨.opIndex (b0.extractLsb' 0 6), fun rest => by simp [decodeOpcode, hc], rfl, rfl, Nat.le_refl 1, .inl rfl⟩
  · match ops, h with
    | [], _ =>
      exact ⟨.opDiff (unbiasField cfg.diff (b0.extractLsb' 4 2)) (unbiasField cfg.diff (b0.extractLsb' 2 2))
          (unbiasField cfg.diff (b0.extractLsb' 0 2)),
        fun rest => by simp only [decodeOpcode, hc, List.nil_append], rfl, rfl, Nat.le_refl 1, .inl rfl⟩
  · match ops, h with
    | [b1], _ =>
      exact ⟨.opLuma (unbiasField cfg.lumaG (b0.extractLsb' 0 6))
          (unbiasField cfg.lumaRB (redNibble cfg.lumaRedHigh b1))
          (unbiasField cfg.lumaRB (blueNibble cfg.lumaRedHigh b1)),
        fun rest => by simp only [decodeOpcode, hc, List.cons_append, List.nil_append], rfl, rfl, Nat.le_refl 1, .inl rfl⟩
  · match ops, h with
    | [], _ =>
      exact ⟨.opRun ((b0.extractLsb' 0 6).toNat + 1), fun rest => by simp only [decodeOpcode, hc, List.nil_append], rfl, rfl,
        Nat.succ_le_succ (Nat.zero_le _), .inr ⟨rfl, rfl⟩⟩

/-- With nothing in the source, a fetch is a short read of no byte. -/
theorem fetchOpcode_empty {s : State} (h : s.source = []) :
    fetchOpcode s = .failed (raise .endOfStream (takeBytes 0 s)) := by
  simp [fetchOpcode, memRead, h]

/-- With operand bytes missing, the bytes that exist are taken and the read is short. -/
theorem fetchOpcode_cut {s : State} {b0 : Byte} {ops : List Byte} (h : s.source = b0 :: ops)
    (hlt : ops.length < (classify s.cfg b0).operandBytes) :
    fetchOpcode s = .failed (raise .endOfStream (takeBytes ops.length (takeBytes 1 s))) := by
  have h1 : memRead 1 s = .bytes [b0] (takeBytes 1 s) := memRead_bytes (bs := [b0]) (tail := ops) h
  have hs : (takeBytes 1 s).source = ops := by simp [h]
  have h2 : memRead (classify s.cfg b0).operandBytes (takeBytes 1 s) = .short (takeBytes ops.length (takeBytes 1 s)) := by
    rw [memRead_short (by rw [hs]; exact hlt), hs]
  simp only [fetchOpcode, h1, List.headD_cons, h2]

/-- A whole opcode at the head of the source is fetched, and exactly its bytes are taken. -/
theorem fetchOpcode_whole {s : State} {i : Instr} {tail : List Byte} (h : decodeOpcode s.cfg s.source = .ok (i, tail)) :
    ∃ b0 ops, s.source = b0 :: (ops ++ tail) ∧ ops.length = (classify s.cfg b0).operandBytes
      ∧ i.part = .opcode ∧ i.length = 1 + ops.length
      ∧ fetchOpcode s = .instr i (takeBytes ops.length (takeBytes 1 s)) := by
  cases hs : s.source with
  | nil => simp [hs, decodeOpcode] at h
  | cons b0 bs =>
    rw [hs] at h
    by_cases hlen : (classify s.cfg b0).operandBytes ≤ bs.length
    · have hl : (bs.take (classify s.cfg b0).operandBytes).length = (classify s.cfg b0).operandBytes := by
        simp [Nat.min_eq_left hlen]
      obtain ⟨j, hj, hp, hlj, -⟩ := decodeOpcode_exact hl
      have hcat : bs = bs.take (classify s.cfg b0).operandBytes ++ bs.drop (classify s.cfg b0).operandBytes :=
        (List.take_append_drop _ _).symm
      have h' := hj (bs.drop (classify s.cfg b0).operandBytes)
      rw [← hcat, h] at h'
      simp only [Except.ok.injEq, Prod.mk.injEq] at h'
      obtain ⟨rfl, rfl⟩ := h'
      refine ⟨b0, _, by rw [← hcat], hl, hp, hlj, ?_⟩
      have h1 : memRead 1 s = .bytes [b0] (takeBytes 1 s) := memRead_bytes (bs := [b0]) (tail := bs) hs
      have h2 : memRead (bs.take (classify s.cfg b0).operandBytes).length (takeBytes 1 s) =
          .bytes (bs.take (classify s.cfg b0).operandBytes)
            (takeBytes (bs.take (classify s.cfg b0).operandBytes).length (takeBytes 1 s)) :=
        memRead_bytes (tail := bs.drop (classify s.cfg b0).operandBytes) (by simp [hs])
      have h3 := hj []
      rw [List.append_nil] at h3
      have hd : decode (takeBytes (bs.take (classify s.cfg b0).operandBytes).length (takeBytes 1 s)).cfg .opcode
          ([b0] ++ bs.take (classify s.cfg b0).operandBytes) = .ok (i, []) := h3
      have h2' : memRead (classify s.cfg b0).operandBytes (takeBytes 1 s) =
          .bytes (bs.take (classify s.cfg b0).operandBytes)
            (takeBytes (bs.take (classify s.cfg b0).operandBytes).length (takeBytes 1 s)) := by
        conv_lhs => rw [← hl]
        exact h2
      simp only [fetchOpcode, h1, List.headD_cons, h2', decodeTaken, hd]
    · exfalso
      have hlt : bs.length < (classify s.cfg b0).operandBytes := by omega
      cases hc : classify s.cfg b0 <;> simp only [hc, OpClass.operandBytes] at hlt
      · match bs, hlt with
        | [], _ => simp [decodeOpcode, hc] at h
        | [_], _ => simp [decodeOpcode, hc] at h
        | [_, _], _ => simp [decodeOpcode, hc] at h
      · match bs, hlt with
        | [], _ => simp [decodeOpcode, hc] at h
        | [_], _ => simp [decodeOpcode, hc] at h
        | [_, _], _ => simp [decodeOpcode, hc] at h
        | [_, _, _], _ => simp [decodeOpcode, hc] at h
      · omega
      · omega
      · match bs, hlt with
        | [], _ => simp [decodeOpcode, hc] at h
      · omega

/-- The three ways a fetch ends. -/
theorem fetchOpcode_cases (s : State) :
    (s.source = [] ∧ fetchOpcode s = .failed (raise .endOfStream (takeBytes 0 s)))
    ∨ (∃ b0 ops, s.source = b0 :: ops ∧ ops.length < (classify s.cfg b0).operandBytes
        ∧ fetchOpcode s = .failed (raise .endOfStream (takeBytes ops.length (takeBytes 1 s))))
    ∨ (∃ i b0 ops tail, s.source = b0 :: (ops ++ tail) ∧ ops.length = (classify s.cfg b0).operandBytes
        ∧ decodeOpcode s.cfg s.source = .ok (i, tail) ∧ i.part = .opcode ∧ i.length = 1 + ops.length
        ∧ fetchOpcode s = .instr i (takeBytes ops.length (takeBytes 1 s))) := by
  cases hs : s.source with
  | nil => exact .inl ⟨rfl, fetchOpcode_empty hs⟩
  | cons b0 bs =>
    by_cases hlt : bs.length < (classify s.cfg b0).operandBytes
    · exact .inr (.inl ⟨b0, bs, rfl, hlt, fetchOpcode_cut hs hlt⟩)
    · have hl : (bs.take (classify s.cfg b0).operandBytes).length = (classify s.cfg b0).operandBytes := by
        simp; omega
      obtain ⟨i, hi, -⟩ := decodeOpcode_exact hl
      have hd := hi (bs.drop (classify s.cfg b0).operandBytes)
      rw [List.take_append_drop] at hd
      obtain ⟨b, ops, h1, h2, h3, h4, h5⟩ := fetchOpcode_whole (s := s) (by rw [hs]; exact hd)
      refine .inr (.inr ⟨i, b, ops, _, ?_, h2, hd, h3, h4, h5⟩)
      rw [← hs]; exact h1

/-- At most five bytes are taken for an opcode. -/
theorem operandBytes_le (k : OpClass) : k.operandBytes ≤ 4 := by cases k <;> decide

/-- A header that is all there. -/
theorem fetchHeader_whole {s : State} {bs tail : List Byte} (h : s.source = bs ++ tail) (hl : bs.length = 14) :
    fetchHeader s = decodeTaken .header bs (takeBytes 14 s) := by
  have h1 : memRead Config.headerBytes s = .bytes bs (takeBytes 14 s) := by
    have := memRead_bytes h
    rwa [hl] at this
  simp only [fetchHeader, h1]

/-- A header cut short. -/
theorem fetchHeader_short {s : State} (h : s.source.length < 14) :
    fetchHeader s = .failed (raise .endOfStream (takeBytes s.source.length s)) := by
  have h1 : memRead Config.headerBytes s = .short (takeBytes s.source.length s) := memRead_short h
  simp only [fetchHeader, h1]

/-- Fourteen bytes taken as a header: the magic decides whether there is a header to execute. -/
theorem decodeTaken_header {s : State} {bs : List Byte} (hl : bs.length = 14) :
    (∃ w h ch cs, bs = s.cfg.magic.toList ++ be32 w ++ be32 h ++ [ch, cs]
        ∧ decodeTaken .header bs s = .instr (.hdr w h ch cs) s)
    ∨ (hdrParse s.cfg bs = .error .invalidMagic ∧ decodeTaken .header bs s = .failed (raise .invalidMagic s)) := by
  match bs, hl with
  | [m0, m1, m2, m3, w0, w1, w2, w3, h0, h1, h2, h3, ch, cs], _ =>
    by_cases hm : [m0, m1, m2, m3] = s.cfg.magic.toList
    · refine .inl ⟨unbe32 w0 w1 w2 w3, unbe32 h0 h1 h2 h3, ch, cs, ?_, ?_⟩
      · rw [← hm, be32_unbe32, be32_unbe32]; rfl
      · simp [decodeTaken, decode, decodeHeader, hm]
    · refine .inr ⟨?_, ?_⟩
      · simp [hdrParse, decodeHeader, hm, rejectError]
      · simp [decodeTaken, decode, decodeHeader, hm, rejectError]

end Sys2Proof.Machine
end

