-- ==== Sys2Proof/Laws/Image.lean ====
section
/-! SUPPORT. The loop of DEC_IMAGE: what one fetch leaves, the three ways a turn goes, that the loop always ends, that bytes
behind the last opcode do not matter, and that nothing outside the decoder's own part of the state does. -/

namespace Sys2Proof.Machine

open Sys2Proof

/-! ### One fetch -/

/-- D.POS after a fetch has taken the first byte and n operand bytes. -/
def fetchedPos (pos : BitVec 64) (n : Nat) : BitVec 64 := advancePos (advancePos pos 1) n

/-- What a fetch does, in the fields of the state: it fails with the source used up, or takes one opcode. -/
theorem fetchOpcode_inv (s : State) :
    (∃ p, fetchOpcode s =
        .failed (raise .endOfStream { s with source := [], dec := { s.dec with pos := p } }))
    ∨ (∃ i tail b0 ops, s.source = b0 :: (ops ++ tail) ∧ ops.length = (classify s.cfg b0).operandBytes
        ∧ decodeOpcode s.cfg s.source = .ok (i, tail) ∧ i.part = .opcode ∧ i.length = 1 + ops.length
        ∧ fetchOpcode s =
            .instr i { s with source := tail, dec := { s.dec with pos := fetchedPos s.dec.pos ops.length } }) := by
  rcases fetchOpcode_cases s with ⟨hs, h⟩ | ⟨b0, ops, hs, -, h⟩ | ⟨i, b0, ops, tail, hs, hl, hd, hp, hn, h⟩
  · exact .inl ⟨advancePos s.dec.pos 0, by rw [h]; simp only [takeBytes, hs, List.drop_nil]⟩
  · exact .inl ⟨fetchedPos s.dec.pos ops.length, by
      rw [h]; simp only [takeBytes, hs, List.drop_succ_cons, List.drop_zero, List.drop_length, fetchedPos]⟩
  · refine .inr ⟨i, tail, b0, ops, hs, hl, hd, hp, hn, ?_⟩
    rw [h]
    simp only [takeBytes, hs, List.drop_succ_cons, List.drop_zero, List.drop_left, fetchedPos]

/-- An opcode that decodes is fetched, with exactly its bytes taken and counted. -/
theorem fetchOpcode_eq {s : State} {i : Instr} {tail : List Byte} (h : decodeOpcode s.cfg s.source = .ok (i, tail)) :
    i.part = .opcode ∧ 1 ≤ i.length ∧ fetchOpcode s = .instr i { s with
      source := tail, dec := { s.dec with pos := fetchedPos s.dec.pos (i.length - 1) } } := by
  obtain ⟨b0, ops, hs, -, hp, hn, hf⟩ := fetchOpcode_whole h
  refine ⟨hp, by omega, ?_⟩
  rw [hf]
  have hl : i.length - 1 = ops.length := by omega
  simp only [takeBytes, hs, List.drop_succ_cons, List.drop_zero, List.drop_left, fetchedPos, hl]

/-- The position while it stays in the register. -/
theorem fetchedPos_of_lt {pos : BitVec 64} {n : Nat} (h : pos.toNat + (1 + n) < 2 ^ 64) :
    fetchedPos pos n = pos + BitVec.ofNat 64 (1 + n) := advancePos_twice h

/-- An opcode that decodes does so whatever bytes are added behind. -/
theorem decodeOpcode_append {cfg : Config} {bs tail : List Byte} {i : Instr} (h : decodeOpcode cfg bs = .ok (i, tail))
    (extra : List Byte) : decodeOpcode cfg (bs ++ extra) = .ok (i, tail ++ extra) := by
  let s : State := { State.reset with cfg := cfg, source := bs }
  obtain ⟨b0, ops, hs, hl, -⟩ := fetchOpcode_whole (s := s) h
  obtain ⟨j, hj, -⟩ := decodeOpcode_exact hl
  have hb : bs = b0 :: (ops ++ tail) := hs
  have hji : j = i := by
    have := hj tail
    rw [show s.cfg = cfg from rfl, ← hb, h] at this
    simp only [Except.ok.injEq, Prod.mk.injEq] at this
    exact this.1.symm
  have := hj (tail ++ extra)
  rw [hji, ← List.append_assoc, ← List.cons_append, ← hb] at this
  exact this

/-- An opcode yields at least one pixel, and at most 62. -/
theorem decodeOpcode_count {cfg : Config} {bs tail : List Byte} {i : Instr} (hc : cfg.Legal)
    (h : decodeOpcode cfg bs = .ok (i, tail)) : 1 ≤ pixelCount i ∧ pixelCount i ≤ 62 := by
  let s : State := { State.reset with cfg := cfg, source := bs }
  obtain ⟨b0, ops, hs, hl, -⟩ := fetchOpcode_whole (s := s) h
  obtain ⟨j, hj, -, -, h1, h2⟩ := decodeOpcode_exact hl
  have hb : bs = b0 :: (ops ++ tail) := hs
  have hji : j = i := by
    have := hj tail
    rw [show s.cfg = cfg from rfl, ← hb, h] at this
    simp only [Except.ok.injEq, Prod.mk.injEq] at this
    exact this.1.symm
  subst hji
  refine ⟨h1, ?_⟩
  rcases h2 with h2 | ⟨h2, hrun⟩
  · omega
  · have hrun' : classify cfg b0 = .run := hrun
    rcases classify_cases hc b0 with ⟨h3, -⟩ | ⟨h3, -⟩ | ⟨h3, -⟩ | ⟨h3, -⟩ | ⟨h3, -⟩ | ⟨-, -, h3⟩
    all_goals first | (rw [hrun'] at h3; exact absurd h3 (by decide)) | omega

/-- Every opcode yields at least one pixel, in any configuration. -/
theorem decodeOpcode_count_pos {cfg : Config} {bs tail : List Byte} {i : Instr}
    (h : decodeOpcode cfg bs = .ok (i, tail)) : 1 ≤ pixelCount i := by
  let s : State := { State.reset with cfg := cfg, source := bs }
  obtain ⟨b0, ops, hs, hl, -⟩ := fetchOpcode_whole (s := s) h
  obtain ⟨j, hj, -, -, h1, -⟩ := decodeOpcode_exact hl
  have hb : bs = b0 :: (ops ++ tail) := hs
  have := hj tail
  rw [show s.cfg = cfg from rfl, ← hb, h] at this
  simp only [Except.ok.injEq, Prod.mk.injEq] at this
  rw [this.1]; exact h1

/-! ### One turn of the loop -/

/-- The decoder after it executed an opcode whose bytes are taken. -/
def afterOpcode (i : Instr) (tail : List Byte) (s : State) : State :=
  produce (opcodeColor s.dec.cache s.dec.cur i) (pixelCount i)
    { s with source := tail, dec := { s.dec with pos := fetchedPos s.dec.pos (i.length - 1) } }

/-- With the image complete the loop has ended. -/
theorem imageLoop_done {k : Nat} {s : State} (h : ¬ s.dec.idx < s.dec.npix) : imageLoop k s = .next s := by
  cases k <;> simp only [imageLoop, if_neg h]

/-- With nothing to fetch the turn raises. -/
theorem imageLoop_failed {k : Nat} {s t : State} (h : s.dec.idx < s.dec.npix) (hf : fetchOpcode s = .failed t) :
    imageLoop (k + 1) s = .next t := by
  simp only [imageLoop, if_pos h, hf]

/-- An opcode that overruns the image raises; any other is delivered and the loop goes on. -/
theorem imageLoop_opcode {k : Nat} {s : State} {i : Instr} {tail : List Byte} (h : s.dec.idx < s.dec.npix)
    (he : s.dec.err = none) (hd : decodeOpcode s.cfg s.source = .ok (i, tail)) :
    imageLoop (k + 1) s =
      if s.dec.idx.toNat + pixelCount i > s.dec.npix.toNat then .next (raise .invalidData (afterOpcode i tail s))
      else imageLoop k (deliver (opcodeColor s.dec.cache s.dec.cur i) (pixelCount i) (afterOpcode i tail s)) := by
  obtain ⟨hp, -, hf⟩ := fetchOpcode_eq hd
  by_cases hn : s.dec.idx.toNat + pixelCount i > s.dec.npix.toNat
  · have hc : deliverChecked (pixelCount i) (afterOpcode i tail s) = raise .invalidData (afterOpcode i tail s) := if_pos hn
    rw [if_pos hn, imageLoop, if_pos h, hf]
    simp only [exec_opcode hp]
    rw [show produce _ _ _ = afterOpcode i tail s from rfl, hc, if_neg (by simp)]
  · have hc : deliverChecked (pixelCount i) (afterOpcode i tail s) =
        deliver (opcodeColor s.dec.cache s.dec.cur i) (pixelCount i) (afterOpcode i tail s) := if_neg hn
    rw [if_neg hn, imageLoop, if_pos h, hf]
    simp only [exec_opcode hp]
    rw [show produce _ _ _ = afterOpcode i tail s from rfl, hc]
    exact if_pos he

/-! ### The loop ends -/

/-- Adding a count that stays within the total does not wrap. -/
theorem toNat_add_count {idx npix : BitVec 64} {n : Nat} (h : idx.toNat + n ≤ npix.toNat) :
    (idx + BitVec.ofNat 64 n).toNat = idx.toNat + n := by
  have := npix.isLt
  rw [BitVec.toNat_add, BitVec.toNat_ofNat]; omega

/-- What the loop leaves when it ends: a complete image, or an error with its kind. -/
def LoopEnds (s t : State) : Prop :=
  (∃ taken, s.source = taken ++ t.source)
  ∧ t = { s with source := t.source, pixOut := t.pixOut, decResult := t.decResult, dec := { s.dec with
      cache := t.dec.cache, cur := t.dec.cur, pos := t.dec.pos, idx := t.dec.idx, err := t.dec.err } }
  ∧ t.dec.idx.toNat ≤ t.dec.npix.toNat
  ∧ (s.dec.cache.Hashed s.cfg.hashW → t.dec.cache.Hashed t.cfg.hashW)
  ∧ ((t.dec.err = none ∧ t.dec.idx = t.dec.npix
        ∧ ∃ pixels, t.pixOut = s.pixOut ++ pixels ∧ pixels.length + s.dec.idx.toNat = s.dec.npix.toNat)
    ∨ (∃ k, t.dec.err = some k ∧ t.decResult = some (.error k) ∧ (k = .endOfStream ∨ k = .invalidData)))

theorem imageLoop_ends (k : Nat) (s : State) (he : s.dec.err = none) (hi : s.dec.idx.toNat ≤ s.dec.npix.toNat)
    (hk : s.source.length ≤ k) : ∃ t, imageLoop k s = .next t ∧ LoopEnds s t := by
  induction k generalizing s with
  | zero =>
    by_cases h : s.dec.idx < s.dec.npix
    · exact ⟨raise .endOfStream s, by simp only [imageLoop, if_pos h], ⟨[], rfl⟩, rfl, hi, id, .inr ⟨_, rfl, rfl, .inl rfl⟩⟩
    · refine ⟨s, imageLoop_done h, ⟨[], rfl⟩, rfl, hi, id, .inl ⟨he, ?_, [], by simp, ?_⟩⟩
      · apply BitVec.eq_of_toNat_eq; have := BitVec.lt_def.not.mp h; omega
      · have := BitVec.lt_def.not.mp h; simp; omega
  | succ k ih =>
    by_cases h : s.dec.idx < s.dec.npix
    · rcases fetchOpcode_inv s with ⟨p, hf⟩ | ⟨i, tail, b0, ops, hs, -, hd, -, -, -⟩
      · exact ⟨_, imageLoop_failed h hf, ⟨s.source, by simp⟩, rfl, hi, id, .inr ⟨_, rfl, rfl, .inl rfl⟩⟩
      · rw [imageLoop_opcode h he hd]
        have hst : s.source = (b0 :: ops) ++ tail := by rw [hs]; rfl
        by_cases hn : s.dec.idx.toNat + pixelCount i > s.dec.npix.toNat
        · rw [if_pos hn]
          exact ⟨_, rfl, ⟨b0 :: ops, hst⟩, rfl, hi, fun hh => hashed_store hh _, .inr ⟨_, rfl, rfl, .inr rfl⟩⟩
        · rw [if_neg hn]
          have hn' : s.dec.idx.toNat + pixelCount i ≤ s.dec.npix.toNat := by omega
          have hadd := toNat_add_count hn'
          obtain ⟨t, ht, ⟨taken, h1⟩, h2, h3, h4, h5⟩ :=
            ih (deliver (opcodeColor s.dec.cache s.dec.cur i) (pixelCount i) (afterOpcode i tail s)) he
              (by simp only [deliver, afterOpcode, produce, hadd]; exact hn')
              (by rw [hs] at hk; simp only [deliver, afterOpcode, produce]; simp at hk; omega)
          refine ⟨t, ht, ⟨b0 :: (ops ++ taken), ?_⟩, ?_, h3, fun hh => h4 (hashed_store hh _), ?_⟩
          · have h1' : tail = taken ++ t.source := h1
            rw [hst, h1']; simp
          · rw [h2]; rfl
          · rcases h5 with ⟨e1, e2, px, e3, e4⟩ | h5
            · refine .inl ⟨e1, e2, _, by rw [e3]; exact List.append_assoc .., ?_⟩
              have e4' : px.length + (s.dec.idx + BitVec.ofNat 64 (pixelCount i)).toNat = s.dec.npix.toNat := e4
              rw [hadd] at e4'
              simp; omega
            · exact .inr h5
    · refine ⟨s, imageLoop_done h, ⟨[], rfl⟩, rfl, hi, id, .inl ⟨he, ?_, [], by simp, ?_⟩⟩
      · apply BitVec.eq_of_toNat_eq; have := BitVec.lt_def.not.mp h; omega
      · have := BitVec.lt_def.not.mp h; simp; omega

/-! ### Bytes behind the last opcode -/

/-- A loop that completes does the same with any bytes added at the end, and with any more turns allowed. -/
theorem imageLoop_append (k m : Nat) (s t : State) (extra : List Byte) (he : s.dec.err = none)
    (h : imageLoop k s = .next t) (ht : t.dec.err = none) :
    imageLoop (k + m) { s with source := s.source ++ extra } = .next { t with source := t.source ++ extra } := by
  induction k generalizing s with
  | zero =>
    by_cases hlt : s.dec.idx < s.dec.npix
    · simp only [imageLoop, if_pos hlt, Host.Outcome.next.injEq] at h
      rw [← h] at ht; simp at ht
    · rw [imageLoop_done hlt] at h
      simp only [Host.Outcome.next.injEq] at h
      subst h
      exact imageLoop_done (s := { s with source := s.source ++ extra }) hlt
  | succ k ih =>
    by_cases hlt : s.dec.idx < s.dec.npix
    · rcases fetchOpcode_inv s with ⟨p, hf⟩ | ⟨i, tail, b0, ops, hs, -, hd, -, -, -⟩
      · rw [imageLoop_failed hlt hf] at h
        simp only [Host.Outcome.next.injEq] at h
        rw [← h] at ht; simp at ht
      · rw [imageLoop_opcode hlt he hd] at h
        have hx := imageLoop_opcode (k := k + m) (s := { s with source := s.source ++ extra }) hlt he
          (decodeOpcode_append hd extra)
        rw [show k + 1 + m = k + m + 1 by omega, hx]
        by_cases hn : s.dec.idx.toNat + pixelCount i > s.dec.npix.toNat
        · rw [if_pos hn] at h
          simp only [Host.Outcome.next.injEq] at h
          rw [← h] at ht; simp at ht
        · rw [if_neg hn] at h ⊢
          exact ih (deliver (opcodeColor s.dec.cache s.dec.cur i) (pixelCount i) (afterOpcode i tail s)) he h
    · rw [imageLoop_done hlt] at h
      simp only [Host.Outcome.next.injEq] at h
      subst h
      exact imageLoop_done (s := { s with source := s.source ++ extra }) hlt

/-! ### The decoder's part of the state -/

/-- The decoder's part of s beside everything else of o. -/
def State.decPartOf (s o : State) : State :=
  { s with enc := o.enc, sink := o.sink, commands := o.commands, dbgValue := o.dbgValue }

/-- The fetched instruction, or the error, beside another rest of the state. -/
def Fetched.beside (o : State) : Fetched → Fetched
  | .instr i s => .instr i (s.decPartOf o)
  | .failed s => .failed (s.decPartOf o)

/-- The outcome beside another rest of the state. -/
def beside (o : State) : Host.Outcome State Fault Refusal → Host.Outcome State Fault Refusal
  | .next s => .next (s.decPartOf o)
  | .fault e => .fault e
  | .refused r => .refused r

theorem decodeTaken_beside (o : State) (part : Part) (bs : List Byte) (s : State) :
    decodeTaken part bs (s.decPartOf o) = (decodeTaken part bs s).beside o := by
  unfold decodeTaken
  rw [show (s.decPartOf o).cfg = s.cfg from rfl]
  split <;> rfl

theorem fetchOpcode_beside (o s : State) : fetchOpcode (s.decPartOf o) = (fetchOpcode s).beside o := by
  rcases fetchOpcode_cases s with ⟨hs, h⟩ | ⟨b0, ops, hs, hl, h⟩ | ⟨i, b0, ops, tail, hs, hl, hd, hp, hn, h⟩
  · rw [h, fetchOpcode_empty (s := s.decPartOf o) hs]; rfl
  · rw [h, fetchOpcode_cut (s := s.decPartOf o) hs hl]; rfl
  · rw [(fetchOpcode_eq hd).2.2, (fetchOpcode_eq (s := s.decPartOf o) hd).2.2]; rfl

theorem fetchHeader_beside (o s : State) : fetchHeader (s.decPartOf o) = (fetchHeader s).beside o := by
  by_cases h : s.source.length < 14
  · rw [fetchHeader_short h, fetchHeader_short (s := s.decPartOf o) h]; rfl
  · have hl : (s.source.take 14).length = 14 := by simp; omega
    have hs : s.source = s.source.take 14 ++ s.source.drop 14 := (List.take_append_drop ..).symm
    rw [fetchHeader_whole hs hl, fetchHeader_whole (s := s.decPartOf o) hs hl]
    exact decodeTaken_beside o .header _ (takeBytes 14 s)

theorem exec_beside (o : State) (i : Instr) (hi : i ≠ .endMarker) (s : State) :
    exec i (s.decPartOf o) = beside o (exec i s) := by
  cases hp : i.part with
  | opcode => rw [exec_opcode hp, exec_opcode hp]; rfl
  | header =>
    cases i <;> simp [Instr.part] at hp
    rw [exec_hdr, exec_hdr, show (s.decPartOf o).cfg = s.cfg from rfl]
    split <;> rfl
  | endMarker => cases i <;> simp [Instr.part] at hp; exact absurd rfl hi

theorem imageLoop_beside (o : State) (k : Nat) (s : State) (he : s.dec.err = none) :
    imageLoop k (s.decPartOf o) = beside o (imageLoop k s) := by
  induction k generalizing s with
  | zero =>
    by_cases h : s.dec.idx < s.dec.npix
    · simp only [imageLoop, if_pos h, if_pos (show (s.decPartOf o).dec.idx < (s.decPartOf o).dec.npix from h)]; rfl
    · rw [imageLoop_done h, imageLoop_done (s := s.decPartOf o) h]; rfl
  | succ k ih =>
    by_cases h : s.dec.idx < s.dec.npix
    · have hb := fetchOpcode_beside o s
      rcases fetchOpcode_inv s with ⟨p, hf⟩ | ⟨i, tail, b0, ops, hs, -, hd, -, -, -⟩
      · rw [imageLoop_failed h hf]
        rw [hf] at hb
        exact imageLoop_failed (s := s.decPartOf o) h hb
      · rw [imageLoop_opcode h he hd, imageLoop_opcode (s := s.decPartOf o) h he hd]
        by_cases hn : s.dec.idx.toNat + pixelCount i > s.dec.npix.toNat
        · rw [if_pos hn, if_pos (show (s.decPartOf o).dec.idx.toNat + pixelCount i > (s.decPartOf o).dec.npix.toNat from hn)]
          rfl
        · rw [if_neg hn,
            if_neg (show ¬ (s.decPartOf o).dec.idx.toNat + pixelCount i > (s.decPartOf o).dec.npix.toNat from hn)]
          exact ih (deliver (opcodeColor s.dec.cache s.dec.cur i) (pixelCount i) (afterOpcode i tail s)) he
    · rw [imageLoop_done h, imageLoop_done (s := s.decPartOf o) h]; rfl

end Sys2Proof.Machine
end

