-- ==== Sys2Proof/Laws/Commands.lean ====
section
/-! SUPPORT. The commands: what one step does with each, and the two commands of the header in one lemma per way they go. -/

namespace Sys2Proof.Machine

open Sys2Proof

/-! ### A step -/

/-- A step with a legal command pending is the command's effect. -/
theorem step_legal {s : State} {c : Command} {cmds : List Command} (hc : s.commands = c :: cmds)
    (h : c.legal s.cfg = true) : step s = commandEffect c { s with commands := cmds } := by
  simp only [step, nextStep, hc, runCommand, h, if_true]

/-- A step with an illegal command pending is refused. -/
theorem step_illegal {s : State} {c : Command} {cmds : List Command} (hc : s.commands = c :: cmds)
    (h : c.legal s.cfg = false) : step s = .refused .operandOutsideSet := by
  simp only [step, nextStep, hc, runCommand, h, Bool.false_eq_true, if_false]

/-- With no command pending nothing happens. -/
theorem step_idle {s : State} (h : s.commands = []) : step s = .next s := by
  simp only [step, nextStep, h]

/-- A step that answers a next state is idle or one legal command. -/
theorem step_next {s t : State} (h : step s = .next t) :
    (s.commands = [] ∧ t = s)
    ∨ ∃ c cmds, s.commands = c :: cmds ∧ c.legal s.cfg = true
        ∧ commandEffect c { s with commands := cmds } = .next t := by
  cases hc : s.commands with
  | nil =>
    rw [step_idle hc] at h
    simp only [Host.Outcome.next.injEq] at h
    exact .inl ⟨rfl, h.symm⟩
  | cons c cmds =>
    refine .inr ⟨c, cmds, rfl, ?_⟩
    cases hl : c.legal s.cfg with
    | true =>
      rw [step_legal hc hl] at h
      exact ⟨rfl, h⟩
    | false =>
      rw [step_illegal hc hl] at h
      cases h

/-- While an error is recorded a guarded command only reports it (R286). -/
theorem unlessStopped_stopped {f : State → Host.Outcome State Fault Refusal} {s : State} {k : ErrKind}
    (h : s.dec.err = some k) : unlessStopped f s = .next { s with decResult := some (.error k) } := by
  simp only [unlessStopped, h]

/-- With no error recorded a guarded command runs. -/
theorem unlessStopped_running {f : State → Host.Outcome State Fault Refusal} {s : State} (h : s.dec.err = none) :
    unlessStopped f s = f s := by
  simp only [unlessStopped, h]

/-- DEC_FETCH with no error recorded. -/
theorem step_decFetch {s : State} {cmds : List Command} (hc : s.commands = .decFetch :: cmds) (h : s.dec.err = none) :
    step s = fetchAndExec { s with commands := cmds } := by
  rw [step_legal hc rfl]
  exact unlessStopped_running (s := { s with commands := cmds }) h

/-- DEC_HEADER with no error recorded. -/
theorem step_decHeader {s : State} {cmds : List Command} (hc : s.commands = .decHeader :: cmds) (h : s.dec.err = none) :
    step s = headerAndExec { s with commands := cmds } := by
  rw [step_legal hc rfl]
  exact unlessStopped_running (s := { s with commands := cmds }) h

/-- DEC_IMAGE with no error recorded. -/
theorem step_decImage {s : State} {cmds : List Command} (hc : s.commands = .decImage :: cmds) (h : s.dec.err = none) :
    step s = imageAndExec { s with commands := cmds } := by
  rw [step_legal hc rfl]
  exact unlessStopped_running (s := { s with commands := cmds }) h

/-- ENC_PUSH in one equation of the registers and the sink. -/
theorem step_encPush {s : State} {cmds : List Command} {px : Color} (hc : s.commands = .encPush px :: cmds) :
    step s = .next { s with
      commands := cmds
      enc := pushRegs s.cfg s.enc px
      sink := s.sink ++ encodeAll s.cfg (pushInstrs s.cfg s.enc px) } := by
  rw [step_legal hc rfl]
  exact congrArg Host.Outcome.next (encPush_eq px { s with commands := cmds })

/-! ### DEC_FETCH -/

/-- DEC_FETCH on bytes that begin with an opcode. -/
theorem fetchAndExec_opcode {s : State} {i : Instr} {tail : List Byte} (h : decodeOpcode s.cfg s.source = .ok (i, tail)) :
    fetchAndExec s = .next (afterOpcode i tail s) := by
  obtain ⟨hp, -, hf⟩ := fetchOpcode_eq h
  simp only [fetchAndExec, hf, execFetched, exec_opcode hp, afterOpcode]

/-! ### DEC_HEADER -/

/-- The bytes of a header decode to it, whatever its tags are. -/
theorem decodeHeader_headerBytes (cfg : Config) (w h : BitVec 32) (ch cs : Byte) (rest : List Byte) :
    decodeHeader cfg (headerBytes cfg w h ch cs ++ rest) = .ok (.hdr w h ch cs, rest) := by
  have hl : cfg.magic.toList.length = 4 := by simp
  obtain ⟨m0, m1, m2, m3, hm⟩ : ∃ m0 m1 m2 m3, cfg.magic.toList = [m0, m1, m2, m3] := by
    match cfg.magic.toList, hl with
    | [m0, m1, m2, m3], _ => exact ⟨m0, m1, m2, m3, rfl⟩
  simp only [headerBytes, be32, hm, decodeHeader, List.cons_append, List.nil_append, if_true, unbe32_be32]

/-- DEC_HEADER with fewer than 14 bytes left (R115). -/
theorem headerAndExec_short {s : State} (h : s.source.length < 14) :
    headerAndExec s = .next (raise .endOfStream (takeBytes s.source.length s)) := by
  simp only [headerAndExec, fetchHeader_short h, execFetched]

/-- Fourteen bytes that decode as a header are taken, counted and executed. -/
theorem headerAndExec_decoded {s : State} {i : Instr} {tail : List Byte} (h : decodeHeader s.cfg s.source = .ok (i, tail)) :
    headerAndExec s = exec i (takeBytes 14 s) ∧ s.source.drop 14 = tail := by
  unfold decodeHeader at h
  split at h
  · rename_i m0 m1 m2 m3 w0 w1 w2 w3 h0 h1 h2 h3 ch cs rest hs
    by_cases hm : [m0, m1, m2, m3] = s.cfg.magic.toList
    · rw [if_pos hm] at h
      cases h
      have hs' : s.source = [m0, m1, m2, m3, w0, w1, w2, w3, h0, h1, h2, h3, ch, cs] ++ tail := hs
      refine ⟨?_, by rw [hs]; rfl⟩
      rw [headerAndExec, fetchHeader_whole hs' rfl]
      simp only [decodeTaken, decode, decodeHeader, takeBytes_cfg, hm, if_true, execFetched]
    · rw [if_neg hm] at h; cases h
  · cases h

/-- DEC_HEADER on a header with recognized tags (R112). -/
theorem headerAndExec_accepts {s : State} {w h : BitVec 32} {ch cs : Byte} {tail : List Byte}
    (ht : tagsLegal s.cfg ch cs) (hs : s.source = headerBytes s.cfg w h ch cs ++ tail) :
    headerAndExec s = .next (acceptHeader w h ch cs (takeBytes 14 s)) := by
  have hl : (headerBytes s.cfg w h ch cs).length = 14 := by simp [headerBytes, be32]
  have hd : decode (takeBytes 14 s).cfg .header (headerBytes s.cfg w h ch cs) = .ok (.hdr w h ch cs, []) := by
    have := decodeHeader_headerBytes s.cfg w h ch cs []
    rwa [List.append_nil] at this
  simp only [headerAndExec, fetchHeader_whole hs hl, decodeTaken, hd, execFetched, exec_hdr]
  rw [if_pos]
  simp only [takeBytes_cfg, ht.1, ht.2, Bool.and_self]

/-- DEC_HEADER on 14 bytes that are no good header raises what hdr_parse raises (R114). -/
theorem headerAndExec_rejects {s : State} {bs tail : List Byte} {k : ErrKind} (hs : s.source = bs ++ tail)
    (hl : bs.length = 14) (hk : hdrParse s.cfg bs = .error k) :
    (k = .invalidMagic ∨ k = .invalidTag) ∧ headerAndExec s = .next (raise k (takeBytes 14 s)) := by
  have hf := fetchHeader_whole hs hl
  rcases decodeTaken_header (s := takeBytes 14 s) hl with ⟨w, h, ch, cs, hb, hd⟩ | ⟨hp, hd⟩
  · have hdh := decodeHeader_headerBytes s.cfg w h ch cs []
    rw [List.append_nil, ← show bs = headerBytes s.cfg w h ch cs from hb] at hdh
    simp only [hdrParse, hdh] at hk
    by_cases ht : (channelsRecognized ch && colorspaceRecognized s.cfg cs) = true
    · rw [if_pos ht] at hk; cases hk
    · rw [if_neg ht] at hk
      cases hk
      refine ⟨.inr rfl, ?_⟩
      simp only [headerAndExec, hf, hd, execFetched, exec_hdr]
      rw [if_neg (by simpa using ht)]
  · have hp' : hdrParse s.cfg bs = .error .invalidMagic := hp
    rw [hk] at hp'
    cases hp'
    exact ⟨.inl rfl, by simp only [headerAndExec, hf, hd, execFetched]⟩

/-- The three ways DEC_HEADER goes. -/
theorem headerAndExec_cases (s : State) :
    (s.source.length < 14 ∧ headerAndExec s = .next (raise .endOfStream (takeBytes s.source.length s)))
    ∨ (∃ k, (k = .invalidMagic ∨ k = .invalidTag) ∧ hdrParse s.cfg (s.source.take 14) = .error k ∧ 14 ≤ s.source.length
        ∧ headerAndExec s = .next (raise k (takeBytes 14 s)))
    ∨ (∃ w h ch cs, tagsLegal s.cfg ch cs ∧ s.source = headerBytes s.cfg w h ch cs ++ s.source.drop 14
        ∧ headerAndExec s = .next (acceptHeader w h ch cs (takeBytes 14 s))) := by
  by_cases hlt : s.source.length < 14
  · exact .inl ⟨hlt, headerAndExec_short hlt⟩
  · have hl : (s.source.take 14).length = 14 := by simp; omega
    have hs : s.source = s.source.take 14 ++ s.source.drop 14 := (List.take_append_drop ..).symm
    cases hk : hdrParse s.cfg (s.source.take 14) with
    | error k =>
      obtain ⟨h1, h2⟩ := headerAndExec_rejects hs hl hk
      exact .inr (.inl ⟨k, h1, rfl, by omega, h2⟩)
    | ok r =>
      right; right
      rcases decodeTaken_header (s := takeBytes 14 s) hl with ⟨w, h, ch, cs, hb, -⟩ | ⟨hp, -⟩
      · have hb' : s.source.take 14 = headerBytes s.cfg w h ch cs := hb
        have ht : tagsLegal s.cfg ch cs := by
          by_contra hn
          have hdh := decodeHeader_headerBytes s.cfg w h ch cs []
          rw [List.append_nil, ← hb'] at hdh
          simp only [hdrParse, hdh] at hk
          rw [if_neg (by simpa [tagsLegal] using hn)] at hk
          cases hk
        have hs' : s.source = headerBytes s.cfg w h ch cs ++ s.source.drop 14 := by rw [← hb']; exact hs
        exact ⟨w, h, ch, cs, ht, hs', headerAndExec_accepts ht hs'⟩
      · have hp' : hdrParse s.cfg (s.source.take 14) = .error .invalidMagic := hp
        rw [hk] at hp'; cases hp'

/-! ### DEC_IMAGE -/

/-- DEC_IMAGE whose header was rejected or cut short (R244, R283). -/
theorem imageAndExec_headerError {s t : State} {k : ErrKind} (h : headerAndExec (decReset s) = .next t)
    (ht : t.dec.err = some k) : imageAndExec s = .next (foldHeaderError t) := by
  simp only [imageAndExec, h, ht, reduceCtorEq, if_false]

/-- DEC_IMAGE whose header was accepted: the loop's end is closed (R244). -/
theorem imageAndExec_accepted {s t u : State} (h : headerAndExec (decReset s) = .next t) (ht : t.dec.err = none)
    (hu : decodePixels t = .next u) : imageAndExec s = .next (closeImage s.pixOut u) := by
  simp only [imageAndExec, h, ht, if_true, hu]

/-- The end of a DEC_IMAGE with no error recorded (R244). -/
theorem closeImage_done {before : List Color} {s : State} (h : s.dec.err = none) :
    closeImage before s = { s with
      decResult := some (.image s.dec.width s.dec.height s.dec.channels s.dec.colorspace) } := if_pos h

/-- The end of a DEC_IMAGE with an error recorded: its pixels are void (R56). -/
theorem closeImage_failed {before : List Color} {s : State} (h : s.dec.err ≠ none) :
    closeImage before s = { s with pixOut := before } := if_neg h

/-- HDR_ERR_FOLD does nothing to an error that is no header error (R283). -/
theorem foldHeaderError_short (s : State) : foldHeaderError (raise .endOfStream s) = raise .endOfStream s := by
  simp [foldHeaderError]

/-- The 64-bit product of two 32-bit numbers is exact (R28). -/
theorem npix_exact (w h : BitVec 32) : (w.zeroExtend 64 * h.zeroExtend 64 : BitVec 64).toNat = w.toNat * h.toNat := by
  have hw := w.isLt
  have hh := h.isLt
  have hm : w.toNat * h.toNat < 2 ^ 64 := by
    calc w.toNat * h.toNat ≤ (2 ^ 32 - 1) * (2 ^ 32 - 1) := Nat.mul_le_mul (by omega) (by omega)
      _ < 2 ^ 64 := by norm_num
  simp only [BitVec.truncate_eq_setWidth, BitVec.toNat_mul, BitVec.toNat_setWidth]
  rw [Nat.mod_eq_of_lt (show w.toNat < 2 ^ 64 by omega), Nat.mod_eq_of_lt (show h.toNat < 2 ^ 64 by omega),
    Nat.mod_eq_of_lt hm]

/-- The oversized image (R243). -/
theorem decodePixels_oversized {s : State} (h : s.cfg.maxPixels < s.dec.width.toNat * s.dec.height.toNat) :
    decodePixels s = .next (raise .outOfMemory (setPixelTotal s)) := by
  have : (setPixelTotal s).dec.npix.toNat > s.cfg.maxPixels := by
    simp only [setPixelTotal_dec_npix, npix_exact]; exact h
  simp only [decodePixels, if_pos this]

/-- An image within the limit goes to the loop. -/
theorem decodePixels_fits {s : State} (h : s.dec.width.toNat * s.dec.height.toNat ≤ s.cfg.maxPixels) :
    decodePixels s = imageLoop s.source.length (setPixelTotal s) := by
  have : ¬ (setPixelTotal s).dec.npix.toNat > s.cfg.maxPixels := by
    simp only [setPixelTotal_dec_npix, npix_exact]; omega
  simp only [decodePixels, if_neg this]

end Sys2Proof.Machine
end

