-- ==== Sys2Proof/Laws/PerInstr.lean ====
section
/-! SUPPORT. Facts about every instruction as syntax, one lemma per constructor. -/

namespace Sys2Proof.Laws.EncodedLength

open Sys2Proof

/-- The encoder writes exactly the length of R81, R84 and R88, in every configuration. -/
def Statement (i : Instr) : Prop := ∀ cfg : Config, (encode cfg i).length = i.length

theorem opRgb (r g b : Byte) : Statement (.opRgb r g b) := fun _ => rfl

theorem opRgba (r g b a : Byte) : Statement (.opRgba r g b a) := fun _ => rfl

theorem opIndex (idx : Slot) : Statement (.opIndex idx) := fun _ => rfl

theorem opDiff (dr dg db : Int) : Statement (.opDiff dr dg db) := fun _ => rfl

theorem opLuma (dg drg dbg : Int) : Statement (.opLuma dg drg dbg) := fun _ => rfl

theorem opRun (n : Nat) : Statement (.opRun n) := fun _ => rfl

theorem hdr (w h : BitVec 32) (ch cs : Byte) : Statement (.hdr w h ch cs) := fun cfg => by
  simp [encode, be32, Instr.length, Config.headerBytes]

theorem endMarker : Statement .endMarker := fun cfg => by simp [encode, Instr.length]

end Sys2Proof.Laws.EncodedLength
end

