-- ==== Sys2Proof/Laws/RoundTrip.lean ====
section
/-! SUPPORT. The encoder and the decoder beside each other, as pure functions of instruction lists: what a list decodes to, that
what the encoder emits is well-formed and decodes to the pixels pushed, and what the two caches then hold. -/

namespace Sys2Proof.Machine

open Sys2Proof

/-! ### What a list of opcodes decodes to -/

/-- A cache and a current colour after one opcode. -/
def afterColor (cfg : Config) (m : Cache) (cur : Color) (i : Instr) : Cache × Color :=
  (m.store (hashOf cfg.hashW (opcodeColor m cur i)) (opcodeColor m cur i), opcodeColor m cur i)

/-- A cache and a current colour after a list of opcodes. -/
def afterColors (cfg : Config) : Cache → Color → List Instr → Cache × Color
  | m, cur, [] => (m, cur)
  | m, cur, i :: is => afterColors cfg (afterColor cfg m cur i).1 (afterColor cfg m cur i).2 is

/-- The pixels a list of opcodes stands for, each count expanded. -/
def pixelsOf (cfg : Config) : Cache → Color → List Instr → List Color
  | _, _, [] => []
  | m, cur, i :: is =>
    List.replicate (pixelCount i) (opcodeColor m cur i)
      ++ pixelsOf cfg (afterColor cfg m cur i).1 (afterColor cfg m cur i).2 is

theorem afterColors_append (cfg : Config) (is js : List Instr) (m : Cache) (cur : Color) :
    afterColors cfg m cur (is ++ js) = afterColors cfg (afterColors cfg m cur is).1 (afterColors cfg m cur is).2 js := by
  induction is generalizing m cur with
  | nil => rfl
  | cons i is ih => exact ih ..

theorem pixelsOf_append (cfg : Config) (is js : List Instr) (m : Cache) (cur : Color) :
    pixelsOf cfg m cur (is ++ js) =
      pixelsOf cfg m cur is ++ pixelsOf cfg (afterColors cfg m cur is).1 (afterColors cfg m cur is).2 js := by
  induction is generalizing m cur with
  | nil => rfl
  | cons i is ih => simp only [List.cons_append, pixelsOf, ih, List.append_assoc, afterColors]

/-! ### Deltas -/

/-- The decoder's addition undoes the encoder's difference, in both modes (R165). -/
theorem add8_delta (wrap : Bool) (x p : Byte) : add8 p (delta wrap x p) = x := by
  apply BitVec.eq_of_toNat_eq
  have hx := x.isLt
  have hp := p.isLt
  cases wrap
  · simp only [add8, delta, Bool.false_eq_true, if_false, BitVec.toNat_ofInt]
    rw [show (p.toNat : Int) + ((x.toNat : Int) - p.toNat) = x.toNat by omega]
    omega
  · simp only [add8, delta, if_true, BitVec.toNat_ofInt, BitVec.toInt_eq_toNat_cond, BitVec.toNat_sub]
    split <;> omega

/-- What a miss is encoded as decodes to the pixel (R156 to R159, R192 to R196). -/
theorem chooseMiss_color (cfg : Config) (m : Cache) (px p : Color) : opcodeColor m p (chooseMiss cfg px p) = px := by
  unfold chooseMiss
  simp only
  split
  · next h => obtain ⟨ha, -⟩ := h; simp only [opcodeColor, diffColor, add8_delta, ← ha]
  · split
    · next h =>
      obtain ⟨ha, -⟩ := h
      simp only [opcodeColor, lumaColor, diffColor]
      rw [show ∀ a b : Int, a + (b - a) = b by intros; omega, show ∀ a b : Int, a + (b - a) = b by intros; omega]
      simp only [add8_delta, ← ha]
    · split
      · next h => simp only [opcodeColor, ← h]
      · rfl

/-- The choice of a miss is one opcode that stands for one pixel and has an encoding. -/
theorem chooseMiss_wellFormed (cfg : Config) (px p : Color) :
    (chooseMiss cfg px p).wellFormed cfg = true ∧ (chooseMiss cfg px p).part = .opcode
      ∧ pixelCount (chooseMiss cfg px p) = 1 := by
  unfold chooseMiss
  simp only
  split
  · next h =>
    obtain ⟨-, h1, h2, h3⟩ := h
    exact ⟨by simp [Instr.wellFormed, h1, h2, h3], rfl, rfl⟩
  · split
    · next h =>
      obtain ⟨-, h1, h2, h3⟩ := h
      exact ⟨by simp [Instr.wellFormed, h1, h2, h3], rfl, rfl⟩
    · split <;> exact ⟨rfl, rfl, rfl⟩

/-! ### What the encoder emits -/

/-- An opcode that has an encoding. -/
abbrev Emittable (cfg : Config) (i : Instr) : Prop := i.wellFormed cfg = true ∧ i.part = .opcode

theorem pendingInstrs_emittable (cfg : Config) {run : BitVec 6} (h : run.toNat ≤ 62) :
    ∀ i ∈ pendingInstrs run, Emittable cfg i := by
  intro i hi
  unfold pendingInstrs at hi
  split at hi
  · simp at hi
  · next h0 =>
    simp only [List.mem_singleton] at hi
    subst hi
    have : run.toNat ≠ 0 := fun e => h0 (BitVec.eq_of_toNat_eq e)
    exact ⟨decide_eq_true (p := 1 ≤ run.toNat ∧ run.toNat ≤ 62) ⟨by omega, h⟩, rfl⟩

theorem missOrHit_emittable (cfg : Config) (e : Encoder) (px : Color) : Emittable cfg (missOrHit cfg e px) := by
  unfold missOrHit
  split
  · exact ⟨rfl, rfl⟩
  · exact ⟨(chooseMiss_wellFormed cfg px e.prev).1, (chooseMiss_wellFormed cfg px e.prev).2.1⟩

theorem pushInstrs_emittable (cfg : Config) {e : Encoder} (h : e.run.toNat ≤ 61) (px : Color) :
    ∀ i ∈ pushInstrs cfg e px, Emittable cfg i := by
  intro i hi
  unfold pushInstrs at hi
  split at hi
  · split at hi
    · simp only [List.mem_singleton] at hi; subst hi; exact ⟨rfl, rfl⟩
    · simp at hi
  · rcases List.mem_append.mp hi with hi | hi
    · exact pendingInstrs_emittable cfg (by omega) i hi
    · simp only [List.mem_singleton] at hi; subst hi; exact missOrHit_emittable cfg e px

/-- A push keeps E.RUN in 0..61 (R22). -/
theorem pushRegs_run_le (cfg : Config) {e : Encoder} (h : e.run.toNat ≤ 61) (px : Color) :
    (pushRegs cfg e px).run.toNat ≤ 61 := by
  unfold pushRegs
  split
  · simp only
    split
    · exact Nat.zero_le _
    · next hr =>
      have hne : (e.run + 1).toNat ≠ 62 := fun x => hr (BitVec.eq_of_toNat_eq x)
      have hadd : (e.run + 1).toNat = e.run.toNat + 1 := by
        rw [BitVec.toNat_add]; simp; omega
      omega
  · exact Nat.zero_le _

theorem instrsOf_emittable (cfg : Config) (pixels : List Color) (e : Encoder) (h : e.run.toNat ≤ 61) :
    (∀ i ∈ instrsOf cfg e pixels, Emittable cfg i) ∧ (regsAfter cfg e pixels).run.toNat ≤ 61 := by
  induction pixels generalizing e with
  | nil => exact ⟨by simp [instrsOf], h⟩
  | cons px rest ih =>
    obtain ⟨h1, h2⟩ := ih (pushRegs cfg e px) (pushRegs_run_le cfg h px)
    refine ⟨fun i hi => ?_, h2⟩
    rcases List.mem_append.mp hi with hi | hi
    · exact pushInstrs_emittable cfg h px i hi
    · exact h1 i hi

/-- Every opcode of a whole image has an encoding. -/
theorem imageInstrs_emittable (cfg : Config) (pixels : List Color) (e : Encoder) (h : e.run.toNat ≤ 61) :
    ∀ i ∈ imageInstrs cfg e pixels, Emittable cfg i := by
  intro i hi
  obtain ⟨h1, h2⟩ := instrsOf_emittable cfg pixels e h
  rcases List.mem_append.mp hi with hi | hi
  · exact h1 i hi
  · exact pendingInstrs_emittable cfg (by omega) i hi

/-! ### The simulation -/

/-- The encoder beside a decoder that has executed all it emitted: the same previous and current colour, the same caches but
perhaps in the seed's slot (R140). Only if `first`, the seed may be the previous colour without being in the encoder's
cache. -/
structure Beside (cfg : Config) (first : Prop) (e : Encoder) (m : Cache) (cur : Color) : Prop where
  cur_eq : cur = e.prev
  run_le : e.run.toNat ≤ 61
  agree : ∀ i, i ≠ hashOf cfg.hashW Color.seed → e.cache.lookup i = m.lookup i
  seed_slot : e.cache.lookup (hashOf cfg.hashW Color.seed) = m.lookup (hashOf cfg.hashW Color.seed)
    ∨ (first ∧ e.cache.lookup (hashOf cfg.hashW Color.seed) = Color.zero
        ∧ m.lookup (hashOf cfg.hashW Color.seed) = Color.seed)
  prev_slot : e.cache.lookup (hashOf cfg.hashW e.prev) = e.prev
    ∨ (first ∧ e.prev = Color.seed ∧ e.cache.lookup (hashOf cfg.hashW Color.seed) = Color.zero)

/-- Both units after reset. -/
theorem beside_reset (cfg : Config) : Beside cfg True Encoder.reset Cache.reset Color.seed where
  cur_eq := rfl
  run_le := by decide
  agree := fun _ _ => rfl
  seed_slot := .inl rfl
  prev_slot := .inr ⟨trivial, rfl, lookup_reset _⟩

/-- A cache hit of the encoder is the same colour in the decoder's cache. -/
theorem Beside.hit {cfg : Config} {first : Prop} {e : Encoder} {m : Cache} {cur : Color} (h : Beside cfg first e m cur)
    (ha : cfg.SeedApart) {px : Color} (hh : e.cache.lookup (hashOf cfg.hashW px) = px) :
    m.lookup (hashOf cfg.hashW px) = px := by
  by_cases hs : hashOf cfg.hashW px = hashOf cfg.hashW Color.seed
  · rcases h.seed_slot with hq | ⟨-, hz, -⟩
    · rw [hs, ← hq, ← hs, hh]
    · exfalso
      rw [← hs, hh] at hz
      rw [hz] at hs
      exact ha hs.symm
  · rw [← h.agree _ hs, hh]

/-- Storing the current colour, as an OP_RUN does, keeps the two beside each other. -/
theorem Beside.run {cfg : Config} {first : Prop} {e : Encoder} {m : Cache} {cur : Color} (h : Beside cfg first e m cur)
    (ha : cfg.SeedApart) : Beside cfg first e (m.store (hashOf cfg.hashW cur) cur) cur := by
  rcases h.prev_slot with hp | ⟨hf, hp, hz⟩
  · have : m.lookup (hashOf cfg.hashW cur) = cur := by rw [h.cur_eq]; exact h.hit ha hp
    rw [store_same this]; exact h
  · have hc : cur = Color.seed := h.cur_eq.trans hp
    subst hc
    exact {
      cur_eq := h.cur_eq
      run_le := h.run_le
      agree := fun i hi => by rw [lookup_store_other m _ hi]; exact h.agree i hi
      seed_slot := .inr ⟨hf, hz, lookup_store_same ..⟩
      prev_slot := .inr ⟨hf, hp, hz⟩ }

/-- The registers are beside the decoder's whatever the pending run, as long as it is one. -/
theorem Beside.withRun {cfg : Config} {first : Prop} {e : Encoder} {m : Cache} {cur : Color} (h : Beside cfg first e m cur)
    {r : BitVec 6} (hr : r.toNat ≤ 61) : Beside cfg first { e with run := r } m cur where
  cur_eq := h.cur_eq
  run_le := hr
  agree := h.agree
  seed_slot := h.seed_slot
  prev_slot := h.prev_slot

/-- A pixel stored by both and current in both. -/
theorem Beside.stored {cfg : Config} {first : Prop} {e : Encoder} {m : Cache} {cur : Color} (h : Beside cfg first e m cur)
    (px : Color) :
    Beside cfg first { cache := e.cache.store (hashOf cfg.hashW px) px, prev := px, run := 0 }
      (m.store (hashOf cfg.hashW px) px) px where
  cur_eq := rfl
  run_le := Nat.zero_le _
  agree := fun i hi => by
    by_cases hj : i = hashOf cfg.hashW px
    · subst hj; simp only [lookup_store_same]
    · simp only [lookup_store_other _ _ hj]; exact h.agree i hi
  seed_slot := by
    by_cases hj : hashOf cfg.hashW Color.seed = hashOf cfg.hashW px
    · left; rw [hj]; simp only [lookup_store_same]
    · simp only [lookup_store_other _ _ hj]; exact h.seed_slot
  prev_slot := .inl (lookup_store_same ..)

/-- The pending run, executed by the decoder. -/
theorem Beside.pending {cfg : Config} {first : Prop} {e : Encoder} {m : Cache} {cur : Color} (h : Beside cfg first e m cur)
    (ha : cfg.SeedApart) :
    pixelsOf cfg m cur (pendingInstrs e.run) = List.replicate e.run.toNat e.prev
      ∧ Beside cfg first e (afterColors cfg m cur (pendingInstrs e.run)).1
          (afterColors cfg m cur (pendingInstrs e.run)).2 := by
  unfold pendingInstrs
  split
  · next h0 => rw [h0]; exact ⟨rfl, h⟩
  · exact ⟨by simp only [pixelsOf, pixelCount, opcodeColor, List.append_nil, h.cur_eq], h.run ha⟩

/-- The opcode of a pixel that differs from the previous one, executed by the decoder. -/
theorem Beside.pixel {cfg : Config} {first : Prop} {e : Encoder} {m : Cache} {cur : Color} (h : Beside cfg first e m cur)
    (ha : cfg.SeedApart) (px : Color) :
    pixelsOf cfg m cur [missOrHit cfg e px] = [px]
      ∧ Beside cfg first { cache := e.cache.store (hashOf cfg.hashW px) px, prev := px, run := 0 }
          (afterColors cfg m cur [missOrHit cfg e px]).1 (afterColors cfg m cur [missOrHit cfg e px]).2 := by
  have hc : opcodeColor m cur (missOrHit cfg e px) = px ∧ pixelCount (missOrHit cfg e px) = 1 := by
    unfold missOrHit
    split
    · next hh => exact ⟨h.hit ha hh, rfl⟩
    · exact ⟨by rw [h.cur_eq]; exact chooseMiss_color .., (chooseMiss_wellFormed cfg px e.prev).2.2⟩
  refine ⟨by simp only [pixelsOf, hc.1, hc.2, List.replicate_one, List.append_nil], ?_⟩
  simp only [afterColors, afterColor, hc.1]
  exact h.stored px

/-- A push, executed by the decoder: the pixels that were pending and became opcodes. -/
theorem Beside.push {cfg : Config} {first : Prop} {e : Encoder} {m : Cache} {cur : Color} (h : Beside cfg first e m cur)
    (ha : cfg.SeedApart) (px : Color) :
    pixelsOf cfg m cur (pushInstrs cfg e px)
        ++ List.replicate (pushRegs cfg e px).run.toNat (pushRegs cfg e px).prev
      = List.replicate e.run.toNat e.prev ++ [px]
      ∧ Beside cfg first (pushRegs cfg e px) (afterColors cfg m cur (pushInstrs cfg e px)).1
          (afterColors cfg m cur (pushInstrs cfg e px)).2 := by
  unfold pushInstrs pushRegs
  by_cases hp : px = e.prev
  · have hadd : (e.run + 1).toNat = e.run.toNat + 1 := by
      have := h.run_le; rw [BitVec.toNat_add]; simp; omega
    by_cases hr : e.run + 1 = 62
    · have h61 : e.run.toNat + 1 = 62 := by rw [← hadd, hr]; rfl
      simp only [if_pos hp, if_pos hr]
      refine ⟨?_, (h.run ha).withRun (by decide)⟩
      simp only [pixelsOf, pixelCount, opcodeColor, h.cur_eq, List.append_nil, ← h61, hp]
      simp [List.replicate_succ']
    · have hne : (e.run + 1).toNat ≠ 62 := fun x => hr (BitVec.eq_of_toNat_eq x)
      have hrl := h.run_le
      simp only [if_pos hp, if_neg hr]
      refine ⟨?_, h.withRun (by omega)⟩
      simp only [pixelsOf, List.nil_append, hadd, hp]
      simp [List.replicate_succ']
  · simp only [if_neg hp]
    obtain ⟨h1, h2⟩ := h.pending ha
    obtain ⟨h3, h4⟩ := h2.pixel ha px
    refine ⟨?_, ?_⟩
    · rw [pixelsOf_append, h1, h3]; simp
    · rw [afterColors_append]; exact h4

/-- Any pixels, pushed and flushed, and the opcodes executed by the decoder. -/
theorem Beside.image {cfg : Config} {first : Prop} {e : Encoder} {m : Cache} {cur : Color} (h : Beside cfg first e m cur)
    (ha : cfg.SeedApart) (pixels : List Color) :
    pixelsOf cfg m cur (imageInstrs cfg e pixels) = List.replicate e.run.toNat e.prev ++ pixels
      ∧ Beside cfg first { regsAfter cfg e pixels with run := 0 } (afterColors cfg m cur (imageInstrs cfg e pixels)).1
          (afterColors cfg m cur (imageInstrs cfg e pixels)).2 := by
  induction pixels generalizing e m cur with
  | nil =>
    obtain ⟨h1, h2⟩ := h.pending ha
    simp only [imageInstrs, instrsOf, regsAfter, List.nil_append, List.append_nil]
    exact ⟨h1, h2.withRun (by decide)⟩
  | cons px rest ih =>
    obtain ⟨h1, h2⟩ := h.push ha px
    obtain ⟨h3, h4⟩ := ih h2
    have hcat : imageInstrs cfg e (px :: rest) = pushInstrs cfg e px ++ imageInstrs cfg (pushRegs cfg e px) rest := by
      simp only [imageInstrs, instrsOf, regsAfter, List.append_assoc]
    rw [hcat, pixelsOf_append, afterColors_append, h3, ← List.append_assoc, h1]
    exact ⟨by simp, h4⟩

/-- A first pixel that is not the seed leaves the two caches equal from then on. -/
theorem beside_first {cfg : Config} (ha : cfg.SeedApart) {px : Color} (hne : px ≠ Color.seed) :
    pixelsOf cfg Cache.reset Color.seed (pushInstrs cfg Encoder.reset px) = [px]
      ∧ Beside cfg False (pushRegs cfg Encoder.reset px)
        (afterColors cfg Cache.reset Color.seed (pushInstrs cfg Encoder.reset px)).1
        (afterColors cfg Cache.reset Color.seed (pushInstrs cfg Encoder.reset px)).2 := by
  have hp : ¬ px = Encoder.reset.prev := hne
  have h0 : pendingInstrs Encoder.reset.run = [] := rfl
  obtain ⟨h1, h2⟩ := (beside_reset cfg).pixel ha px
  have hpr : pushRegs cfg Encoder.reset px =
      { cache := Encoder.reset.cache.store (hashOf cfg.hashW px) px, prev := px, run := 0 } := if_neg hp
  have hpi : pushInstrs cfg Encoder.reset px = [missOrHit cfg Encoder.reset px] := by
    simp only [pushInstrs, if_neg hp, h0, List.nil_append]
  rw [hpi, hpr]
  refine ⟨h1, ?_⟩
  have hc : opcodeColor Cache.reset Color.seed (missOrHit cfg Encoder.reset px) = px := by
    exact h2.cur_eq
  simp only [afterColors, afterColor, hc]
  exact {
    cur_eq := rfl
    run_le := Nat.zero_le _
    agree := fun _ _ => rfl
    seed_slot := .inl rfl
    prev_slot := .inl (lookup_store_same ..) }

/-! ### The bytes -/

/-- The bytes of an emittable opcode decode to it. -/
theorem decodeOpcode_encode {cfg : Config} (hc : cfg.Legal) {i : Instr} (hi : Emittable cfg i) (rest : List Byte) :
    decodeOpcode cfg (encode cfg i ++ rest) = .ok (i, rest) := by
  obtain ⟨hw, hp⟩ := hi
  obtain ⟨-, hd, hg, hrb, -⟩ := id hc
  cases i with
  | opRgb r g b => simp only [encode, decodeOpcode, List.cons_append, List.nil_append, classify_rgb]
  | opRgba r g b a => simp only [encode, decodeOpcode, List.cons_append, List.nil_append, classify_rgba hc]
  | opIndex idx =>
    simp only [encode, decodeOpcode, List.cons_append, List.nil_append, classify_index hc, low_index]
  | opDiff dr dg db =>
    simp only [Instr.wellFormed, Bool.and_eq_true, decide_eq_true_eq] at hw
    simp only [encode, decodeOpcode, List.cons_append, List.nil_append, classify_diff hc, red_diff, green_diff, blue_diff,
      unbias_bias hd hw.1.1, unbias_bias hd hw.1.2, unbias_bias hd hw.2]
  | opLuma dg drg dbg =>
    simp only [Instr.wellFormed, Bool.and_eq_true, decide_eq_true_eq] at hw
    simp only [encode, decodeOpcode, List.cons_append, List.nil_append, classify_luma hc, low_luma, redNibble_pack,
      blueNibble_pack, unbias_bias hg hw.1.1, unbias_bias hrb hw.1.2, unbias_bias hrb hw.2]
  | opRun n =>
    have hw' : 1 ≤ n ∧ n ≤ 62 := of_decide_eq_true hw
    have hn : (BitVec.ofNat 6 (n - 1)).toNat = n - 1 := by rw [BitVec.toNat_ofNat]; omega
    have hle : (BitVec.ofNat 6 (n - 1)).toNat ≤ 61 := by omega
    simp only [encode, decodeOpcode, List.cons_append, List.nil_append, classify_run hc _ hle, low_run, hn]
    rw [show n - 1 + 1 = n by omega]
  | hdr w h ch cs => simp [Instr.part] at hp
  | endMarker => simp [Instr.part] at hp

theorem encode_length_pos (cfg : Config) {i : Instr} (hp : i.part = .opcode) : 1 ≤ (encode cfg i).length := by
  cases i <;> simp [encode, Instr.part] at hp ⊢

/-- The pixels a list of opcodes stands for, counted. -/
def countAll (is : List Instr) : Nat := (is.map pixelCount).sum

theorem pixelsOf_length (cfg : Config) (is : List Instr) (m : Cache) (cur : Color) :
    (pixelsOf cfg m cur is).length = countAll is := by
  induction is generalizing m cur with
  | nil => rfl
  | cons i is ih => simp only [pixelsOf, List.length_append, List.length_replicate, ih, countAll, List.map_cons, List.sum_cons]

/-- A pushed and flushed image stands for its pixels and those that were pending. -/
theorem imageInstrs_count (cfg : Config) (pixels : List Color) (e : Encoder) (h : e.run.toNat ≤ 61) :
    countAll (imageInstrs cfg e pixels) = e.run.toNat + pixels.length := by
  have hpend : ∀ r : BitVec 6, countAll (pendingInstrs r) = r.toNat := by
    intro r; unfold pendingInstrs; split
    · next h => rw [h]; rfl
    · simp [countAll, pixelCount]
  have happ : ∀ a b : List Instr, countAll (a ++ b) = countAll a + countAll b := by intro a b; simp [countAll]
  induction pixels generalizing e with
  | nil => simp only [imageInstrs, instrsOf, regsAfter, List.nil_append, hpend]; simp
  | cons px rest ih =>
    have h1 := ih (pushRegs cfg e px) (pushRegs_run_le cfg h px)
    have hcat : imageInstrs cfg e (px :: rest) = pushInstrs cfg e px ++ imageInstrs cfg (pushRegs cfg e px) rest := by
      simp only [imageInstrs, instrsOf, regsAfter, List.append_assoc]
    rw [hcat, happ, h1, List.length_cons]
    by_cases hp : px = e.prev
    · subst hp
      by_cases h6 : e.run.toNat = 61
      · obtain ⟨h1, h2⟩ := push_equal_full cfg h6
        rw [h1, h2]; simp [countAll, pixelCount]; omega
      · obtain ⟨h1, h2, h3⟩ := push_equal_grows cfg (e := e) (by omega)
        rw [h1, h2]; simp only [h3]; simp [countAll]; omega
    · obtain ⟨h1, h2⟩ := push_differs cfg hp
      have : countAll [missOrHit cfg e px] = 1 := by
        have : pixelCount (missOrHit cfg e px) = 1 := by
          unfold missOrHit; split
          · rfl
          · exact (chooseMiss_wellFormed cfg px e.prev).2.2
        simp [countAll, this]
      rw [h1, h2, happ, hpend, this]
      simp; omega

/-- The loop of DEC_IMAGE on the bytes of a list of opcodes that fill the image exactly. -/
theorem imageLoop_encoded (is : List Instr) (k : Nat) (s : State) (tail : List Byte) (hc : s.cfg.Legal)
    (hi : ∀ i ∈ is, Emittable s.cfg i) (he : s.dec.err = none) (hk : is.length ≤ k)
    (hs : s.source = encodeAll s.cfg is ++ tail) (hn : s.dec.idx.toNat + countAll is = s.dec.npix.toNat) :
    ∃ p r, imageLoop k s = .next { s with
      source := tail, pixOut := s.pixOut ++ pixelsOf s.cfg s.dec.cache s.dec.cur is, decResult := r
      dec := { s.dec with
        cache := (afterColors s.cfg s.dec.cache s.dec.cur is).1, cur := (afterColors s.cfg s.dec.cache s.dec.cur is).2
        pos := p, idx := s.dec.npix } } := by
  induction is generalizing k s with
  | nil =>
    have hd : ¬ s.dec.idx < s.dec.npix := by
      rw [BitVec.lt_def]; simp [countAll] at hn; omega
    have hx : s.dec.idx = s.dec.npix := by
      apply BitVec.eq_of_toNat_eq; simpa [countAll] using hn
    refine ⟨s.dec.pos, s.decResult, ?_⟩
    have hs' : tail = s.source := hs.symm
    rw [imageLoop_done hd, hs']
    simp only [pixelsOf, List.append_nil, afterColors]
    exact congrArg (fun x => Host.Outcome.next { s with dec := { s.dec with idx := x } }) hx
  | cons i is ih =>
    obtain ⟨k, rfl⟩ : ∃ k', k = k' + 1 := ⟨k - 1, by simp at hk; omega⟩
    have hi0 : Emittable s.cfg i := hi i (List.mem_cons_self ..)
    have hs' : s.source = encode s.cfg i ++ (encodeAll s.cfg is ++ tail) := by rw [hs]; simp
    have hd : decodeOpcode s.cfg s.source = .ok (i, encodeAll s.cfg is ++ tail) := by
      rw [hs']; exact decodeOpcode_encode hc hi0 _
    have hpos := decodeOpcode_count_pos hd
    have hsum : countAll (i :: is) = pixelCount i + countAll is := by simp [countAll]
    have hlt : s.dec.idx < s.dec.npix := by rw [BitVec.lt_def]; omega
    rw [imageLoop_opcode hlt he hd, if_neg (by omega)]
    have hadd := toNat_add_count (idx := s.dec.idx) (npix := s.dec.npix) (n := pixelCount i) (by omega)
    obtain ⟨p, r, hih⟩ := ih k
      (deliver (opcodeColor s.dec.cache s.dec.cur i) (pixelCount i) (afterOpcode i (encodeAll s.cfg is ++ tail) s))
      hc (fun j hj => hi j (List.mem_cons_of_mem _ hj)) he (by simp at hk; omega) rfl
      (by show (s.dec.idx + BitVec.ofNat 64 (pixelCount i)).toNat + _ = s.dec.npix.toNat; rw [hadd]; omega)
    refine ⟨p, r, ?_⟩
    rw [hih]
    simp only [deliver, afterOpcode, produce, pixelsOf, afterColors, afterColor, List.append_assoc]

end Sys2Proof.Machine
end

