-- ==== Sys2Proof/Laws/Position.lean ====
section
/-! SUPPORT. D.POS counts the bytes taken (spec/10_state.md R27), for a fetch, a header and the whole loop of DEC_IMAGE; and the
loop through a list of opcodes that does not yet fill the image. -/

namespace Sys2Proof.Machine

open Sys2Proof

/-- From s to t the source lost a part from its front, and D.POS grew by its length if that fits. -/
def Counted (s t : State) : Prop :=
  ∃ taken, s.source = taken ++ t.source
    ∧ (s.dec.pos.toNat + taken.length < 2 ^ 64 → t.dec.pos = s.dec.pos + BitVec.ofNat 64 taken.length)

theorem Counted.rfl' {s t : State} (h1 : t.source = s.source) (h2 : t.dec.pos = s.dec.pos) : Counted s t :=
  ⟨[], by rw [h1]; rfl, fun _ => by rw [h2]; simp⟩

theorem Counted.trans {s t u : State} (h1 : Counted s t) (h2 : Counted t u) : Counted s u := by
  obtain ⟨a, ha, pa⟩ := h1
  obtain ⟨b, hb, pb⟩ := h2
  refine ⟨a ++ b, by rw [ha, hb, List.append_assoc], fun h => ?_⟩
  rw [List.length_append] at h
  have e1 := pa (by omega)
  have e2 : t.dec.pos.toNat = s.dec.pos.toNat + a.length := by
    rw [e1, BitVec.toNat_add, BitVec.toNat_ofNat]; omega
  rw [pb (by omega), e1, List.length_append, BitVec.ofNat_add, BitVec.add_assoc]

theorem takeBytes_counted {s : State} {n : Nat} (h : n ≤ s.source.length) : Counted s (takeBytes n s) := by
  refine ⟨s.source.take n, (List.take_append_drop ..).symm, fun hp => ?_⟩
  rw [List.length_take, Nat.min_eq_left h] at hp ⊢
  exact advancePos_of_lt hp

/-- A fetch counts what it takes, whether it ends in an opcode or in a short read. -/
theorem fetchOpcode_counted (s : State) :
    (∃ t, fetchOpcode s = .failed t ∧ Counted s t)
    ∨ (∃ i tail, decodeOpcode s.cfg s.source = .ok (i, tail) ∧ i.part = .opcode ∧ Counted s (afterOpcode i tail s)) := by
  rcases fetchOpcode_cases s with ⟨-, h⟩ | ⟨b0, ops, hs, -, h⟩ | ⟨i, b0, ops, tail, hs, -, hd, hp, hn, -⟩
  · exact .inl ⟨_, h, takeBytes_counted (Nat.zero_le _)⟩
  · refine .inl ⟨_, h, ?_⟩
    have h1 : Counted s (takeBytes 1 s) := takeBytes_counted (by simp [hs])
    have h2 : Counted (takeBytes 1 s) (takeBytes ops.length (takeBytes 1 s)) := takeBytes_counted (by simp [hs])
    exact h1.trans h2
  · refine .inr ⟨i, tail, hd, hp, b0 :: ops, by rw [hs]; rfl, fun hlt => ?_⟩
    have hl : i.length - 1 = ops.length := by omega
    show fetchedPos s.dec.pos (i.length - 1) = _
    rw [List.length_cons] at hlt ⊢
    rw [hl, fetchedPos_of_lt (by omega), Nat.add_comm 1]

theorem fetchAndExec_counted {s t : State} (h : fetchAndExec s = .next t) : Counted s t := by
  rcases fetchOpcode_counted s with ⟨u, hf, hu⟩ | ⟨i, tail, hd, -, hc⟩
  · rw [fetchAndExec, hf] at h; cases h; exact hu
  · rw [fetchAndExec_opcode hd] at h; cases h; exact hc

theorem headerAndExec_counted {s t : State} (h : headerAndExec s = .next t) : Counted s t := by
  have short : ∀ n, n ≤ s.source.length → Counted s (takeBytes n s) := fun n hn => takeBytes_counted hn
  rcases headerAndExec_cases s with ⟨-, h'⟩ | ⟨k, -, -, hl, h'⟩ | ⟨w, h', ch, cs, -, hs, h''⟩
  · rw [h'] at h; cases h; exact short _ (Nat.le_refl _)
  · rw [h'] at h; cases h; exact short _ hl
  · rw [h''] at h; cases h
    have hl : (headerBytes s.cfg w h' ch cs).length = 14 := by simp [headerBytes, be32]
    exact short 14 (by rw [hs, List.length_append, hl]; omega)

theorem imageLoop_counted (k : Nat) (s t : State) (he : s.dec.err = none) (h : imageLoop k s = .next t) : Counted s t := by
  induction k generalizing s with
  | zero => simp only [imageLoop] at h; split at h <;> (cases h; exact .rfl' rfl rfl)
  | succ k ih =>
    by_cases hlt : s.dec.idx < s.dec.npix
    · rcases fetchOpcode_counted s with ⟨u, hf, hu⟩ | ⟨i, tail, hd, -, hc⟩
      · rw [imageLoop_failed hlt hf] at h; cases h; exact hu
      · rw [imageLoop_opcode hlt he hd] at h
        split at h
        · cases h; exact hc
        · exact hc.trans
            (ih (deliver (opcodeColor s.dec.cache s.dec.cur i) (pixelCount i) (afterOpcode i tail s)) he h)
    · rw [imageLoop_done hlt] at h; cases h; exact .rfl' rfl rfl

/-- DEC_IMAGE counts from its own reset. -/
theorem imageAndExec_counted {s t : State} (h : imageAndExec s = .next t) : Counted (decReset s) t := by
  unfold imageAndExec at h
  split at h
  · next s1 h1 =>
    have c1 := headerAndExec_counted h1
    split at h
    · next he =>
      split at h
      · next s2 h2 =>
        have c2 : Counted s1 s2 := by
          unfold decodePixels at h2
          split at h2
          · cases h2; exact .rfl' rfl rfl
          · exact imageLoop_counted _ (setPixelTotal s1) s2 he h2
        cases h
        have c3 : Counted s2 (closeImage s.pixOut s2) := by
          unfold closeImage; split <;> exact .rfl' rfl rfl
        exact (c1.trans c2).trans c3
      · cases h
      · cases h
    · cases h
      have c3 : Counted s1 (foldHeaderError s1) := by
        unfold foldHeaderError; split <;> exact .rfl' rfl rfl
      exact c1.trans c3
  · cases h
  · cases h

/-- The loop of DEC_IMAGE through a list of opcodes that leaves pixels missing: it goes on from the state they leave. -/
theorem imageLoop_through (is : List Instr) (k : Nat) (s : State) (tail : List Byte) (hc : s.cfg.Legal)
    (hi : ∀ i ∈ is, Emittable s.cfg i) (he : s.dec.err = none)
    (hs : s.source = encodeAll s.cfg is ++ tail) (hn : s.dec.idx.toNat + countAll is < s.dec.npix.toNat) :
    ∃ p r, (s.dec.pos.toNat + (encodeAll s.cfg is).length < 2 ^ 64 →
        p.toNat = s.dec.pos.toNat + (encodeAll s.cfg is).length)
      ∧ imageLoop (k + is.length) s = imageLoop k { s with
      source := tail, pixOut := s.pixOut ++ pixelsOf s.cfg s.dec.cache s.dec.cur is, decResult := r
      dec := { s.dec with
        cache := (afterColors s.cfg s.dec.cache s.dec.cur is).1, cur := (afterColors s.cfg s.dec.cache s.dec.cur is).2
        pos := p, idx := s.dec.idx + BitVec.ofNat 64 (countAll is) } } := by
  induction is generalizing s with
  | nil =>
    refine ⟨s.dec.pos, s.decResult, fun _ => by simp, ?_⟩
    have hs' : tail = s.source := hs.symm
    rw [hs']
    simp [pixelsOf, afterColors, countAll]
  | cons i is ih =>
    have hi0 : Emittable s.cfg i := hi i (List.mem_cons_self ..)
    have hs' : s.source = encode s.cfg i ++ (encodeAll s.cfg is ++ tail) := by rw [hs]; simp
    have hd : decodeOpcode s.cfg s.source = .ok (i, encodeAll s.cfg is ++ tail) := by
      rw [hs']; exact decodeOpcode_encode hc hi0 _
    have hpos := decodeOpcode_count_pos hd
    have hsum : countAll (i :: is) = pixelCount i + countAll is := by simp [countAll]
    have hlt : s.dec.idx < s.dec.npix := by rw [BitVec.lt_def]; omega
    have hadd := toNat_add_count (idx := s.dec.idx) (npix := s.dec.npix) (n := pixelCount i) (by omega)
    obtain ⟨p, r, hp, hih⟩ := ih
      (deliver (opcodeColor s.dec.cache s.dec.cur i) (pixelCount i) (afterOpcode i (encodeAll s.cfg is ++ tail) s))
      hc (fun j hj => hi j (List.mem_cons_of_mem _ hj)) he rfl
      (by show (s.dec.idx + BitVec.ofNat 64 (pixelCount i)).toNat + _ < s.dec.npix.toNat; rw [hadd]; omega)
    refine ⟨p, r, fun hlen => ?_, ?_⟩
    · have hl : (encode s.cfg i).length = 1 + (i.length - 1) := by
        have h1 := (fetchOpcode_eq hd).2.1
        obtain ⟨b0, ops, e1, -, -, e2, -⟩ := fetchOpcode_whole (s := s) hd
        have e3 : (encode s.cfg i ++ (encodeAll s.cfg is ++ tail)).length = (b0 :: (ops ++ (encodeAll s.cfg is ++ tail))).length := by
          rw [← hs', e1]
        simp only [List.length_append, List.length_cons] at e3
        omega
      simp only [encodeAll_cons, List.length_append] at hlen ⊢
      have hp0 : (deliver (opcodeColor s.dec.cache s.dec.cur i) (pixelCount i)
          (afterOpcode i (encodeAll s.cfg is ++ tail) s)).dec.pos.toNat = s.dec.pos.toNat + (encode s.cfg i).length := by
        show (fetchedPos s.dec.pos (i.length - 1)).toNat = _
        rw [fetchedPos_of_lt (by omega), ← hl, BitVec.toNat_add, BitVec.toNat_ofNat]; omega
      rw [hp0] at hp
      have := hp (by
        show s.dec.pos.toNat + (encode s.cfg i).length + (encodeAll s.cfg is).length < 2 ^ 64
        omega)
      rw [this]
      show s.dec.pos.toNat + (encode s.cfg i).length + (encodeAll s.cfg is).length = _
      omega
    · rw [List.length_cons, ← Nat.add_assoc, imageLoop_opcode hlt he hd, if_neg (by omega), hih]
      simp only [deliver, afterOpcode, produce, pixelsOf, afterColors, afterColor, List.append_assoc, hsum, BitVec.ofNat_add,
        BitVec.add_assoc]

end Sys2Proof.Machine
end

