-- ==== Sys2Proof/Laws/Units.lean ====
section
/-! SUPPORT. What a whole decoder command can do to the state, one lemma per command, that it does the same whatever the rest of
the state holds, and runs of several encoder commands. -/

namespace Sys2Proof.Machine

open Sys2Proof

/-! ### What a decoder command can change -/

/-- DEC_FETCH: the source loses a part from its front, and of the decoder only the cache, the current colour, the position
and the error register can change (R190, R38). -/
theorem fetchAndExec_frame (s : State) : ∃ t p, fetchAndExec s = .next t ∧ (∃ taken, s.source = taken ++ t.source)
    ∧ t = { s with
        source := t.source, decResult := t.decResult
        dec := { s.dec with cache := t.dec.cache, cur := t.dec.cur, pos := p, err := t.dec.err } }
    ∧ (s.dec.cache.Hashed s.cfg.hashW → t.dec.cache.Hashed s.cfg.hashW) := by
  rcases fetchOpcode_inv s with ⟨p, hf⟩ | ⟨i, tail, b0, ops, hs, -, hd, -, -, -⟩
  · have hx : fetchAndExec s = .next (raise .endOfStream { s with source := [], dec := { s.dec with pos := p } }) := by
      rw [fetchAndExec, hf]; rfl
    exact ⟨_, p, hx, ⟨s.source, by simp⟩, rfl, id⟩
  · exact ⟨_, _, fetchAndExec_opcode hd, ⟨b0 :: ops, by rw [hs]; simp [afterOpcode, produce]⟩, rfl,
      fun hh => hashed_store hh _⟩

/-- DEC_HEADER: the source loses a part from its front, the cache, the current colour and the counters of DEC_IMAGE stay, and
the header registers stay or hold a header with recognized tags (R112, R32). -/
theorem headerAndExec_frame (s : State) : ∃ t p, headerAndExec s = .next t ∧ (∃ taken, s.source = taken ++ t.source)
    ∧ t = { s with
        source := t.source, decResult := t.decResult
        dec := { t.dec with
          cache := s.dec.cache, cur := s.dec.cur, pos := p, idx := s.dec.idx, npix := s.dec.npix } }
    ∧ ((t.dec.hdrValid = s.dec.hdrValid ∧ t.dec.width = s.dec.width ∧ t.dec.height = s.dec.height
          ∧ t.dec.channels = s.dec.channels ∧ t.dec.colorspace = s.dec.colorspace)
      ∨ (t.dec.hdrValid = true ∧ tagsLegal s.cfg t.dec.channels t.dec.colorspace)) := by
  rcases headerAndExec_cases s with ⟨-, h⟩ | ⟨k, -, -, -, h⟩ | ⟨w, h', ch, cs, ht, -, h⟩
  · exact ⟨_, _, h, ⟨s.source, by simp⟩, rfl, .inl ⟨rfl, rfl, rfl, rfl, rfl⟩⟩
  · exact ⟨_, _, h, ⟨s.source.take 14, by simp⟩, rfl, .inl ⟨rfl, rfl, rfl, rfl, rfl⟩⟩
  · exact ⟨_, _, h, ⟨s.source.take 14, by simp⟩, rfl, .inr ⟨rfl, ht⟩⟩

/-- What DEC_IMAGE leaves of the registers: a part of the source taken, the counters in order, the cache and the header
registers legal. -/
structure ImageFrame (s t : State) : Prop where
  taken : ∃ taken, s.source = taken ++ t.source
  frame : t = { s with source := t.source, dec := t.dec, pixOut := t.pixOut, decResult := t.decResult }
  idx : t.dec.idx.toNat ≤ t.dec.npix.toNat
  hashed : t.dec.cache.Hashed t.cfg.hashW
  noHeader : t.dec.hdrValid = false →
    t.dec.width = 0 ∧ t.dec.height = 0 ∧ t.dec.channels = 0 ∧ t.dec.colorspace = 0
  header : t.dec.hdrValid = true → tagsLegal t.cfg t.dec.channels t.dec.colorspace

theorem imageAndExec_frame (s : State) : ∃ t, imageAndExec s = .next t ∧ ImageFrame s t := by
  rcases headerAndExec_cases (decReset s) with ⟨-, h⟩ | ⟨k, -, -, -, h⟩ | ⟨w, h', ch, cs, ht, -, h⟩
  · refine ⟨_, imageAndExec_headerError h rfl, ?_⟩
    rw [foldHeaderError_short]
    exact {
      taken := ⟨s.source, by simp [raise, takeBytes, decReset]⟩
      frame := rfl
      idx := Nat.le_refl _
      hashed := hashed_reset _
      noHeader := fun _ => ⟨rfl, rfl, rfl, rfl⟩
      header := fun h => nomatch h }
  · refine ⟨_, imageAndExec_headerError h rfl, ?_⟩
    unfold foldHeaderError
    split
    all_goals
      exact {
        taken := ⟨s.source.take 14, by simp [raise, takeBytes, decReset]⟩
        frame := rfl
        idx := Nat.le_refl _
        hashed := hashed_reset _
        noHeader := fun _ => ⟨rfl, rfl, rfl, rfl⟩
        header := fun h => nomatch h }
  · let s1 := acceptHeader w h' ch cs (takeBytes 14 (decReset s))
    by_cases hm : w.toNat * h'.toNat ≤ s.cfg.maxPixels
    · have hfit := decodePixels_fits (s := s1) hm
      obtain ⟨t, ht', ⟨taken, h1⟩, h2, h3, h4, -⟩ :=
        imageLoop_ends _ (setPixelTotal s1) rfl (Nat.zero_le _) (Nat.le_refl _)
      refine ⟨_, imageAndExec_accepted h rfl (hfit.trans ht'), ?_⟩
      have h1' : s.source.drop 14 = taken ++ t.source := h1
      have htk : s.source = (s.source.take 14 ++ taken) ++ t.source := by
        rw [List.append_assoc, ← h1', List.take_append_drop]
      have hc : t.cfg = s.cfg := by rw [h2]; rfl
      have hv : t.dec.hdrValid = true := by rw [h2]; rfl
      have hch : t.dec.channels = ch := by rw [h2]; rfl
      have hcs : t.dec.colorspace = cs := by rw [h2]; rfl
      have htags : tagsLegal t.cfg t.dec.channels t.dec.colorspace := by rw [hc, hch, hcs]; exact ht
      unfold closeImage
      split
      all_goals
        exact {
          taken := ⟨_, htk⟩
          frame := by rw [h2]; rfl
          idx := h3
          hashed := h4 (hashed_reset _)
          noHeader := fun h => by rw [show t.dec.hdrValid = false from h] at hv; cases hv
          header := fun _ => htags }
    · have hb := decodePixels_oversized (s := s1) (show s.cfg.maxPixels < w.toNat * h'.toNat by omega)
      refine ⟨_, imageAndExec_accepted h rfl hb, ?_⟩
      rw [closeImage_failed (by simp)]
      exact {
        taken := ⟨s.source.take 14, by simp [s1, raise, takeBytes, decReset]⟩
        frame := rfl
        idx := Nat.zero_le _
        hashed := hashed_reset _
        noHeader := fun h => nomatch h
        header := fun _ => ht }

/-! ### The rest of the state does not matter -/

theorem headerAndExec_beside (o s : State) : headerAndExec (s.decPartOf o) = beside o (headerAndExec s) := by
  unfold headerAndExec
  rw [fetchHeader_beside]
  by_cases h : s.source.length < 14
  · rw [fetchHeader_short h]; rfl
  · have hl : (s.source.take 14).length = 14 := by simp; omega
    have hs : s.source = s.source.take 14 ++ s.source.drop 14 := (List.take_append_drop ..).symm
    rw [fetchHeader_whole hs hl]
    rcases decodeTaken_header (s := takeBytes 14 s) hl with ⟨w, h, ch, cs, -, hd⟩ | ⟨-, hd⟩
    · rw [hd]; exact exec_beside o (.hdr w h ch cs) (by simp) _
    · rw [hd]; rfl

theorem fetchAndExec_beside (o s : State) : fetchAndExec (s.decPartOf o) = beside o (fetchAndExec s) := by
  unfold fetchAndExec
  rw [fetchOpcode_beside]
  rcases fetchOpcode_inv s with ⟨p, hf⟩ | ⟨i, tail, b0, ops, -, -, -, hp, -, hf⟩
  · rw [hf]; rfl
  · rw [hf]; exact exec_beside o _ (by rintro rfl; cases hp) _

theorem foldHeaderError_beside (o s : State) : foldHeaderError (s.decPartOf o) = (foldHeaderError s).decPartOf o := by
  unfold foldHeaderError
  by_cases h : s.cfg.hdrErrFold ∧ (s.dec.err = some .invalidMagic ∨ s.dec.err = some .invalidTag)
  · rw [if_pos h]; exact if_pos h
  · rw [if_neg h]; exact if_neg h

theorem closeImage_beside (o : State) (before : List Color) (s : State) :
    closeImage before (s.decPartOf o) = (closeImage before s).decPartOf o := by
  by_cases h : s.dec.err = none
  · rw [closeImage_done h, closeImage_done (s := s.decPartOf o) h]; rfl
  · rw [closeImage_failed h, closeImage_failed (s := s.decPartOf o) h]; rfl

theorem imageAndExec_beside (o s : State) : imageAndExec (s.decPartOf o) = beside o (imageAndExec s) := by
  have hb := headerAndExec_beside o (decReset s)
  rcases headerAndExec_cases (decReset s) with ⟨-, h⟩ | ⟨k, -, -, -, h⟩ | ⟨w, h', ch, cs, -, -, h⟩
  · rw [h] at hb
    rw [imageAndExec_headerError h rfl, imageAndExec_headerError (s := s.decPartOf o) hb rfl]
    exact congrArg Host.Outcome.next (foldHeaderError_beside o _)
  · rw [h] at hb
    rw [imageAndExec_headerError h rfl, imageAndExec_headerError (s := s.decPartOf o) hb rfl]
    exact congrArg Host.Outcome.next (foldHeaderError_beside o _)
  · rw [h] at hb
    let s1 := acceptHeader w h' ch cs (takeBytes 14 (decReset s))
    by_cases hm : w.toNat * h'.toNat ≤ s.cfg.maxPixels
    · have hfit := decodePixels_fits (s := s1) hm
      have hfit' := decodePixels_fits (s := s1.decPartOf o) hm
      obtain ⟨u, hu, -⟩ := imageLoop_ends _ (setPixelTotal s1) rfl (Nat.zero_le _) (Nat.le_refl _)
      have hu1 : imageLoop s1.source.length (setPixelTotal s1) = .next u := hu
      have hu2 := imageLoop_beside o s1.source.length (setPixelTotal s1) rfl
      rw [hu1] at hu2
      rw [imageAndExec_accepted h rfl (hfit.trans hu1),
        imageAndExec_accepted (s := s.decPartOf o) hb rfl (hfit'.trans hu2)]
      exact congrArg Host.Outcome.next (closeImage_beside o _ u)
    · have hbig : s.cfg.maxPixels < w.toNat * h'.toNat := by omega
      have h1 := decodePixels_oversized (s := s1) hbig
      have h2 := decodePixels_oversized (s := s1.decPartOf o) hbig
      rw [imageAndExec_accepted h rfl h1, imageAndExec_accepted (s := s.decPartOf o) hb rfl h2]
      rfl

/-! ### Several commands -/

/-- A run of one more step. -/
theorem run_succ {k : Nat} {s t : State} (h : step s = .next t) :
    Host.Core.run Sys2Proof.core (k + 1) s = Host.Core.run Sys2Proof.core k t := by
  have : Sys2Proof.core.step s = .next t := h
  simp only [Host.Core.run, this]

/-- The pushes at the head of the queue, executed one after another. -/
theorem run_pushes (pixels : List Color) (k : Nat) (s : State) (cmds : List Command)
    (hc : s.commands = pixels.map .encPush ++ cmds) :
    Host.Core.run Sys2Proof.core (pixels.length + k) s =
      Host.Core.run Sys2Proof.core k ({ encPushAll pixels s with commands := cmds } : State) := by
  induction pixels generalizing s with
  | nil =>
    have : s = { s with commands := cmds } := by rw [← show s.commands = cmds from hc]
    simp only [List.length_nil, Nat.zero_add, encPushAll, List.foldl_nil]
    rw [← this]
  | cons px rest ih =>
    rw [show (px :: rest).length + k = (rest.length + k) + 1 by simp; omega]
    have hc' : s.commands = .encPush px :: (rest.map .encPush ++ cmds) := hc
    rw [run_succ (step_encPush hc'), ih _ rfl]
    simp only [encPushAll_eq, regsAfter, instrsOf, encodeAll_append, List.append_assoc]

/-- The encoder's cache stays legal under any pushes (R139). -/
theorem regsAfter_hashed (cfg : Config) (pixels : List Color) (e : Encoder) (h : e.cache.Hashed cfg.hashW) :
    (regsAfter cfg e pixels).cache.Hashed cfg.hashW := by
  induction pixels generalizing e with
  | nil => exact h
  | cons px rest ih =>
    apply ih
    unfold pushRegs
    split
    · exact h
    · exact hashed_store h _

end Sys2Proof.Machine
end

