-- ==== Sys2Proof/Laws/Whole.lean ====
section
/-! SUPPORT. DEC_IMAGE as its parts: behind an accepted header its loop does what the fetches a host issues itself do, for any
opcodes; and the two tags change nothing in it. -/

namespace Sys2Proof.Machine

open Sys2Proof

/-! ### Behind an accepted header -/

/-- D.NPIX as a number of the 64-bit register. -/
theorem npix_ofNat (w h : BitVec 32) :
    (w.zeroExtend 64 * h.zeroExtend 64 : BitVec 64) = BitVec.ofNat 64 (w.toNat * h.toNat) := by
  rw [← npix_exact, BitVec.ofNat_toNat, BitVec.setWidth_eq]

/-- A header with recognized tags, taken by a decoder that was just reset. -/
theorem headerAndExec_headed {s : State} {w h : BitVec 32} {ch cs : Byte} {body : List Byte}
    (ht : tagsLegal s.cfg ch cs) (hs : s.source = headerBytes s.cfg w h ch cs ++ body) :
    headerAndExec (decReset s) = .next { headed s w h ch cs body with decResult := some (.header w h ch cs) } := by
  rw [headerAndExec_accepts (s := decReset s) (tail := body) ht hs]
  have hl : (headerBytes s.cfg w h ch cs).length = 14 := by simp [headerBytes, be32]
  have hd : (headerBytes s.cfg w h ch cs ++ body).drop 14 = body := by rw [← hl, List.drop_left]
  have hp : advancePos Decoder.reset.pos 14 = 14 := advancePos_of_lt (by decide)
  simp only [acceptHeader, takeBytes, decReset, headed, hs, hd, hp]

/-- The state in which the loop of DEC_IMAGE starts. -/
def loopStart (s : State) (w h : BitVec 32) (ch cs : Byte) (body : List Byte) : State :=
  setPixelTotal { headed s w h ch cs body with decResult := some (.header w h ch cs) }

/-- DEC_IMAGE whose header is accepted and whose pixels fit is its loop, closed (R244). -/
theorem imageAndExec_loop {s u : State} {w h : BitVec 32} {ch cs : Byte} {body : List Byte}
    (ht : tagsLegal s.cfg ch cs) (hm : w.toNat * h.toNat ≤ s.cfg.maxPixels)
    (hs : s.source = headerBytes s.cfg w h ch cs ++ body)
    (hu : imageLoop body.length (loopStart s w h ch cs body) = .next u) :
    imageAndExec s = .next (closeImage s.pixOut u) :=
  imageAndExec_accepted (headerAndExec_headed ht hs) rfl ((decodePixels_fits (by exact hm)).trans hu)

/-! ### The loop and the fetches of a host -/

/-- DEC_FETCH on a whole opcode. -/
theorem step_fetch_opcode {s : State} {i : Instr} {tail : List Byte} (he : s.dec.err = none)
    (hd : decodeOpcode s.cfg s.source = .ok (i, tail)) :
    step { s with commands := [.decFetch] } = .next (afterOpcode i tail { s with commands := [] }) :=
  Eq.trans (step_decFetch (by rfl) (by exact he)) (fetchAndExec_opcode (by exact hd))

/-- One successful fetch of a host, and the fetches behind it. -/
theorem fetchTimes_succ {k : Nat} {s u : State} {pixels : List Color} (he : s.dec.err = none)
    (h : fetchTimes (k + 1) s = some (u, pixels)) :
    ∃ i tail rest, decodeOpcode s.cfg s.source = .ok (i, tail)
      ∧ fetchTimes k (afterOpcode i tail { s with commands := [] }) = some (u, rest)
      ∧ pixels = List.replicate (pixelCount i) (opcodeColor s.dec.cache s.dec.cur i) ++ rest := by
  rcases fetchOpcode_inv s with ⟨p, hf⟩ | ⟨i, tail, b0, ops, -, -, hd, -, -, -⟩
  · have hb := fetchOpcode_beside { s with commands := [] } s
    rw [hf] at hb
    have hx : step { s with commands := [.decFetch] } =
        .next (raise .endOfStream { s with commands := [], source := [], dec := { s.dec with pos := p } }) := by
      refine Eq.trans (step_decFetch (by rfl) (by exact he)) ?_
      have hb' : fetchOpcode { s with commands := [] } = _ := hb
      simp only [fetchAndExec, hb', Fetched.beside, execFetched]
      rfl
    rw [fetchTimes, hx] at h
    simp [raise] at h
  · have hx := step_fetch_opcode he hd
    rw [fetchTimes, hx] at h
    have hr : (afterOpcode i tail { s with commands := [] }).decResult =
        some (.run (opcodeColor s.dec.cache s.dec.cur i) (pixelCount i)) := rfl
    simp only [hr] at h
    cases hk : fetchTimes k (afterOpcode i tail { s with commands := [] }) with
    | none => rw [hk] at h; cases h
    | some p =>
      obtain ⟨v, rest⟩ := p
      rw [hk] at h
      cases h
      exact ⟨i, tail, rest, hd, hk, rfl⟩

/-- Whatever a host's fetches return, as long as no more pixels than are missing: the loop goes on from the state they leave.
`f` is the host's state, `x` what the loop's state holds beside it. -/
theorem imageLoop_fetched (k m : Nat) (f x u : State) (pixels : List Color) (idx npix : BitVec 64)
    (he : f.dec.err = none) (h : fetchTimes k f = some (u, pixels)) (hn : idx.toNat + pixels.length ≤ npix.toNat) :
    u.dec.err = none ∧ k + u.source.length ≤ f.source.length ∧ ∃ r,
      imageLoop (m + k) { x with cfg := f.cfg, source := f.source, dec := { f.dec with idx := idx, npix := npix } } =
        imageLoop m { x with
          cfg := f.cfg, source := u.source, pixOut := x.pixOut ++ pixels, decResult := r
          dec := { u.dec with idx := idx + BitVec.ofNat 64 pixels.length, npix := npix } } := by
  induction k generalizing f x pixels idx with
  | zero =>
    cases h
    exact ⟨he, by omega, x.decResult, by simp⟩
  | succ k ih =>
    obtain ⟨i, tail, rest, hd, hk, rfl⟩ := fetchTimes_succ he h
    have hpos := decodeOpcode_count_pos hd
    rw [List.length_append, List.length_replicate] at hn
    have hadd := toNat_add_count (idx := idx) (npix := npix) (n := pixelCount i) (by omega)
    obtain ⟨h1, h2, r, h3⟩ := ih (afterOpcode i tail { f with commands := [] })
      { x with
        pixOut := x.pixOut ++ List.replicate (pixelCount i) (opcodeColor f.dec.cache f.dec.cur i)
        decResult := some (.run (opcodeColor f.dec.cache f.dec.cur i) (pixelCount i)) }
      rest (idx + BitVec.ofNat 64 (pixelCount i)) he hk (by rw [hadd]; omega)
    have hlen : tail.length + 1 ≤ f.source.length := by
      obtain ⟨b0, ops, hs, -⟩ := fetchOpcode_whole hd
      rw [hs]; simp
    have h2' : k + u.source.length ≤ tail.length := h2
    refine ⟨h1, by omega, r, ?_⟩
    rw [show m + (k + 1) = m + k + 1 by omega]
    refine Eq.trans (imageLoop_opcode (by rw [BitVec.lt_def]; show idx.toNat < npix.toNat; omega) (by exact he)
      (by exact hd)) ?_
    rw [if_neg (by show ¬ idx.toNat + pixelCount i > npix.toNat; omega)]
    refine Eq.trans h3 ?_
    simp only [afterOpcode, produce, List.append_assoc, List.length_append, List.length_replicate, BitVec.ofNat_add,
      BitVec.add_assoc]

/-- Fetches leave the header registers, the counters of DEC_IMAGE and the error register alone. -/
theorem fetchTimes_frame (k : Nat) (f u : State) (pixels : List Color) (he : f.dec.err = none)
    (h : fetchTimes k f = some (u, pixels)) :
    u.cfg = f.cfg ∧ u.dec = { f.dec with cache := u.dec.cache, cur := u.dec.cur, pos := u.dec.pos } := by
  induction k generalizing f pixels with
  | zero => cases h; exact ⟨rfl, rfl⟩
  | succ k ih =>
    obtain ⟨i, tail, rest, -, hk, -⟩ := fetchTimes_succ he h
    obtain ⟨h1, h2⟩ := ih (afterOpcode i tail { f with commands := [] }) rest he hk
    exact ⟨h1, h2⟩

/-- The loop of DEC_IMAGE through as many opcodes as a host fetched behind the same header, when they give no more pixels than the
image has: what is left of the loop starts from what the fetches left. `o` is the host's state, with the same configuration. -/
theorem loopStart_fetched {s o u : State} {w h : BitVec 32} {ch cs : Byte} {body : List Byte} {k : Nat}
    {pixels : List Color} (ho : o.cfg = s.cfg)
    (hf : fetchTimes k (headed o w h ch cs body) = some (u, pixels)) (hn : pixels.length ≤ w.toNat * h.toNat) :
    u.dec.err = none ∧ u.source.length ≤ body.length - k ∧ ∃ r,
      imageLoop body.length (loopStart s w h ch cs body) = imageLoop (body.length - k) { s with
        source := u.source, pixOut := s.pixOut ++ pixels, decResult := r
        dec := { u.dec with
          idx := BitVec.ofNat 64 pixels.length, npix := BitVec.ofNat 64 (w.toNat * h.toNat) } } := by
  have hN : (BitVec.ofNat 64 (w.toNat * h.toNat)).toNat = w.toNat * h.toNat := by rw [← npix_ofNat, npix_exact]
  obtain ⟨h1, h2, r, h3⟩ := imageLoop_fetched k (body.length - k) (headed o w h ch cs body)
    { s with decResult := some (.header w h ch cs) } u pixels 0#64 (BitVec.ofNat 64 (w.toNat * h.toNat)) rfl hf
    (by rw [hN, show (0#64).toNat = 0 from rfl]; omega)
  have h2' : k + u.source.length ≤ body.length := h2
  refine ⟨h1, by omega, r, ?_⟩
  rw [show body.length - k + k = body.length by omega] at h3
  rw [show loopStart s w h ch cs body = { s with
      cfg := (headed o w h ch cs body).cfg, source := (headed o w h ch cs body).source
      decResult := some (.header w h ch cs)
      dec := { (headed o w h ch cs body).dec with idx := 0#64, npix := BitVec.ofNat 64 (w.toNat * h.toNat) } } by
    simp only [loopStart, setPixelTotal, headed, npix_ofNat, ho]; rfl, h3]
  simp only [BitVec.zero_add, headed, ho]

/-- A fetch of an opcode cut short, in the fields of the state. -/
theorem fetchOpcode_short {s : State}
    (hc : s.source = [] ∨ ∃ b0 ops, s.source = b0 :: ops ∧ ops.length < (classify s.cfg b0).operandBytes)
    (hp : s.dec.pos.toNat + s.source.length < 2 ^ 64) :
    fetchOpcode s = .failed (raise .endOfStream { s with
      source := [], dec := { s.dec with pos := s.dec.pos + BitVec.ofNat 64 s.source.length } }) := by
  rcases hc with hc | ⟨b0, ops, hc, hl⟩
  · rw [fetchOpcode_empty hc]
    simp only [takeBytes, hc, List.drop_nil, advancePos_zero, List.length_nil, BitVec.add_zero]
  · rw [fetchOpcode_cut hc hl]
    rw [hc, List.length_cons] at hp
    have := advancePos_twice (pos := s.dec.pos) (m := 1) (n := ops.length) (by omega)
    simp only [takeBytes, hc, List.drop_succ_cons, List.drop_zero, List.drop_length, this, List.length_cons]
    rw [Nat.add_comm 1]

/-- The loop ends at an opcode cut short while pixels are missing (R251, R288). -/
theorem imageLoop_short {m : Nat} {s : State} (hlt : s.dec.idx < s.dec.npix)
    (hc : s.source = [] ∨ ∃ b0 ops, s.source = b0 :: ops ∧ ops.length < (classify s.cfg b0).operandBytes)
    (hp : s.dec.pos.toNat + s.source.length < 2 ^ 64) (hm : s.source.length ≤ m) :
    imageLoop m s = .next (raise .endOfStream { s with
      source := [], dec := { s.dec with pos := s.dec.pos + BitVec.ofNat 64 s.source.length } }) := by
  cases m with
  | zero =>
    have h0 : s.source = [] := List.eq_nil_of_length_eq_zero (by omega)
    simp only [imageLoop, if_pos hlt, h0, List.length_nil, BitVec.add_zero]
    rw [← h0]
  | succ m => exact imageLoop_failed hlt (fetchOpcode_short hc hp)

/-- The fetches of a list of opcodes, with any bytes behind it. -/
theorem fetchTimes_encoded (is : List Instr) (s : State) (tail : List Byte) (hc : s.cfg.Legal)
    (hi : ∀ i ∈ is, Emittable s.cfg i) (he : s.dec.err = none) (hs : s.source = encodeAll s.cfg is ++ tail) :
    ∃ t, fetchTimes is.length s = some (t, pixelsOf s.cfg s.dec.cache s.dec.cur is) ∧ t.source = tail
      ∧ t.dec.cache = (afterColors s.cfg s.dec.cache s.dec.cur is).1
      ∧ t.dec.cur = (afterColors s.cfg s.dec.cache s.dec.cur is).2 := by
  induction is generalizing s with
  | nil => exact ⟨s, rfl, hs, rfl, rfl⟩
  | cons i is ih =>
    have hs' : s.source = encode s.cfg i ++ (encodeAll s.cfg is ++ tail) := by rw [hs]; simp
    have hd : decodeOpcode s.cfg s.source = .ok (i, encodeAll s.cfg is ++ tail) := by
      rw [hs']; exact decodeOpcode_encode hc (hi i (List.mem_cons_self ..)) _
    obtain ⟨t, h1, h2, h3, h4⟩ := ih (afterOpcode i (encodeAll s.cfg is ++ tail) { s with commands := [] }) hc
      (fun j hj => hi j (List.mem_cons_of_mem _ hj)) he rfl
    refine ⟨t, ?_, h2, h3, h4⟩
    have hst := step_fetch_opcode he hd
    have hr : (afterOpcode i (encodeAll s.cfg is ++ tail) { s with commands := [] }).decResult =
        some (.run (opcodeColor s.dec.cache s.dec.cur i) (pixelCount i)) := rfl
    simp only [List.length_cons, fetchTimes, hst, hr, h1, Option.map_some]
    rfl

/-- Executing a list of opcodes gives the pixels the list stands for. -/
theorem pixelsInOrder_eq (is : List Instr) (s : State) (hp : ∀ i ∈ is, i.part = .opcode) :
    pixelsInOrder is s = pixelsOf s.cfg s.dec.cache s.dec.cur is := by
  induction is generalizing s with
  | nil => rfl
  | cons i is ih =>
    simp only [pixelsInOrder, exec_opcode (hp i (List.mem_cons_self ..)), pixelsOf]
    rw [ih _ (fun j hj => hp j (List.mem_cons_of_mem _ hj))]
    rfl

/-! ### The tags -/

/-- The same state with other tags and another result. -/
def State.retag (s : State) (ch cs : Byte) (r : Option DecResult) : State :=
  { s with dec := { s.dec with channels := ch, colorspace := cs }, decResult := r }

theorem fetchOpcode_retag (s : State) (ch cs : Byte) (r : Option DecResult) :
    (∀ t, fetchOpcode s = .failed t → fetchOpcode (s.retag ch cs r) = .failed (t.retag ch cs t.decResult))
    ∧ (∀ i tail, decodeOpcode s.cfg s.source = .ok (i, tail) →
        decodeOpcode (s.retag ch cs r).cfg (s.retag ch cs r).source = .ok (i, tail)) := by
  refine ⟨fun t h => ?_, fun i tail h => h⟩
  rcases fetchOpcode_cases s with ⟨hs, hf⟩ | ⟨b0, ops, hs, hl, hf⟩ | ⟨i, b0, ops, tail, -, -, -, -, -, hf⟩
  · rw [hf] at h; cases h
    rw [fetchOpcode_empty (s := s.retag ch cs r) hs]; rfl
  · rw [hf] at h; cases h
    rw [fetchOpcode_cut (s := s.retag ch cs r) hs hl]; rfl
  · rw [hf] at h; cases h

/-- The loop of DEC_IMAGE does not look at the tags (R118). -/
theorem imageLoop_retag (k : Nat) (s t : State) (ch cs : Byte) (r : Option DecResult) (he : s.dec.err = none)
    (h : imageLoop k s = .next t) :
    ∃ r', imageLoop k (s.retag ch cs r) = .next (t.retag ch cs r') ∧ (t.dec.err ≠ none → r' = t.decResult) := by
  induction k generalizing s r with
  | zero =>
    by_cases hlt : s.dec.idx < s.dec.npix
    · simp only [imageLoop, if_pos hlt, Host.Outcome.next.injEq] at h
      subst h
      refine ⟨_, ?_, fun _ => rfl⟩
      simp only [imageLoop, if_pos (show (s.retag ch cs r).dec.idx < (s.retag ch cs r).dec.npix from hlt)]
      rfl
    · rw [imageLoop_done hlt, Host.Outcome.next.injEq] at h
      subst t
      exact ⟨r, imageLoop_done (s := s.retag ch cs r) hlt, fun hh => absurd he hh⟩
  | succ k ih =>
    by_cases hlt : s.dec.idx < s.dec.npix
    · obtain ⟨hf', hd'⟩ := fetchOpcode_retag s ch cs r
      rcases fetchOpcode_inv s with ⟨p, hf⟩ | ⟨i, tail, b0, ops, -, -, hd, -, -, -⟩
      · rw [imageLoop_failed hlt hf] at h
        cases h
        exact ⟨_, imageLoop_failed (s := s.retag ch cs r) hlt (hf' _ hf), fun _ => rfl⟩
      · rw [imageLoop_opcode hlt he hd] at h
        have hx := imageLoop_opcode (k := k) (s := s.retag ch cs r) hlt he (hd' _ _ hd)
        by_cases hn : s.dec.idx.toNat + pixelCount i > s.dec.npix.toNat
        · rw [if_pos hn] at h
          cases h
          exact ⟨_, hx.trans (if_pos hn), fun _ => rfl⟩
        · rw [if_neg hn] at h
          obtain ⟨r', h1, h2⟩ := ih
            (deliver (opcodeColor s.dec.cache s.dec.cur i) (pixelCount i) (afterOpcode i tail s)) _ he h
          exact ⟨r', (hx.trans (if_neg hn)).trans h1, h2⟩
    · rw [imageLoop_done hlt, Host.Outcome.next.injEq] at h
      subst t
      exact ⟨r, imageLoop_done (s := s.retag ch cs r) hlt, fun hh => absurd he hh⟩

end Sys2Proof.Machine
end

