-- ==== Sys2Proof/Tests/Slice0.lean ====
section
/-! SUPPORT. The model's own tests: ill-formed terms refused, words written out bit by bit from spec/30_encoding.md, single
steps from the vectors of spec/95_test_vectors.md, and for every statement with hypotheses a state and operands that meet
them all. -/

namespace Sys2Proof.Tests

open Sys2Proof Sys2Proof.Machine

/-! ### Helpers -/

abbrev wire : Config := Config.wireV1

/-- The wire with the encoder's differences taken modulo 256. -/
def wrapWire : Config := { wire with encDeltaWrap := true }

/-- The reset state with a source and a command. -/
def asks (c : Command) (bs : List Byte) : State := { State.reset with source := bs, commands := [c] }

/-- The same with a current colour of the decoder. -/
def asksFrom (cur : Color) (c : Command) (bs : List Byte) : State :=
  { asks c bs with dec := { Decoder.reset with cur := cur } }

/-- The reset state with a previous pixel and a pending run in the encoder. -/
def pushes (prev : Color) (run : BitVec 6) (px : Color) : State :=
  { State.reset with enc := { Encoder.reset with prev := prev, run := run }, commands := [.encPush px] }

/-- The reset state with D.POS at a value. -/
def atPos (p : BitVec 64) : State := { State.reset with dec := { Decoder.reset with pos := p } }

/-- Reads a field of a next state. -/
def after {α : Type} (f : State → α) (s : State) : Option α :=
  match step s with
  | .next t => some (f t)
  | .fault _ => none
  | .refused _ => none

/-- The result, the current colour, the position and the error of the decoder. -/
def seen (s : State) : Option DecResult × Color × BitVec 64 × Option ErrKind :=
  (s.decResult, s.dec.cur, s.dec.pos, s.dec.err)

/-! ### WellFormed refuses -/

theorem test_wf_diff_red : (Instr.opDiff (-3) 0 0).wellFormed wire = false := by decide
theorem test_wf_diff_green : (Instr.opDiff 0 2 0).wellFormed wire = false := by decide
theorem test_wf_diff_blue : (Instr.opDiff 0 0 2).wellFormed wire = false := by decide
theorem test_wf_luma_green : (Instr.opLuma (-33) 0 0).wellFormed wire = false := by decide
theorem test_wf_luma_red : (Instr.opLuma 0 8 0).wellFormed wire = false := by decide
theorem test_wf_luma_blue : (Instr.opLuma 0 0 (-9)).wellFormed wire = false := by decide
theorem test_wf_run_none : (Instr.opRun 0).wellFormed wire = false := by decide
theorem test_wf_run_long : (Instr.opRun 63).wellFormed wire = false := by decide
theorem test_wf_hdr_channels : (Instr.hdr 1 1 5 0).wellFormed wire = false := by decide
theorem test_wf_hdr_colorspace : (Instr.hdr 1 1 4 2).wellFormed wire = false := by decide

/-! ### Words written out from the encodings (R81, R82, R85, R88) -/

theorem test_decode_rgb :
    decodeOpcode wire [0b11111110, 0x0A, 0x14, 0x1E, 0xC0] = .ok (.opRgb 10 20 30, [0xC0]) := by decide
theorem test_decode_rgba :
    decodeOpcode wire [0b11111111, 0x01, 0x02, 0x03, 0x04] = .ok (.opRgba 1 2 3 4, []) := by decide
theorem test_decode_index : decodeOpcode wire [0b00001001] = .ok (.opIndex 9, []) := by decide
/-- Red field 00, green field 11, blue field 10 with bias 2. -/
theorem test_decode_diff : decodeOpcode wire [0b01001110] = .ok (.opDiff (-2) 1 0, []) := by decide
/-- Green field 21 with bias 32; red nibble 3 and blue nibble 12 with bias 8 (T14). -/
theorem test_decode_luma : decodeOpcode wire [0b10010101, 0b00111100] = .ok (.opLuma (-11) (-5) 4, []) := by decide
theorem test_decode_run : decodeOpcode wire [0b11111101] = .ok (.opRun 62, []) := by decide
/-- H2: width 0x01020304, height 0x00000100, RGB, linear. -/
theorem test_decode_hdr :
    decodeHeader wire [0x71, 0x6F, 0x69, 0x66, 0x01, 0x02, 0x03, 0x04, 0x00, 0x00, 0x01, 0x00, 0x03, 0x01] =
      .ok (.hdr 16909060 256 3 1, []) := by decide
theorem test_decode_end : decodeEnd wire [0, 0, 0, 0, 0, 0, 0, 1] = .ok (.endMarker, []) := by decide
theorem test_decode_short : decodeOpcode wire [0b11111110, 1, 2] = .error .truncated := by decide
theorem test_decode_magic :
    decodeHeader wire [0x71, 0x6F, 0x69, 0x67, 0, 0, 0, 1, 0, 0, 0, 1, 4, 0] = .error .badMagic := by decide
theorem test_end_marker_as_opcode : decodeOpcode wire [0, 0, 0, 0, 0, 0, 0, 1] =
    .ok (.opIndex 0, [0, 0, 0, 0, 0, 0, 1]) := by decide

/-! ### Single steps, from the vectors -/

/-- T15: OP_RGB keeps alpha 77. -/
theorem test_step_rgb : after seen (asksFrom ⟨9, 9, 9, 77⟩ .decFetch [0xFE, 1, 2, 3]) =
    some (some (.run ⟨1, 2, 3, 77⟩ 1), ⟨1, 2, 3, 77⟩, 4, none) := by decide
/-- T17: operand bytes are data. -/
theorem test_step_rgb_data : after seen (asksFrom ⟨5, 5, 5, 5⟩ .decFetch [0xFE, 0xFF, 0xFE, 0xC0]) =
    some (some (.run ⟨255, 254, 192, 5⟩ 1), ⟨255, 254, 192, 5⟩, 4, none) := by decide
/-- T16, with the slot the colour is stored in. -/
theorem test_step_rgba : after (fun t => (seen t, t.dec.cache.lookup 14)) (asks .decFetch [0xFF, 1, 2, 3, 4]) =
    some ((some (.run ⟨1, 2, 3, 4⟩ 1), ⟨1, 2, 3, 4⟩, 5, none), ⟨1, 2, 3, 4⟩) := by decide
/-- T1: a slot never written. -/
theorem test_step_index_empty : after seen (asks .decFetch [0x05]) =
    some (some (.run ⟨0, 0, 0, 0⟩ 1), ⟨0, 0, 0, 0⟩, 1, none) := by decide
/-- T4: the colour of slot 63 hashes to 42 and is copied there. -/
theorem test_step_index_copies :
    after (fun t => (t.dec.cache.lookup 42, t.dec.cache.lookup 63))
      { asks .decFetch [0x3F] with dec := { Decoder.reset with cache := Cache.reset.store 63 ⟨9, 9, 9, 9⟩ } } =
    some (⟨9, 9, 9, 9⟩, ⟨9, 9, 9, 9⟩) := by decide
/-- T6: below 0. -/
theorem test_step_diff_low : after seen (asks .decFetch [0x40]) =
    some (some (.run ⟨254, 254, 254, 255⟩ 1), ⟨254, 254, 254, 255⟩, 1, none) := by decide
/-- T7: above 255. -/
theorem test_step_diff_high : after seen (asksFrom ⟨255, 255, 255, 255⟩ .decFetch [0x7F]) =
    some (some (.run ⟨0, 0, 0, 255⟩ 1), ⟨0, 0, 0, 255⟩, 1, none) := by decide
/-- T13: below 0. -/
theorem test_step_luma_low : after seen (asksFrom ⟨10, 10, 10, 255⟩ .decFetch [0x80, 0x00]) =
    some (some (.run ⟨226, 234, 226, 255⟩ 1), ⟨226, 234, 226, 255⟩, 2, none) := by decide
/-- T14: red and blue move apart. -/
theorem test_step_luma_apart : after seen (asksFrom ⟨200, 100, 50, 255⟩ .decFetch [0x95, 0x3C]) =
    some (some (.run ⟨184, 89, 43, 255⟩ 1), ⟨184, 89, 43, 255⟩, 2, none) := by decide
/-- T20: the longest run. -/
theorem test_step_run_longest : after seen (asksFrom ⟨1, 2, 3, 4⟩ .decFetch [0xFD]) =
    some (some (.run ⟨1, 2, 3, 4⟩ 62), ⟨1, 2, 3, 4⟩, 1, none) := by decide
/-- T18: a run at the start stores the seed in slot 53. -/
theorem test_step_run_start : after (fun t => t.dec.cache.lookup 53) (asks .decFetch [0xC0]) = some ⟨0, 0, 0, 255⟩ := by
  decide
/-- H4. -/
theorem test_step_hdr : after (fun t => (t.dec.width, t.dec.height, t.dec.channels, t.dec.colorspace, t.dec.hdrValid))
    (asks .decHeader [0x71, 0x6F, 0x69, 0x66, 1, 2, 3, 4, 0, 0, 1, 0, 3, 1]) =
    some (16909060, 256, 3, 1, true) := by decide
/-- H12: too short, whatever the magic. -/
theorem test_step_hdr_short : after seen (asks .decHeader [0, 0, 0]) =
    some (some (.error .endOfStream), Color.seed, 3, some .endOfStream) := by decide
/-- E41: ENC_END flushes nothing. -/
theorem test_step_end : after (fun t => (t.sink, t.enc.run))
    { State.reset with enc := { Encoder.reset with run := 2 }, commands := [.encEnd] } =
    some ([0, 0, 0, 0, 0, 0, 0, 1], 2) := by decide

/-- T22: OP_LUMA cut short. -/
theorem test_fetch_cut : after seen (asks .decFetch [0xA0]) =
    some (some (.error .endOfStream), Color.seed, 1, some .endOfStream) := by decide
/-- E24's last push: the pending run's byte comes before the opcode. -/
theorem test_push_run_then_diff : after (fun t => (t.sink, t.enc.run)) (pushes ⟨5, 5, 5, 255⟩ 3 ⟨6, 5, 5, 255⟩) =
    some ([0xC2, 0x7A], 0) := by decide
/-- E20: the 62nd equal pixel. -/
theorem test_push_full_run : after (fun t => (t.sink, t.enc.run)) (pushes Color.seed 61 Color.seed) = some ([0xFD], 0) := by
  decide
/-- E13: the zero colour hits slot 0. -/
theorem test_push_zero_hits : after State.sink (pushes Color.seed 0 Color.zero) = some [0x00] := by decide
/-- E9's second push: the upper edges of OP_LUMA. -/
theorem test_push_luma : after State.sink (pushes ⟨100, 100, 100, 255⟩ 0 ⟨138, 131, 138, 255⟩) = some [0xBF, 0xFF] := by decide
/-- E4: a plain difference of 254 is a literal; modulo 256 it is -2. -/
theorem test_push_plain : after State.sink (pushes Color.seed 0 ⟨254, 0, 0, 255⟩) = some [0xFE, 254, 0, 0] := by decide
theorem test_push_wrapped :
    after State.sink { pushes Color.seed 0 ⟨254, 0, 0, 255⟩ with cfg := wrapWire } = some [0x4A] := by decide
/-- E12: an alpha change is a literal of four channels. -/
theorem test_push_alpha : after State.sink (pushes Color.seed 0 ⟨0, 0, 0, 254⟩) = some [0xFF, 0, 0, 0, 254] := by decide
/-- F2: the overrun of a 2x2 image. -/
theorem test_image_overrun :
    after (fun t => (seen t, t.pixOut))
      (asks .decImage [0x71, 0x6F, 0x69, 0x66, 0, 0, 0, 2, 0, 0, 0, 2, 4, 0, 0xFE, 1, 2, 3, 0xC3, 0, 0]) =
    some ((some (.error .invalidData), ⟨1, 2, 3, 255⟩, 19, some .invalidData), []) := by decide
/-- F1: the whole image. -/
theorem test_image : after (fun t => (t.pixOut, t.dec.pos, t.source))
      (asks .decImage [0x71, 0x6F, 0x69, 0x66, 0, 0, 0, 2, 0, 0, 0, 2, 4, 0, 0xFE, 1, 2, 3, 0xC2, 0, 0]) =
    some (List.replicate 4 ⟨1, 2, 3, 255⟩, 19, [0, 0]) := by decide
/-- R90: opcodes that no encoder emits in this order (INDEX 5 of a slot never written, DIFF 0,0,0) fill an image all the same. -/
theorem test_image_noncanonical : after (fun t => (t.pixOut, t.dec.pos))
      (asks .decImage [0x71, 0x6F, 0x69, 0x66, 0, 0, 0, 3, 0, 0, 0, 1, 3, 1, 0x7F, 0x6A, 0x05]) =
    some ([⟨1, 1, 1, 255⟩, ⟨1, 1, 1, 255⟩, ⟨0, 0, 0, 0⟩], 17) := by decide
/-- F14: a header error folded. -/
theorem test_image_fold :
    after (fun t => t.dec.err)
      { asks .decImage [0x71, 0x6F, 0x69, 0x66, 0, 0, 0, 1, 0, 0, 0, 1, 5, 0] with cfg := { wire with hdrErrFold := true } } =
    some (some .invalidData) := by decide
/-- F15. -/
theorem test_buffer_short : decodeBuffer wire (List.replicate 13 0) = .error .invalidData := by decide

/-- A placed word is the first instruction after reset. -/
theorem test_placed_word : after State.dec (State.reset.withFetchWord 8 0x7F) =
    after State.dec (asks .decFetch [0x7F]) := by decide
/-- The match values of HDR and END as the table writes them, first byte on top. -/
theorem test_table_match_words : decodeTableWord 32 0x716F6966 = some (.hdr 0 0 0 0)
    ∧ decodeTableWord 64 0x0000000000000001 = some .endMarker := by decide

/-! ### Witnesses: for each statement with hypotheses, a state and operands that meet them all, clause by clause -/

/-- Boundary operands of every constructor. -/
theorem witness_DecodeUndoesEncode : wire.Legal ∧
    ∀ i ∈ [Instr.opRgb 0 255 0, .opRgba 0 0 0 255, .opIndex 63, .opDiff (-2) 1 0, .opLuma (-32) 7 (-8), .opLuma 31 (-8) 7,
      .opRun 1, .opRun 62, .hdr 0 (BitVec.allOnes 32) 3 1, .hdr 1 1 4 0, .endMarker], i.wellFormed wire = true := by decide

/-- One encoding of each part, and the operand bytes of a first byte of each length. -/
theorem witness_DecodedBytesAreTheEncoding : wire.Legal
    ∧ decode wire .opcode [0xFD, 7] = .ok (.opRun 62, [7])
    ∧ decode wire .header [0x71, 0x6F, 0x69, 0x66, 0, 0, 0, 1, 0, 0, 0, 1, 9, 9] = .ok (.hdr 1 1 9 9, [])
    ∧ decode wire .endMarker [0, 0, 0, 0, 0, 0, 0, 1, 5] = .ok (.endMarker, [5])
    ∧ classify wire 0xFE = .rgb ∧ classify wire 0xFF = .rgba ∧ classify wire 0x00 = .index ∧ classify wire 0x6A = .diff
    ∧ classify wire 0xBF = .luma ∧ classify wire 0xFD = .run := by decide

theorem witness_EmittedBytesInNumbers : wire.Legal ∧ wire.diff.Holds (-2) ∧ wire.diff.Holds 1 ∧ wire.lumaG.Holds (-32)
    ∧ wire.lumaG.Holds 31 ∧ wire.lumaRB.Holds (-8) ∧ wire.lumaRB.Holds 7 := by decide

theorem witness_HeaderRoundTrip : tagsLegal wire 3 1 ∧ tagsLegal wire 4 0
    ∧ [0x71, 0x6F, 0x69, 0x66, 0, 0, 0, 1, 0, 0, 0, 2, 4, 0].length = 14
    ∧ hdrParse wire [0x71, 0x6F, 0x69, 0x66, 0, 0, 0, 1, 0, 0, 0, 2, 4, 0] = .ok (1, 2, 4, 0) := by decide

/-- A miss is pushed from reset. -/
theorem witness_CachesStayHashed :
    (pushes Color.seed 0 ⟨1, 1, 1, 255⟩).CachesHashed
      ∧ ∃ t, step (pushes Color.seed 0 ⟨1, 1, 1, 255⟩) = .next t := ⟨by decide, _, rfl⟩

/-- The run is at its bound. -/
theorem witness_RegistersStayLegal :
    (pushes Color.seed 61 Color.seed).RegsLegal ∧ ∃ t, step (pushes Color.seed 61 Color.seed) = .next t :=
  ⟨by decide, _, rfl⟩

theorem witness_HeaderExecutes :
    (((3 : Byte) = 3 ∨ (3 : Byte) = 4) ∧ ((1 : Byte) = wire.csSrgb ∨ (1 : Byte) = wire.csLinear))
    ∧ ¬ (((5 : Byte) = 3 ∨ (5 : Byte) = 4) ∧ ((0 : Byte) = wire.csSrgb ∨ (0 : Byte) = wire.csLinear))
    ∧ ¬ (((4 : Byte) = 3 ∨ (4 : Byte) = 4) ∧ ((2 : Byte) = wire.csSrgb ∨ (2 : Byte) = wire.csLinear)) := by decide

/-- D.POS at the last values that fit. -/
theorem witness_StepRunsTheDecodedInstruction :
    (atPos (BitVec.ofNat 64 (2 ^ 64 - 6))).dec.err = none
    ∧ decode wire .opcode [0xFF, 1, 2, 3, 4] = .ok (.opRgba 1 2 3 4, [])
    ∧ (atPos (BitVec.ofNat 64 (2 ^ 64 - 6))).dec.pos.toNat + (Instr.opRgba 1 2 3 4).length < 2 ^ 64
    ∧ decode wire .header [0x71, 0x6F, 0x69, 0x66, 0, 0, 0, 1, 0, 0, 0, 1, 4, 0, 7] = .ok (.hdr 1 1 4 0, [7])
    ∧ (atPos (BitVec.ofNat 64 (2 ^ 64 - 15))).dec.pos.toNat + 14 < 2 ^ 64 := by decide

/-- One word of each part. -/
theorem witness_PlacedWordRuns :
    decodeTableWordWith wire 8 0xC0 = some (.opRun 1) ∧ (Instr.opRun 1).part ≠ .endMarker
    ∧ decodeTableWordWith wire 112 0x0004020000000200000066696F71 = some (.hdr 2 2 4 0)
    ∧ (Instr.hdr 2 2 4 0).part ≠ .endMarker
    ∧ decodeTableWordWith wire 64 0x0100000000000000 = some .endMarker ∧ Instr.endMarker.part = .endMarker
    ∧ (atPos (BitVec.ofNat 64 (2 ^ 64 - 15))).dec.pos.toNat + 14 < 2 ^ 64 := by decide

theorem witness_FetchedLiterals : (atPos 0).cfg.Legal ∧ (atPos 0).dec.err = none
    ∧ (atPos (BitVec.ofNat 64 (2 ^ 64 - 5))).dec.pos.toNat + 4 < 2 ^ 64
    ∧ (atPos (BitVec.ofNat 64 (2 ^ 64 - 6))).dec.pos.toNat + 5 < 2 ^ 64 := by decide

theorem witness_FetchedRecalls : (atPos 0).cfg.Legal ∧ (atPos 0).dec.err = none
    ∧ (atPos (BitVec.ofNat 64 (2 ^ 64 - 2))).dec.pos.toNat + 1 < 2 ^ 64
    ∧ (0 : BitVec 6).toNat ≤ 61 ∧ (61 : BitVec 6).toNat ≤ 61 := by decide

theorem witness_FetchedDiff : (atPos 0).cfg.Legal ∧ (atPos 0).dec.err = none
    ∧ (atPos (BitVec.ofNat 64 (2 ^ 64 - 2))).dec.pos.toNat + 1 < 2 ^ 64 := by decide

theorem witness_FetchedLuma : (atPos 0).cfg.Legal ∧ (atPos 0).dec.err = none
    ∧ (atPos (BitVec.ofNat 64 (2 ^ 64 - 3))).dec.pos.toNat + 2 < 2 ^ 64 := by decide

/-- An empty source, an OP_RGBA with one byte missing, a header with one byte missing; F3 (OP_LUMA cut short behind one pixel of
two) and F4 (the source ends between opcodes). -/
theorem witness_ShortReadsAreEndOfStream : (atPos 0).dec.err = none
    ∧ (atPos (BitVec.allOnes 64)).dec.pos.toNat + ([] : List Byte).length < 2 ^ 64
    ∧ (atPos (BitVec.ofNat 64 (2 ^ 64 - 5))).dec.pos.toNat + [0xFF, 1, 2, 3].length < 2 ^ 64
    ∧ ([1, 2, 3] : List Byte).length < (classify wire 0xFF).operandBytes
    ∧ (List.replicate 13 (0 : Byte)).length < 14
    ∧ tagsLegal wire 4 0 ∧ (2 : BitVec 32).toNat * (1 : BitVec 32).toNat ≤ wire.maxPixels
    ∧ (fetchTimes 1 (headed State.reset 2 1 4 0 [0xFE, 1, 2, 3, 0xA0])).map
        (fun p => (p.1.source, p.1.dec.pos, p.2)) = some ([0xA0], 18, [⟨1, 2, 3, 255⟩])
    ∧ ([] : List Byte).length < (classify wire 0xA0).operandBytes
    ∧ (fetchTimes 1 (headed State.reset 2 1 4 0 [0xFE, 1, 2, 3])).map
        (fun p => (p.1.source, p.1.dec.pos, p.2)) = some ([], 18, [⟨1, 2, 3, 255⟩])
    ∧ [(⟨1, 2, 3, 255⟩ : Color)].length < (2 : BitVec 32).toNat * (1 : BitVec 32).toNat := by decide

theorem witness_FetchIsTotal : (atPos (BitVec.allOnes 64)).cfg.Legal ∧ (atPos (BitVec.allOnes 64)).dec.err = none := by
  decide

/-- The largest width, and one too large; a channel tag out of its set; a colorspace tag out of its set. -/
theorem witness_EncoderWritesHeader :
    headerOperandsLegal wire (2 ^ 32 - 1) 0 3 1 = true ∧ headerOperandsLegal wire (2 ^ 32) 0 3 1 = false
    ∧ headerOperandsLegal wire 1 1 2 0 = false ∧ headerOperandsLegal wire 1 1 4 256 = false := by decide

theorem witness_DecoderAcceptsHeader : (atPos 0).dec.err = none
    ∧ (atPos (BitVec.ofNat 64 (2 ^ 64 - 15))).dec.pos.toNat + 14 < 2 ^ 64 ∧ tagsLegal wire 3 0 := by decide

/-- H10, H7. -/
theorem witness_HeaderErrorsAtBothLevels : (atPos 0).dec.err = none
    ∧ (atPos (BitVec.ofNat 64 (2 ^ 64 - 15))).dec.pos.toNat + 14 < 2 ^ 64
    ∧ hdrParse wire [0, 0, 0, 0, 0, 0, 0, 1, 0, 0, 0, 1, 9, 9] = .error .invalidMagic
    ∧ hdrParse wire [0x71, 0x6F, 0x69, 0x66, 0, 0, 0, 1, 0, 0, 0, 1, 5, 0] = .error .invalidTag := by decide

theorem witness_StoppedUntilReset :
    ∃ s t : State, s.dec.err = some .endOfStream ∧ s.commands = [.decImage] ∧ Command.decImage.isDec = true
      ∧ Command.decImage ≠ .decReset ∧ step s = .next t :=
  ⟨{ asks .decImage [] with dec := { Decoder.reset with err := some .endOfStream } }, _, rfl, rfl, rfl, by decide, rfl⟩

theorem witness_EqualPixelGrowsTheRun :
    (pushes Color.seed 61 Color.seed).enc.run.toNat ≤ 61 ∧ (pushes Color.seed 60 Color.seed).enc.run.toNat ≤ 61 := by decide

theorem witness_CacheHitEmitsIndex :
    Color.zero ≠ State.reset.enc.prev ∧ State.reset.enc.cache.lookup (hashOf wire.hashW Color.zero) = Color.zero := by decide

/-- E3: the upper edge of every field. -/
theorem witness_SmallDeltaEmitsDiff :
    (⟨1, 1, 1, 255⟩ : Color) ≠ State.reset.enc.prev
    ∧ State.reset.enc.cache.lookup (hashOf wire.hashW ⟨1, 1, 1, 255⟩) ≠ ⟨1, 1, 1, 255⟩
    ∧ (⟨1, 1, 1, 255⟩ : Color).a = State.reset.enc.prev.a
    ∧ delta wire.encDeltaWrap 1 0 = 1 ∧ wire.diff.Holds 1 := by decide

/-- E36: the upper edge of the red-relative field, where OP_DIFF fails. -/
theorem witness_LumaDeltaEmitsLuma :
    (⟨7, 0, 0, 255⟩ : Color) ≠ State.reset.enc.prev
    ∧ State.reset.enc.cache.lookup (hashOf wire.hashW ⟨7, 0, 0, 255⟩) ≠ ⟨7, 0, 0, 255⟩
    ∧ (⟨7, 0, 0, 255⟩ : Color).a = State.reset.enc.prev.a
    ∧ delta wire.encDeltaWrap 7 0 = 7 ∧ delta wire.encDeltaWrap 0 0 = 0
    ∧ ¬ (wire.diff.Holds 7 ∧ wire.diff.Holds 0 ∧ wire.diff.Holds 0)
    ∧ wire.lumaG.Holds 0 ∧ wire.lumaRB.Holds (7 - 0) ∧ wire.lumaRB.Holds (0 - 0) := by decide

/-- E35, where the red-relative delta is one too large, and E12, where alpha changed. -/
theorem witness_OtherMissesEmitLiterals :
    (⟨8, 0, 0, 255⟩ : Color) ≠ State.reset.enc.prev
    ∧ State.reset.enc.cache.lookup (hashOf wire.hashW ⟨8, 0, 0, 255⟩) ≠ ⟨8, 0, 0, 255⟩
    ∧ (⟨8, 0, 0, 255⟩ : Color).a = State.reset.enc.prev.a
    ∧ delta wire.encDeltaWrap 8 0 = 8 ∧ ¬ (wire.diff.Holds 8 ∧ wire.diff.Holds 0 ∧ wire.diff.Holds 0)
    ∧ ¬ (wire.lumaG.Holds 0 ∧ wire.lumaRB.Holds (8 - 0) ∧ wire.lumaRB.Holds (0 - 0))
    ∧ (⟨0, 0, 0, 254⟩ : Color) ≠ State.reset.enc.prev
    ∧ State.reset.enc.cache.lookup (hashOf wire.hashW ⟨0, 0, 0, 254⟩) ≠ ⟨0, 0, 0, 254⟩
    ∧ (⟨0, 0, 0, 254⟩ : Color).a ≠ State.reset.enc.prev.a := by decide

theorem witness_StateAfterPush : (61 : BitVec 6).toNat ≤ 61
    ∧ (⟨1, 1, 1, 255⟩ : Color) ≠ (pushes Color.seed 61 Color.seed).enc.prev
    ∧ Color.seed = (pushes Color.seed 61 Color.seed).enc.prev := by decide

theorem witness_PushEmitsAtMostSixBytes :
    (⟨0, 0, 0, 254⟩ : Color) ≠ (pushes Color.seed 61 Color.zero).enc.prev
      ∧ (pushes Color.seed 61 Color.zero).enc.run ≠ 0 := by decide

theorem witness_RunLengthsProduced : State.reset.enc.run = 0 := by decide

theorem witness_IncrementalEqualsWhole : (Command.encImage 2 1 3 1 [Color.seed, Color.zero]).legal wire = true := by decide

/-- An image, an image of no pixels, and one with a pixel too few. -/
theorem witness_WholeImageLayout : (Command.encImage 2 1 3 1 [Color.seed, Color.zero]).legal wire = true
    ∧ (Command.encImage 0 7 4 0 []).legal wire = true ∧ (Command.encImage 2 1 3 1 [Color.seed]).legal wire = false := by
  decide

theorem witness_NothingLeaksBetweenImages :
    ∃ t1 t2 : State, step { State.reset with commands := [.encImage 1 1 4 0 [Color.zero]] } = .next t1
      ∧ step { pushes Color.zero 3 Color.seed with commands := [.encImage 1 1 4 0 [Color.zero]] } = .next t2 :=
  ⟨_, _, rfl, rfl⟩

/-- F10: nine pixels where eight fit. -/
theorem witness_OversizedImageIsOutOfMemory : (atPos 0).dec.err = none ∧ tagsLegal { wire with maxPixels := 8 } 4 0
    ∧ 8 < (3 : BitVec 32).toNat * (3 : BitVec 32).toNat := by decide

/-- F5, and a width that is zero. -/
theorem witness_EmptyImageTakesOnlyTheHeader : (atPos 0).dec.err = none ∧ tagsLegal wire 4 0
    ∧ (0 : BitVec 32).toNat * (7 : BitVec 32).toNat = 0
    ∧ (BitVec.allOnes 32).toNat * (0 : BitVec 32).toNat = 0 := by decide

/-- F2: one pixel, then a run of four in an image of four. -/
theorem witness_OverrunIsInvalidData : wire.Legal ∧ (atPos 0).dec.err = none ∧ tagsLegal wire 4 0
    ∧ (2 : BitVec 32).toNat * (2 : BitVec 32).toNat ≤ wire.maxPixels ∧ (3 : BitVec 6).toNat ≤ 61
    ∧ (∀ i ∈ [Instr.opRgb 1 2 3], i.part = .opcode ∧ i.wellFormed wire = true)
    ∧ ([Instr.opRgb 1 2 3].map pixelCount).sum < (2 : BitVec 32).toNat * (2 : BitVec 32).toNat
    ∧ (2 : BitVec 32).toNat * (2 : BitVec 32).toNat < ([Instr.opRgb 1 2 3].map pixelCount).sum + ((3 : BitVec 6).toNat + 1) := by
  decide

/-- F1's two fetches fill a 2x2 image; so do three opcodes no encoder emits in this order (R90, R204). -/
theorem witness_ImageOrError : (asks .decImage []).dec.err = none ∧ wire.Legal ∧ tagsLegal wire 4 0
    ∧ (2 : BitVec 32).toNat * (2 : BitVec 32).toNat ≤ wire.maxPixels
    ∧ (fetchTimes 2 (headed State.reset 2 2 4 0 [0xFE, 1, 2, 3, 0xC2, 0, 0])).map (fun p => (p.1.source, p.2)) =
        some ([0, 0], List.replicate 4 ⟨1, 2, 3, 255⟩)
    ∧ (List.replicate 4 (⟨1, 2, 3, 255⟩ : Color)).length = (2 : BitVec 32).toNat * (2 : BitVec 32).toNat
    ∧ (∀ i ∈ [Instr.opDiff 0 0 0, .opIndex 5, .opRun 2], i.part = .opcode ∧ i.wellFormed wire = true)
    ∧ ([Instr.opDiff 0 0 0, .opIndex 5, .opRun 2].map pixelCount).sum =
        (2 : BitVec 32).toNat * (2 : BitVec 32).toNat := by decide

/-- F6: one pixel of one run, with a byte behind it. -/
theorem witness_TrailingBytesAreNeverRead :
    (asks .decImage []).dec.err = none
    ∧ after (fun t => t.dec.err) (asks .decImage [0x71, 0x6F, 0x69, 0x66, 0, 0, 0, 1, 0, 0, 0, 1, 4, 0, 0xC0, 0xFF]) =
        some none := by decide

/-- A fetch; an image of one pixel behind two headers; an image to encode under two tags. -/
theorem witness_TagsAreInformational : (∃ t, step (asks .decFetch [0x7F]) = .next t)
    ∧ State.reset.dec.err = none ∧ tagsLegal wire 3 1 ∧ tagsLegal wire 4 0
    ∧ (∃ t, step (asks .decImage (headerBytes wire 1 1 3 1 ++ [0xC0])) = .next t)
    ∧ (Command.encImage 1 1 3 1 [Color.zero]).legal wire = true
    ∧ (Command.encImage 1 1 4 0 [Color.zero]).legal wire = true :=
  ⟨⟨_, rfl⟩, rfl, by decide, by decide, ⟨_, rfl⟩, by decide, by decide⟩

theorem witness_ImageRoundTrip :
    wire.Legal ∧ wire.SeedApart ∧ wrapWire.Legal ∧ wrapWire.SeedApart ∧ 2 * 1 ≤ wire.maxPixels
    ∧ (Command.encImage 2 1 3 1 [Color.seed, Color.zero]).legal wire = true ∧ State.reset.dec.err = none
    ∧ (after State.sink { State.reset with commands := [.encImage 2 1 3 1 [Color.seed, Color.zero]] }).isSome = true := by
  decide

theorem witness_FetchesReturnThePushedPixels : wire.Legal ∧ wire.SeedApart := by decide

theorem witness_CachesAgreeButForTheSeedSlot : wire.Legal ∧ wire.SeedApart := by decide

theorem witness_UnitsWriteOnlyTheirOwn :
    ∃ t : State, (pushes Color.seed 0 Color.zero).commands = .encPush Color.zero :: []
      ∧ Command.isDec (.encPush Color.zero) = false ∧ Command.isEnc .decFetch = false
      ∧ step (pushes Color.seed 0 Color.zero) = .next t := ⟨_, rfl, rfl, rfl, rfl⟩

theorem witness_UnitsReadOnlyTheirOwn :
    ∃ t1 t2 : State, Command.isEnc (.encPush Color.zero) = true ∧ Command.isDec .decFetch = true
      ∧ step (pushes Color.seed 0 Color.zero) = .next t1
      ∧ step { pushes Color.seed 0 Color.zero with dec := { Decoder.reset with cur := Color.zero } } = .next t2 :=
  ⟨_, _, rfl, rfl, rfl, rfl⟩

theorem witness_EveryLegalCommandCompletes : (Command.encHeader (2 ^ 32 - 1) 0 4 0).legal wire = true
    ∧ (Command.encHeader (2 ^ 32) 0 4 0).legal wire = false := by decide

theorem witness_StreamsMoveForward : ∃ t, step (asks .decFetch [0x7F]) = .next t := ⟨_, rfl⟩

/-- DEC_RESET, DEC_IMAGE with and without an error recorded, and a fetch. -/
theorem witness_PositionCountsTheBytesTaken :
    (∃ t, step (asks .decReset [1]) = .next t) ∧ (∃ t, step (asks .decImage [1]) = .next t)
    ∧ (∃ t, step { asks .decImage [1] with dec := { Decoder.reset with err := some .invalidTag } } = .next t)
    ∧ (∃ t, step (asks .decFetch [0x7F]) = .next t) := ⟨⟨_, rfl⟩, ⟨_, rfl⟩, ⟨_, rfl⟩, ⟨_, rfl⟩⟩

theorem witness_BufferWrappers : wire.Legal ∧ wire.SeedApart ∧ (List.replicate 13 (0 : Byte)).length < wire.minContainerBytes
    ∧ wire.minContainerBytes ≤ 22 ∧ 1 * 1 ≤ wire.maxPixels
    ∧ (encodeBuffer wire 1 1 4 0 [Color.zero]).isSome = true
    ∧ (decodeBuffer wire [0x71, 0x6F, 0x69, 0x66, 0, 0, 0, 1, 0, 0, 0, 1, 4, 0, 0xC0]).toOption.isSome = true := by decide

end Sys2Proof.Tests
end

/-! ## The scope statements: a placed table word runs (O19), a whole image comes back (O52) -/

namespace Sys2Proof.Machine

open Sys2Proof

/-! ### What stands at a place of the stream -/

/-- A header that decodes is a HDR, and decodes whatever bytes are added behind. -/
theorem decodeHeader_append {cfg : Config} {bs tail : List Byte} {i : Instr} (h : decodeHeader cfg bs = .ok (i, tail))
    (extra : List Byte) : i.part = .header ∧ decodeHeader cfg (bs ++ extra) = .ok (i, tail ++ extra) := by
  unfold decodeHeader at h
  split at h
  · split at h
    · next hm => cases h; exact ⟨rfl, if_pos hm⟩
    · cases h
  · cases h

/-- Bytes that decode as the end marker are it. -/
theorem decodeEnd_eq_endMarker {cfg : Config} {bs tail : List Byte} {i : Instr} (h : decodeEnd cfg bs = .ok (i, tail)) :
    i = .endMarker := by
  unfold decodeEnd at h
  split at h
  · cases h
  · split at h
    · cases h; rfl
    · cases h

/-- Bytes that decode as an opcode are one. -/
theorem decodeOpcode_part {cfg : Config} {bs tail : List Byte} {i : Instr} (h : decodeOpcode cfg bs = .ok (i, tail)) :
    i.part = .opcode :=
  (fetchOpcode_eq (s := { State.reset with cfg := cfg, source := bs }) h).1

/-- An opcode is at most five bytes long (R84). -/
theorem opcode_length_le {i : Instr} (h : i.part = .opcode) : i.length ≤ 5 := by
  cases i <;> simp [Instr.part] at h <;> simp [Instr.length]

/-- A header is 14 bytes long (R81). -/
theorem header_length {i : Instr} (h : i.part = .header) : i.length = 14 := by
  cases i <;> simp [Instr.part] at h
  rfl

/-! ### A step runs the instruction its command takes -/

/-- DEC_FETCH executes the opcode at the head of the source, its bytes taken and counted (R190). -/
theorem step_decFetch_exec {s : State} {cmds : List Command} {i : Instr} {tail : List Byte}
    (hc : s.commands = .decFetch :: cmds) (he : s.dec.err = none) (hd : decodeOpcode s.cfg s.source = .ok (i, tail))
    (hp : s.dec.pos.toNat + i.length < 2 ^ 64) :
    step s = exec i { s with
      commands := cmds, source := tail, dec := { s.dec with pos := s.dec.pos + BitVec.ofNat 64 i.length } } := by
  obtain ⟨-, hlen, hf⟩ := fetchOpcode_eq (s := { s with commands := cmds }) hd
  have hl : 1 + (i.length - 1) = i.length := by omega
  have hpos : fetchedPos s.dec.pos (i.length - 1) = s.dec.pos + BitVec.ofNat 64 i.length := by
    rw [fetchedPos_of_lt (by rwa [hl]), hl]
  rw [step_decFetch hc he, fetchAndExec, hf, execFetched, hpos]

/-- DEC_HEADER executes the header at the head of the source, its 14 bytes taken and counted (R112). -/
theorem step_decHeader_exec {s : State} {cmds : List Command} {i : Instr} {tail : List Byte}
    (hc : s.commands = .decHeader :: cmds) (he : s.dec.err = none) (hd : decodeHeader s.cfg s.source = .ok (i, tail))
    (hp : s.dec.pos.toNat + 14 < 2 ^ 64) :
    step s = exec i { s with
      commands := cmds, source := tail, dec := { s.dec with pos := s.dec.pos + BitVec.ofNat 64 14 } } := by
  obtain ⟨hx, ht⟩ := headerAndExec_decoded (s := { s with commands := cmds }) hd
  rw [step_decHeader hc he, hx, takeBytes, advancePos_of_lt hp, ht]

/-- ENC_END executes END (R236). -/
theorem step_encEnd_exec {s : State} {cmds : List Command} (hc : s.commands = .encEnd :: cmds) :
    step s = exec .endMarker { s with commands := cmds } := step_legal hc rfl

/-! ### Table words -/

/-- What a table word decodes to is what its bytes decode to at its place. -/
theorem decode_of_tableWord {cfg : Config} {nbits w : Nat} {i : Instr} (h : decodeTableWordWith cfg nbits w = some i) :
    ∃ tail, decode cfg (tablePart cfg nbits w) (tableBytes cfg nbits w) = .ok (i, tail) := by
  unfold decodeTableWordWith at h
  split at h
  · cases h
  · split at h
    · next j tail hd => cases h; exact ⟨tail, hd⟩
    · cases h

/-- The bytes of an opcode placed in front of the source are fetched and executed by the next step. -/
theorem step_placed_opcode {s : State} {i : Instr} {bs tail : List Byte} (hd : decodeOpcode s.cfg bs = .ok (i, tail))
    (hp : s.dec.pos.toNat + 14 < 2 ^ 64) :
    step (placeWord .opcode bs s) = exec i { s with
      source := tail ++ s.source
      dec := { s.dec with err := none, pos := s.dec.pos + BitVec.ofNat 64 i.length } } := by
  have hl := opcode_length_le (decodeOpcode_part hd)
  exact step_decFetch_exec (s := placeWord .opcode bs s) (cmds := s.commands) rfl rfl (decodeOpcode_append hd s.source)
    (show s.dec.pos.toNat + i.length < 2 ^ 64 by omega)

/-- The bytes of a header placed in front of the source are taken and executed by the next step. -/
theorem step_placed_header {s : State} {i : Instr} {bs tail : List Byte} (hd : decodeHeader s.cfg bs = .ok (i, tail))
    (hp : s.dec.pos.toNat + 14 < 2 ^ 64) :
    step (placeWord .header bs s) = exec i { s with
      source := tail ++ s.source
      dec := { s.dec with err := none, pos := s.dec.pos + BitVec.ofNat 64 i.length } } := by
  obtain ⟨hpart, hd'⟩ := decodeHeader_append hd s.source
  rw [header_length hpart]
  exact step_decHeader_exec (s := placeWord .header bs s) (cmds := s.commands) rfl rfl hd' hp

/-- Settles O19: by the part the word belongs to, whose command fetches (or, for the end marker, is) the instruction. -/
theorem placedWordRuns : Obligations.PlacedWordRuns := by
  intro s nbits w i hw hp
  obtain ⟨tail, hd⟩ := decode_of_tableWord hw
  rw [State.withFetchWord]
  generalize tableBytes s.cfg nbits w = bs at hd ⊢
  cases hpart : tablePart s.cfg nbits w with rw [hpart] at hd
  | opcode =>
    have hi : i.part = .opcode := decodeOpcode_part hd
    exact ⟨fun _ => ⟨tail, step_placed_opcode hd hp⟩, fun he => by rw [hi] at he; cases he⟩
  | header =>
    have hi : i.part = .header := (decodeHeader_append hd []).1
    exact ⟨fun _ => ⟨tail, step_placed_header hd hp⟩, fun he => by rw [hi] at he; cases he⟩
  | endMarker =>
    obtain rfl : i = .endMarker := decodeEnd_eq_endMarker hd
    exact ⟨fun hne => absurd rfl hne, fun _ => step_encEnd_exec rfl⟩

/-! ### The operands of ENC_IMAGE -/

/-- Legal header operands fit the header's fields, and their tags are recognized (R51, R113). -/
theorem headerOperands_of_legal {cfg : Config} {w h ch cs : Nat} (hl : headerOperandsLegal cfg w h ch cs = true) :
    w < 2 ^ 32 ∧ h < 2 ^ 32 ∧ tagsLegal cfg (BitVec.ofNat 8 ch) (BitVec.ofNat 8 cs) := by
  simp only [headerOperandsLegal, Bool.and_eq_true, decide_eq_true_eq, Bool.or_eq_true, beq_iff_eq] at hl
  obtain ⟨⟨⟨hw, hh⟩, hch⟩, hcs⟩ := hl
  refine ⟨hw, hh, ?_, ?_⟩
  · rcases hch with rfl | rfl <;> simp [channelsRecognized]
  · rcases hcs with rfl | rfl <;> simp [colorspaceRecognized]

/-- A legal ENC_IMAGE has legal header operands and exactly w*h pixels (R51). -/
theorem encImage_legal_iff {cfg : Config} {w h ch cs : Nat} {pixels : List Color} :
    (Command.encImage w h ch cs pixels).legal cfg = true ↔
      headerOperandsLegal cfg w h ch cs = true ∧ pixels.length = w * h := by
  simp [Command.legal]

/-! ### DEC_IMAGE on encoded opcodes -/

/-- Every opcode is at least one byte long, so a list of them has no more opcodes than bytes. -/
theorem length_le_encodeAll {cfg : Config} {is : List Instr} (hi : ∀ i ∈ is, Emittable cfg i) :
    is.length ≤ (encodeAll cfg is).length := by
  induction is with
  | nil => exact Nat.le_refl 0
  | cons i is ih =>
    have h1 := encode_length_pos cfg (hi i (List.mem_cons_self ..)).2
    have h2 := ih fun j hj => hi j (List.mem_cons_of_mem _ hj)
    simp only [List.length_cons, encodeAll_cons, List.length_append]
    omega

/-- DEC_IMAGE on a header and opcodes that fill its image exactly: the image is what the opcodes stand for, and the bytes
behind them are left unread. -/
theorem imageAndExec_encoded {s : State} {w h : BitVec 32} {ch cs : Byte} {is : List Instr} {tail : List Byte}
    (hc : s.cfg.Legal) (ht : tagsLegal s.cfg ch cs) (hm : w.toNat * h.toNat ≤ s.cfg.maxPixels)
    (hi : ∀ i ∈ is, Emittable s.cfg i) (hn : countAll is = w.toNat * h.toNat)
    (hs : s.source = headerBytes s.cfg w h ch cs ++ (encodeAll s.cfg is ++ tail)) :
    ∃ v, imageAndExec s = .next v ∧ v.decResult = some (.image w h ch cs)
      ∧ v.pixOut = s.pixOut ++ pixelsOf s.cfg Cache.reset Color.seed is ∧ v.dec.err = none ∧ v.source = tail := by
  have hfuel : is.length ≤ (encodeAll s.cfg is ++ tail).length := by
    have := length_le_encodeAll hi
    rw [List.length_append]; omega
  have htotal : (loopStart s w h ch cs (encodeAll s.cfg is ++ tail)).dec.idx.toNat + countAll is
      = (loopStart s w h ch cs (encodeAll s.cfg is ++ tail)).dec.npix.toNat := by
    show 0 + countAll is = (w.zeroExtend 64 * h.zeroExtend 64 : BitVec 64).toNat
    rw [npix_exact, hn, Nat.zero_add]
  obtain ⟨p, r, hloop⟩ := imageLoop_encoded is _ (loopStart s w h ch cs (encodeAll s.cfg is ++ tail)) tail hc hi rfl
    hfuel rfl htotal
  refine ⟨_, imageAndExec_loop ht hm hs hloop, ?_⟩
  rw [closeImage_done rfl]
  exact ⟨rfl, rfl, rfl, rfl⟩

/-! ### The round trip -/

/-- What the encoder emits for an image from reset stands for its pixels, and counts them (R207). -/
theorem imageInstrs_reset {cfg : Config} (ha : cfg.SeedApart) (pixels : List Color) :
    pixelsOf cfg Cache.reset Color.seed (imageInstrs cfg Encoder.reset pixels) = pixels
      ∧ countAll (imageInstrs cfg Encoder.reset pixels) = pixels.length := by
  have hpix : pixelsOf cfg Cache.reset Color.seed (imageInstrs cfg Encoder.reset pixels) = pixels :=
    ((beside_reset cfg).image ha pixels).1
  refine ⟨hpix, ?_⟩
  rw [← pixelsOf_length cfg _ Cache.reset Color.seed, hpix]

/-- The bytes ENC_IMAGE emits: header, opcodes, end marker (R241). -/
def imageBytes (cfg : Config) (w h ch cs : Nat) (pixels : List Color) : List Byte :=
  headerBytes cfg (BitVec.ofNat 32 w) (BitVec.ofNat 32 h) (BitVec.ofNat 8 ch) (BitVec.ofNat 8 cs)
    ++ encodeAll cfg (imageInstrs cfg Encoder.reset pixels) ++ cfg.endMarker.toList

/-- A legal ENC_IMAGE appends its bytes to the sink (R240). -/
theorem step_encImage {s : State} {cmds : List Command} {w h ch cs : Nat} {pixels : List Color}
    (hc : s.commands = .encImage w h ch cs pixels :: cmds)
    (hl : (Command.encImage w h ch cs pixels).legal s.cfg = true) :
    step s = .next { s with
      commands := cmds
      enc := { regsAfter s.cfg Encoder.reset pixels with run := 0 }
      sink := s.sink ++ imageBytes s.cfg w h ch cs pixels } := by
  rw [step_legal hc hl]
  exact encImage_eq w h ch cs pixels { s with commands := cmds }

/-- DEC_IMAGE on the bytes of a legal image returns the image and leaves the end marker unread (R18, R88). -/
theorem step_decImage_imageBytes {s : State} {cmds : List Command} {w h ch cs : Nat} {pixels : List Color}
    {tail : List Byte} (hlegal : s.cfg.Legal) (ha : s.cfg.SeedApart) (hm : w * h ≤ s.cfg.maxPixels)
    (hl : (Command.encImage w h ch cs pixels).legal s.cfg = true) (he : s.dec.err = none)
    (hc : s.commands = .decImage :: cmds) (hs : s.source = imageBytes s.cfg w h ch cs pixels ++ tail) :
    ∃ v, step s = .next v
      ∧ v.decResult = some (.image (BitVec.ofNat 32 w) (BitVec.ofNat 32 h) (BitVec.ofNat 8 ch) (BitVec.ofNat 8 cs))
      ∧ v.pixOut = s.pixOut ++ pixels ∧ v.dec.err = none ∧ v.source = s.cfg.endMarker.toList ++ tail := by
  obtain ⟨hops, hlen⟩ := encImage_legal_iff.mp hl
  obtain ⟨hw, hh, ht⟩ := headerOperands_of_legal hops
  obtain ⟨hpix, hcount⟩ := imageInstrs_reset ha pixels
  have harea : (BitVec.ofNat 32 w).toNat * (BitVec.ofNat 32 h).toNat = w * h := by
    rw [BitVec.toNat_ofNat, BitVec.toNat_ofNat, Nat.mod_eq_of_lt hw, Nat.mod_eq_of_lt hh]
  have hem := imageInstrs_emittable s.cfg pixels Encoder.reset (Nat.zero_le _)
  obtain ⟨v, hv, hres, hout, herr, hsrc⟩ := imageAndExec_encoded (s := { s with commands := cmds })
    (tail := s.cfg.endMarker.toList ++ tail) hlegal ht (harea.trans_le hm) hem (by rw [hcount, hlen, harea])
    (by simp only [hs, imageBytes, List.append_assoc])
  rw [hpix] at hout
  exact ⟨v, (step_decImage hc he).trans hv, hres, hout, herr, hsrc⟩

/-- Settles O52: ENC_IMAGE emits a header, opcodes that stand for the pixels beside a decoder just reset, and the end marker;
DEC_IMAGE takes the header and exactly those opcodes. -/
theorem imageRoundTrip : Obligations.ImageRoundTrip := by
  intro s t u c1 c2 w h ch cs pixels tail hc ha hm hl hcfg he hstep
  obtain rfl := Host.Outcome.next.inj ((step_encImage (by rfl) (by exact hl)).symm.trans hstep)
  refine ⟨imageBytes s.cfg w h ch cs pixels, ?_⟩
  rw [← hcfg] at hc ha hm hl ⊢
  obtain ⟨v, hv⟩ := step_decImage_imageBytes (s := { u with
    commands := .decImage :: c2, source := imageBytes u.cfg w h ch cs pixels ++ tail }) hc ha hm hl he rfl rfl
  exact ⟨v, rfl, hv⟩

end Sys2Proof.Machine

/-! ## The state statements: registers in their legal sets (O11, O12), the two units apart (O55, O56), D.POS (O59), reset
values (O31) -/

namespace Sys2Proof.Machine

open Sys2Proof

/-! ### What each command does -/

/-- The encoder's registers after a command. -/
def encRegsAfter (cfg : Config) (e : Encoder) : Command → Encoder
  | .encReset => Encoder.reset
  | .encHeader _ _ _ _ => e
  | .encPush px => pushRegs cfg e px
  | .encFlush => { e with run := 0 }
  | .encEnd => e
  | .encImage _ _ _ _ pixels => { regsAfter cfg Encoder.reset pixels with run := 0 }
  | .decReset => e
  | .decHeader => e
  | .decFetch => e
  | .decImage => e
  | .readReg _ => e

/-- The bytes a command appends to the sink. -/
def encBytes (cfg : Config) (e : Encoder) : Command → List Byte
  | .encReset => []
  | .encHeader w h ch cs => headerBytes cfg (BitVec.ofNat 32 w) (BitVec.ofNat 32 h) (BitVec.ofNat 8 ch) (BitVec.ofNat 8 cs)
  | .encPush px => encodeAll cfg (pushInstrs cfg e px)
  | .encFlush => encodeAll cfg (pendingInstrs e.run)
  | .encEnd => cfg.endMarker.toList
  | .encImage w h ch cs pixels =>
      headerBytes cfg (BitVec.ofNat 32 w) (BitVec.ofNat 32 h) (BitVec.ofNat 8 ch) (BitVec.ofNat 8 cs)
        ++ encodeAll cfg (imageInstrs cfg Encoder.reset pixels) ++ cfg.endMarker.toList
  | .decReset => []
  | .decHeader => []
  | .decFetch => []
  | .decImage => []
  | .readReg _ => []

/-- A command of the encoder in one equation: new registers and appended bytes, from the configuration and the registers alone
(R51, R65). -/
theorem commandEffect_enc {c : Command} (hc : c.isEnc = true) (s : State) :
    commandEffect c s = .next { s with
      enc := encRegsAfter s.cfg s.enc c, sink := s.sink ++ encBytes s.cfg s.enc c } := by
  cases c with
  | encReset => simp only [commandEffect, encReset, encRegsAfter, encBytes, List.append_nil]
  | encHeader w h ch cs => exact congrArg Host.Outcome.next (encHeader_eq w h ch cs s)
  | encPush px => exact congrArg Host.Outcome.next (encPush_eq px s)
  | encFlush => exact congrArg Host.Outcome.next (flushRun_eq s)
  | encEnd => exact encEnd_eq s
  | encImage w h ch cs pixels => exact encImage_eq w h ch cs pixels s
  | decReset | decHeader | decFetch | decImage | readReg => cases hc

/-- The ways a command that completes goes: one of the encoder, a register read, or one of the decoder, which resets, is stopped
by a recorded error (R286), or runs. -/
inductive CommandRuns : Command → State → State → Prop
  | enc {c : Command} {s : State} (hc : c.isEnc = true) :
      CommandRuns c s { s with enc := encRegsAfter s.cfg s.enc c, sink := s.sink ++ encBytes s.cfg s.enc c }
  | readReg {r : Reg} {s : State} : CommandRuns (.readReg r) s (readReg r s)
  | decReset {s : State} : CommandRuns .decReset s (decReset s)
  | stopped {c : Command} {s : State} {k : ErrKind} (hc : c.isDec = true) (hr : c ≠ .decReset)
      (he : s.dec.err = some k) : CommandRuns c s { s with decResult := some (.error k) }
  | decHeader {s t : State} (he : s.dec.err = none) (h : headerAndExec s = .next t) : CommandRuns .decHeader s t
  | decFetch {s t : State} (he : s.dec.err = none) (h : fetchAndExec s = .next t) : CommandRuns .decFetch s t
  | decImage {s t : State} (he : s.dec.err = none) (h : imageAndExec s = .next t) : CommandRuns .decImage s t

/-- A guarded command is stopped by a recorded error or runs. -/
theorem commandRuns_of_unlessStopped {c : Command} {f : State → Host.Outcome State Fault Refusal} {s t : State}
    (hc : c.isDec = true) (hr : c ≠ .decReset) (hrun : s.dec.err = none → f s = .next t → CommandRuns c s t)
    (h : unlessStopped f s = .next t) : CommandRuns c s t := by
  cases he : s.dec.err with
  | some k =>
    obtain rfl := Host.Outcome.next.inj ((unlessStopped_stopped he).symm.trans h)
    exact .stopped hc hr he
  | none => exact hrun he ((unlessStopped_running he).symm.trans h)

theorem commandRuns_of_commandEffect {c : Command} {s t : State} (h : commandEffect c s = .next t) : CommandRuns c s t := by
  have henc (hc : c.isEnc = true) : CommandRuns c s t := by
    obtain rfl := Host.Outcome.next.inj ((commandEffect_enc hc s).symm.trans h)
    exact .enc hc
  cases c with
  | encReset | encHeader | encPush | encFlush | encEnd | encImage => exact henc rfl
  | decReset => obtain rfl := Host.Outcome.next.inj h; exact .decReset
  | readReg r => obtain rfl := Host.Outcome.next.inj h; exact .readReg
  | decHeader => exact commandRuns_of_unlessStopped rfl (by decide) .decHeader h
  | decFetch => exact commandRuns_of_unlessStopped rfl (by decide) .decFetch h
  | decImage => exact commandRuns_of_unlessStopped rfl (by decide) .decImage h

/-- A step with a command pending that answers a next state is the command's effect. -/
theorem commandEffect_of_step {s t : State} {c : Command} {cmds : List Command} (hc : s.commands = c :: cmds)
    (h : step s = .next t) : commandEffect c { s with commands := cmds } = .next t := by
  rcases step_next h with ⟨hnil, -⟩ | ⟨c', cmds', hc', -, heff⟩
  · rw [hnil] at hc; cases hc
  · rw [hc] at hc'; cases hc'; exact heff

theorem commandRuns_of_step {s t : State} {c : Command} {cmds : List Command} (hc : s.commands = c :: cmds)
    (h : step s = .next t) : CommandRuns c { s with commands := cmds } t :=
  commandRuns_of_commandEffect (commandEffect_of_step hc h)

theorem Command.isDec_eq_false_of_isEnc {c : Command} (h : c.isEnc = true) : c.isDec = false := by
  cases c with
  | encReset | encHeader | encPush | encFlush | encEnd | encImage => rfl
  | decReset | decHeader | decFetch | decImage | readReg => cases h

/-! ### What a decoder command keeps (R20, R22, R28, R30, R32) -/

/-- The decoder's part of `State.RegsLegal`. -/
def Decoder.RegsLegal (cfg : Config) (d : Decoder) : Prop :=
  d.idx.toNat ≤ d.npix.toNat
    ∧ (d.hdrValid = false → d.width = 0 ∧ d.height = 0 ∧ d.channels = 0 ∧ d.colorspace = 0)
    ∧ (d.hdrValid = true → tagsLegal cfg d.channels d.colorspace)

theorem regsLegal_iff (s : State) : s.RegsLegal ↔ s.enc.run.toNat ≤ 61 ∧ s.dec.RegsLegal s.cfg := Iff.rfl

theorem decoder_reset_regsLegal (cfg : Config) : Decoder.reset.RegsLegal cfg :=
  ⟨Nat.le_refl _, fun _ => ⟨rfl, rfl, rfl, rfl⟩, fun h => nomatch h⟩

/-- What a command of the decoder keeps: all but the decoder's registers and streams and its result, and the legal sets. -/
structure DecKeeps (s t : State) : Prop where
  frame : t = { s with dec := t.dec, source := t.source, pixOut := t.pixOut, decResult := t.decResult }
  legal : s.dec.RegsLegal s.cfg → t.dec.RegsLegal s.cfg

theorem fetchAndExec_keeps {s t : State} (h : fetchAndExec s = .next t) : DecKeeps s t := by
  obtain ⟨u, p, hu, -, hframe, -⟩ := fetchAndExec_frame s
  obtain rfl := Host.Outcome.next.inj (hu.symm.trans h)
  rw [hframe]
  exact ⟨rfl, id⟩

theorem headerAndExec_keeps {s t : State} (h : headerAndExec s = .next t) : DecKeeps s t := by
  obtain ⟨u, p, hu, -, hframe, hhdr⟩ := headerAndExec_frame s
  obtain rfl := Host.Outcome.next.inj (hu.symm.trans h)
  refine ⟨by rw [hframe], fun ⟨hidx, hnone, hsome⟩ => ?_⟩
  have hidx' : u.dec.idx.toNat ≤ u.dec.npix.toNat := by rw [hframe]; exact hidx
  rcases hhdr with ⟨hv, hw, hh, hch, hcs⟩ | ⟨hv, htags⟩
  · exact ⟨hidx', by rw [hv, hw, hh, hch, hcs]; exact hnone, by rw [hv, hch, hcs]; exact hsome⟩
  · exact ⟨hidx', fun hf => (nomatch hv.symm.trans hf), fun _ => htags⟩

theorem imageAndExec_keeps {s t : State} (h : imageAndExec s = .next t) : DecKeeps s t := by
  obtain ⟨u, hu, hframe⟩ := imageAndExec_frame s
  obtain rfl := Host.Outcome.next.inj (hu.symm.trans h)
  have hcfg : u.cfg = s.cfg := by rw [hframe.frame]
  exact ⟨hframe.frame, fun _ => ⟨hframe.idx, hframe.noHeader, hcfg ▸ hframe.header⟩⟩

theorem CommandRuns.decKeeps {c : Command} {s t : State} (h : CommandRuns c s t) (hc : c.isDec = true) : DecKeeps s t := by
  cases h with
  | enc he => exact nomatch (Command.isDec_eq_false_of_isEnc he).symm.trans hc
  | readReg => cases hc
  | decReset => exact ⟨rfl, fun _ => decoder_reset_regsLegal _⟩
  | stopped => exact ⟨rfl, id⟩
  | decHeader _ h => exact headerAndExec_keeps h
  | decFetch _ h => exact fetchAndExec_keeps h
  | decImage _ h => exact imageAndExec_keeps h

/-! ### Registers in their legal sets (R22, R28, R30, R32) -/

theorem encRegsAfter_run_le (cfg : Config) {e : Encoder} (h : e.run.toNat ≤ 61) (c : Command) :
    (encRegsAfter cfg e c).run.toNat ≤ 61 := by
  cases c with
  | encPush px => exact pushRegs_run_le cfg h px
  | encReset | encFlush | encImage => exact Nat.zero_le _
  | encHeader | encEnd | decReset | decHeader | decFetch | decImage | readReg => exact h

theorem CommandRuns.regsLegal {c : Command} {s t : State} (h : CommandRuns c s t) (hs : s.RegsLegal) : t.RegsLegal := by
  obtain ⟨hrun, hdec⟩ := (regsLegal_iff s).mp hs
  have of_dec (hc : c.isDec = true) : t.RegsLegal := by
    obtain ⟨hframe, hlegal⟩ := h.decKeeps hc
    rw [regsLegal_iff, hframe]
    exact ⟨hrun, hlegal hdec⟩
  cases h with
  | enc => exact ⟨encRegsAfter_run_le s.cfg hrun c, hdec⟩
  | readReg => exact hs
  | stopped hc => exact of_dec hc
  | decReset | decHeader | decFetch | decImage => exact of_dec rfl

/-- Settles O11, by the ways a command goes. -/
theorem registersStayLegal : Obligations.RegistersStayLegal := by
  intro s t hs h
  cases hc : s.commands with
  | nil =>
    obtain rfl := Host.Outcome.next.inj ((step_idle hc).symm.trans h)
    exact hs
  | cons c cmds => exact (commandRuns_of_step hc h).regsLegal hs

/-! ### The two units apart (R20, R65) -/

/-- Settles O55: a command of one unit, and a register read, writes nothing of the other. -/
theorem unitsWriteOnlyTheirOwn : Obligations.UnitsWriteOnlyTheirOwn := by
  intro s t c cmds hc h
  have hrun := commandRuns_of_step hc h
  cases hd : c.isDec with
  | true =>
    rw [(hrun.decKeeps hd).frame]
    exact ⟨rfl, rfl, fun _ => ⟨rfl, rfl⟩, fun hf => nomatch hf⟩
  | false =>
    cases hrun with
    | enc he => exact ⟨rfl, rfl, fun hf => (nomatch he.symm.trans hf), fun _ => ⟨rfl, rfl, rfl, rfl⟩⟩
    | readReg => exact ⟨rfl, rfl, fun _ => ⟨rfl, rfl⟩, fun _ => ⟨rfl, rfl, rfl, rfl⟩⟩
    | stopped hd' => exact nomatch hd.symm.trans hd'
    | decReset | decHeader | decFetch | decImage => cases hd

theorem unlessStopped_beside {f : State → Host.Outcome State Fault Refusal} {o s : State}
    (hf : f (s.decPartOf o) = beside o (f s)) :
    unlessStopped f (s.decPartOf o) = beside o (unlessStopped f s) := by
  cases he : s.dec.err with
  | some k => rw [unlessStopped_stopped he, unlessStopped_stopped (s := s.decPartOf o) he]; rfl
  | none => rw [unlessStopped_running he, unlessStopped_running (s := s.decPartOf o) he, hf]

/-- A command of the decoder does the same beside any other rest of the state. -/
theorem commandEffect_beside {c : Command} (hc : c.isDec = true) (o s : State) :
    commandEffect c (s.decPartOf o) = beside o (commandEffect c s) := by
  cases c with
  | decReset => rfl
  | decHeader => exact unlessStopped_beside (headerAndExec_beside o s)
  | decFetch => exact unlessStopped_beside (fetchAndExec_beside o s)
  | decImage => exact unlessStopped_beside (imageAndExec_beside o s)
  | encReset | encHeader | encPush | encFlush | encEnd | encImage | readReg => cases hc

/-- Two states whose parts of the decoder agree differ only in the rest. -/
theorem eq_decPartOf {s1 s2 : State} (hcfg : s1.cfg = s2.cfg) (hdec : s1.dec = s2.dec) (hsrc : s1.source = s2.source)
    (hpix : s1.pixOut = s2.pixOut) (hres : s1.decResult = s2.decResult) : s2 = s1.decPartOf s2 := by
  simp only [State.decPartOf, hcfg, hdec, hsrc, hpix, hres]

/-- Settles O56: a command of the encoder is a function of the configuration, the encoder and the sink; one of the decoder does
the same beside any other rest of the state. -/
theorem unitsReadOnlyTheirOwn : Obligations.UnitsReadOnlyTheirOwn := by
  intro s1 s2 t1 t2 c cmds1 cmds2 hcfg h1 h2
  have e1 := commandEffect_of_step (by rfl) h1
  have e2 := commandEffect_of_step (by rfl) h2
  refine ⟨fun hc henc hsink => ?_, fun hc hdec hsrc hpix hres => ?_⟩
  · obtain rfl := Host.Outcome.next.inj ((commandEffect_enc hc _).symm.trans e1)
    obtain rfl := Host.Outcome.next.inj ((commandEffect_enc hc _).symm.trans e2)
    simp only [hcfg, henc, hsink, and_self]
  · rw [eq_decPartOf (s1 := { s1 with commands := cmds1 }) (s2 := { s2 with commands := cmds2 }) hcfg hdec hsrc hpix hres,
      commandEffect_beside hc, e1] at e2
    obtain rfl := Host.Outcome.next.inj e2
    exact ⟨rfl, rfl, rfl, rfl⟩

/-! ### D.POS counts the bytes taken (R27, R246) -/

/-- Every command but the two that reset the position adds to it what it takes. -/
theorem CommandRuns.counted {c : Command} {s t : State} (h : CommandRuns c s t) (hr : c ≠ .decReset)
    (hi : c = .decImage → s.dec.err ≠ none) : Counted s t := by
  cases h with
  | enc => exact .rfl' rfl rfl
  | readReg => exact .rfl' rfl rfl
  | decReset => exact absurd rfl hr
  | stopped => exact .rfl' rfl rfl
  | decHeader _ h => exact headerAndExec_counted h
  | decFetch _ h => exact fetchAndExec_counted h
  | decImage he => exact absurd he (hi rfl)

/-- From a position of 0 the count is the position. -/
theorem Counted.from_zero {s t : State} (h : Counted s t) (h0 : s.dec.pos = 0) :
    ∃ taken, s.source = taken ++ t.source ∧ (taken.length < 2 ^ 64 → t.dec.pos = BitVec.ofNat 64 taken.length) := by
  obtain ⟨taken, hsrc, hpos⟩ := h
  refine ⟨taken, hsrc, fun hlt => ?_⟩
  rw [hpos (by simpa [h0] using hlt), h0]
  exact BitVec.zero_add _

/-- Settles O59: DEC_RESET and DEC_IMAGE start the count again, every other command adds what it takes. -/
theorem positionCountsTheBytesTaken : Obligations.PositionCountsTheBytesTaken := by
  intro s t c cmds hc h
  refine ⟨?_, ?_, (commandRuns_of_step hc h).counted⟩
  · rintro rfl
    obtain rfl := Host.Outcome.next.inj ((step_legal hc rfl).symm.trans h)
    exact ⟨rfl, rfl⟩
  · rintro rfl he
    rw [step_decImage hc he] at h
    exact (imageAndExec_counted h).from_zero rfl

/-! ### Reset (R36, R37, R138) -/

/-- Settles O12: both units' reset values are legal in any configuration, and the configuration of reset is a concrete one. -/
theorem resetSatisfiesInvariants : Obligations.ResetSatisfiesInvariants :=
  ⟨⟨hashed_reset _, hashed_reset _⟩, (regsLegal_iff _).mpr ⟨Nat.zero_le _, decoder_reset_regsLegal _⟩, by decide, by decide⟩

theorem step_encReset {s : State} {cmds : List Command} (hc : s.commands = .encReset :: cmds) :
    step s = .next { s with commands := cmds, enc := Encoder.reset } := step_legal hc rfl

theorem step_decReset {s : State} {cmds : List Command} (hc : s.commands = .decReset :: cmds) :
    step s = .next { s with commands := cmds, dec := Decoder.reset, decResult := none } := step_legal hc rfl

/-- Settles O31: the caches hold the zero colour in every slot, and each unit's reset command writes its reset value. -/
theorem resetValues : Obligations.ResetValues :=
  ⟨lookup_reset, rfl, rfl, lookup_reset, rfl, rfl, rfl, rfl, rfl, rfl, rfl, rfl, rfl, rfl,
    fun s cmds => ⟨step_encReset (s := { s with commands := .encReset :: cmds }) rfl,
      none, step_decReset (s := { s with commands := .decReset :: cmds }) rfl⟩⟩

end Sys2Proof.Machine

/-! ## The memory statements: every legal command completes (O57), the streams move forward (O58), a register read is
read-only (O32) -/

namespace Sys2Proof.Machine

open Sys2Proof

/-! ### Every legal command completes (R51, R250, R292) -/

/-- A guarded command completes if it completes where no error is recorded; a recorded error it only reports (R286). -/
theorem unlessStopped_completes {f : State → Host.Outcome State Fault Refusal} {s : State} (hf : ∃ t, f s = .next t) :
    ∃ t, unlessStopped f s = .next t := by
  cases he : s.dec.err with
  | some k => exact ⟨_, unlessStopped_stopped he⟩
  | none => rwa [unlessStopped_running he]

/-- No effect of a command is a fault or a refusal, from any state. -/
theorem commandEffect_completes (c : Command) (s : State) : ∃ t, commandEffect c s = .next t := by
  cases c with
  | encReset | encHeader | encPush | encFlush | encEnd | encImage => exact ⟨_, commandEffect_enc rfl s⟩
  | decReset | readReg => exact ⟨_, rfl⟩
  | decHeader =>
    obtain ⟨t, -, ht, -⟩ := headerAndExec_frame s
    exact unlessStopped_completes ⟨t, ht⟩
  | decFetch =>
    obtain ⟨t, -, ht, -⟩ := fetchAndExec_frame s
    exact unlessStopped_completes ⟨t, ht⟩
  | decImage =>
    obtain ⟨t, ht, -⟩ := imageAndExec_frame s
    exact unlessStopped_completes ⟨t, ht⟩

/-- Settles O57: a legal command is its effect, which completes; an illegal one is refused before it has any. -/
theorem everyLegalCommandCompletes : Obligations.EveryLegalCommandCompletes := by
  intro s c cmds
  refine ⟨fun hl => ?_, fun hl => ?_, step_idle (s := { s with commands := [] }) rfl⟩
  · rw [step_legal (s := { s with commands := c :: cmds }) rfl hl]
    exact commandEffect_completes c _
  · exact step_illegal (s := { s with commands := c :: cmds }) rfl hl

/-! ### The streams move forward (R53, R54, R62) -/

/-- Only a command of the encoder writes to the sink, and it appends. -/
theorem CommandRuns.sink_appended {c : Command} {s t : State} (h : CommandRuns c s t) : ∃ out, t.sink = s.sink ++ out := by
  have of_dec (hc : c.isDec = true) : ∃ out, t.sink = s.sink ++ out :=
    ⟨[], by rw [(h.decKeeps hc).frame, List.append_nil]⟩
  cases h with
  | enc => exact ⟨_, rfl⟩
  | readReg => exact ⟨[], (List.append_nil _).symm⟩
  | stopped hc => exact of_dec hc
  | decReset | decHeader | decFetch | decImage => exact of_dec rfl

theorem Counted.source_taken {s t : State} (h : Counted s t) : ∃ taken, s.source = taken ++ t.source := by
  obtain ⟨taken, hsrc, -⟩ := h
  exact ⟨taken, hsrc⟩

/-- Only the three reading commands of the decoder take from the source, and what they take is counted from its front; the
reset inside DEC_IMAGE does not rewind it (R312). -/
theorem CommandRuns.source_taken {c : Command} {s t : State} (h : CommandRuns c s t) :
    ∃ taken, s.source = taken ++ t.source := by
  cases h with
  | enc | readReg | decReset | stopped => exact ⟨[], rfl⟩
  | decHeader _ h => exact (headerAndExec_counted h).source_taken
  | decFetch _ h => exact (fetchAndExec_counted h).source_taken
  | decImage _ h => exact (imageAndExec_counted h).source_taken

/-- Settles O58, by the ways a command goes. -/
theorem streamsMoveForward : Obligations.StreamsMoveForward := by
  intro s t h
  cases hc : s.commands with
  | nil =>
    obtain rfl := Host.Outcome.next.inj ((step_idle hc).symm.trans h)
    exact ⟨⟨[], (List.append_nil _).symm⟩, ⟨[], rfl⟩⟩
  | cons c cmds =>
    have hrun := commandRuns_of_step hc h
    exact ⟨hrun.sink_appended, hrun.source_taken⟩

/-! ### A register read (R57, R301, R31) -/

theorem step_readReg {s : State} {cmds : List Command} {r : Reg} (hc : s.commands = .readReg r :: cmds) :
    step s = .next { s with commands := cmds, dbgValue := some (regValue { s with commands := cmds } r) } :=
  step_legal hc rfl

/-- A register's value does not depend on the commands pending. -/
theorem regValue_commands (s : State) (cmds : List Command) (r : Reg) :
    regValue { s with commands := cmds } r = regValue s r := by
  cases r <;> rfl

theorem hdrValidBit_toNat (v : Bool) : (hdrValidBit v).toNat = if v then 1 else 0 := by
  cases v <;> rfl

/-- Settles O32: a read is one update of the port's value, and each register's value is its content as a number or a colour. -/
theorem debugReadOnly : Obligations.DebugReadOnly := by
  refine ⟨fun s cmds r => ?_, fun s => ?_, fun s i => ?_⟩
  · rw [step_readReg (s := { s with commands := .readReg r :: cmds }) rfl, regValue_commands s cmds r]
  · show RegValue.number 3 (errCode s.dec.err).toNat = _
    cases s.dec.err with
    | none => rfl
    | some k => cases k <;> rfl
  · have hvalid : regValue s .decHdrValid = .number 1 (if s.dec.hdrValid then 1 else 0) :=
      congrArg (RegValue.number 1) (hdrValidBit_toNat s.dec.hdrValid)
    exact ⟨rfl, rfl, rfl, rfl, rfl, rfl, rfl, rfl, rfl, rfl, hvalid, rfl, rfl⟩

end Sys2Proof.Machine

/-! ## The encoding statements: decode and encode undo each other (O1, O2), the classes of a first byte (O3), words and
bytes written out (O4, O5) -/

namespace Sys2Proof.Machine

open Sys2Proof

/-! ### Decoding what was encoded (R82 to R85, R92, R111, R236) -/

theorem encode_hdr (cfg : Config) (w h : BitVec 32) (ch cs : Byte) :
    encode cfg (.hdr w h ch cs) = headerBytes cfg w h ch cs := by
  simp [encode, headerBytes]

theorem decodeEnd_endMarker (cfg : Config) (rest : List Byte) :
    decodeEnd cfg (cfg.endMarker.toList ++ rest) = .ok (.endMarker, rest) := by
  have hl : cfg.endMarker.toList.length = 8 := cfg.endMarker.length_toList
  rw [decodeEnd, if_neg (by rw [List.length_append]; omega), if_pos (List.take_left' hl), List.drop_left' hl]

/-- Settles O1, by the part of the stream the instruction stands in. -/
theorem decodeUndoesEncode : Obligations.DecodeUndoesEncode := by
  intro cfg i rest hc hw
  cases hp : i.part with
  | opcode => exact decodeOpcode_encode hc ⟨hw, hp⟩ rest
  | header =>
    cases i with
    | hdr w h ch cs => rw [encode_hdr]; exact decodeHeader_headerBytes cfg w h ch cs rest
    | _ => cases hp
  | endMarker =>
    cases i with
    | endMarker => exact decodeEnd_endMarker cfg rest
    | _ => cases hp

/-! ### Encoding what was decoded (R84, R89, R91) -/

theorem encode_length (cfg : Config) (i : Instr) : (encode cfg i).length = i.length := by
  cases i with
  | opRgb | opRgba | opIndex | opDiff | opLuma | opRun => rfl
  | hdr w h ch cs => exact Laws.EncodedLength.hdr w h ch cs cfg
  | endMarker => exact Laws.EncodedLength.endMarker cfg

/-- An opcode that decodes is well-formed, and its bytes are the ones read: by the branches of the decoder, where the fields
cut out of a byte of the class make up the byte again, and an unbiased field is in its range. -/
theorem decodeOpcode_sound {cfg : Config} (hc : cfg.Legal) {bs rest : List Byte} {i : Instr}
    (h : decodeOpcode cfg bs = .ok (i, rest)) : encode cfg i ++ rest = bs ∧ i.wellFormed cfg = true := by
  obtain ⟨-, hd, hg, hrb, -⟩ := id hc
  unfold decodeOpcode at h
  split at h
  · cases h
  · next b0 bs =>
    have hb := classify_cases hc b0
    -- each branch that answers, with what its class says of the byte
    split at h <;> cases h <;> rename_i hk <;>
      simp only [hk, reduceCtorEq, false_and, true_and, or_false, false_or] at hb
    · exact ⟨by rw [hb]; rfl, rfl⟩
    · exact ⟨by rw [hb]; rfl, rfl⟩
    · exact ⟨by rw [encode, hb]; rfl, rfl⟩
    · exact ⟨by simp only [encode, bias_unbias, hb]; rfl, by simp [Instr.wellFormed, unbias_holds hd]⟩
    · exact ⟨by simp only [encode, bias_unbias, pack_nibbles, hb]; rfl,
        by simp [Instr.wellFormed, unbias_holds hg, unbias_holds hrb]⟩
    · obtain ⟨hb, hle⟩ := hb
      exact ⟨by simp only [encode, Nat.add_sub_cancel, BitVec.ofNat_toNat, BitVec.setWidth_eq, hb]; rfl,
        decide_eq_true ⟨Nat.le_add_left 1 _, Nat.succ_le_succ hle⟩⟩

/-- A header that decodes has the magic in front (R114), and its numbers are written as they were read. -/
theorem encode_of_decodeHeader {cfg : Config} {bs rest : List Byte} {i : Instr}
    (h : decodeHeader cfg bs = .ok (i, rest)) : encode cfg i ++ rest = bs := by
  unfold decodeHeader at h
  split at h
  · split at h
    · next hm => cases h; simp only [encode, ← hm, be32_unbe32]; rfl
    · cases h
  · cases h

theorem encode_of_decodeEnd {cfg : Config} {bs rest : List Byte} {i : Instr}
    (h : decodeEnd cfg bs = .ok (i, rest)) : encode cfg i ++ rest = bs := by
  unfold decodeEnd at h
  split at h
  · cases h
  · split at h
    · next hm => cases h; rw [encode, ← hm, List.take_append_drop]
    · cases h

/-- Settles O2: the decoder of each part reads the encoding of what it gives, and a first byte with its class's operand bytes
is an opcode. -/
theorem decodedBytesAreTheEncoding : Obligations.DecodedBytesAreTheEncoding := by
  intro cfg hc
  refine ⟨fun part bs rest i h => ?_, fun b0 ops rest hl => ?_⟩
  · cases part with
    | header => exact ⟨(decodeHeader_append h []).1, encode_of_decodeHeader h, encode_length cfg i, nofun⟩
    | opcode =>
      obtain ⟨he, hw⟩ := decodeOpcode_sound hc h
      exact ⟨decodeOpcode_part h, he, encode_length cfg i, fun _ => hw⟩
    | endMarker =>
      obtain rfl := decodeEnd_eq_endMarker h
      exact ⟨rfl, encode_of_decodeEnd h, encode_length cfg _, nofun⟩
  · obtain ⟨i, hd, -⟩ := decodeOpcode_exact (cfg := cfg) (b0 := b0) (ops := ops) hl
    exact ⟨i, hd rest, (decodeOpcode_sound hc (hd rest)).2⟩

/-! ### The classes of a first byte (R83) -/

/-- The classes of the 256 first bytes, one after the other. -/
theorem wireV1_classes_in_order : (List.range 256).map (fun n => classify Config.wireV1 (BitVec.ofNat 8 n)) =
    List.replicate 64 .index ++ (List.replicate 64 .diff ++ (List.replicate 64 .luma ++ (List.replicate 62 .run
      ++ [.rgb, .rgba]))) := by
  have hsplit : List.range 256 =
      List.range' 0 64 ++ (List.range' 64 64 ++ (List.range' 128 64 ++ (List.range' 192 62 ++ List.range' 254 2))) := by
    rw [List.range_eq_range', List.range'_append_1 (s := 192), List.range'_append_1 (s := 128),
      List.range'_append_1 (s := 64), List.range'_append_1 (s := 0)]
  simp only [hsplit, List.map_append]
  rfl

/-- Settles O3: the first clause is finite, over the 256 bytes; the counts are read off the classes in order. -/
theorem firstBytesPartition : Obligations.FirstBytesPartition := by
  refine ⟨by decide, fun k => ?_⟩
  have hcount := congrArg (List.countP fun c => decide (c = k)) wireV1_classes_in_order
  rw [List.countP_map] at hcount
  refine hcount.trans ?_
  cases k <;> simp

/-! ### Words written out (R85, log entry 14) -/

/-- Settles O4: each word is a literal, which the decoder reads by evaluation. -/
theorem writtenWordsDecode : Obligations.WrittenWordsDecode := by
  unfold Obligations.WrittenWordsDecode
  decide

/-! ### The bytes of an opcode as numbers (R14, R92) -/

theorem indexByte_eq_ofNat (f : BitVec 6) : (0b00#2 ++ f : Byte) = BitVec.ofNat 8 f.toNat := by revert f; decide

theorem runByte_eq_ofNat (f : BitVec 6) : (0b11#2 ++ f : Byte) = BitVec.ofNat 8 (0xC0 + f.toNat) := by revert f; decide

theorem lumaByte_eq_ofInt (f : BitVec 6) : (0b10#2 ++ f : Byte) = BitVec.ofInt 8 (0x80 + f.toNat) := by revert f; decide

theorem diffByte_eq_ofInt (f g e : BitVec 2) :
    (0b01#2 ++ f ++ g ++ e : Byte) = BitVec.ofInt 8 (0x40 + f.toNat * 16 + g.toNat * 4 + e.toNat) := by
  revert f g e; decide

theorem nibbles_eq_ofInt (f g : BitVec 4) : (f ++ g : Byte) = BitVec.ofInt 8 (f.toNat * 16 + g.toNat) := by
  revert f g; decide

/-- Settles O5: each field is the number of its operand, and a byte is the weighted sum of its fields. -/
theorem emittedBytesInNumbers : Obligations.EmittedBytesInNumbers := by
  intro cfg hc
  obtain ⟨-, hd, hg, hrb, -⟩ := hc
  refine ⟨fun n h1 h62 => ?_, fun h => ?_, fun dr dg db hr hgr hb => ?_, fun dg drg dbg hgr hr hb => ?_,
    fun _ _ _ => rfl, fun _ _ _ _ => rfl⟩
  · have hn : (BitVec.ofNat 6 (n - 1)).toNat = n - 1 := Nat.mod_eq_of_lt (by omega)
    rw [encode, runByte_eq_ofNat, hn]
  · rw [encode, indexByte_eq_ofNat]
  · rw [encode, diffByte_eq_ofInt, biasField_toNat hd hr, biasField_toNat hd hgr, biasField_toNat hd hb]
  · simp only [encode, packNibbles, lumaByte_eq_ofInt, nibbles_eq_ofInt, biasField_toNat hg hgr, biasField_toNat hrb hr,
      biasField_toNat hrb hb]

end Sys2Proof.Machine

/-! ## The header statements: the codec (O6, O7), HDR executed (O16), the two header commands (O26, O27), the tags change
nothing else (O51) -/

namespace Sys2Proof.Machine

open Sys2Proof

/-! ### Recognized tags (R113) -/

theorem tagsLegal_iff {cfg : Config} {ch cs : Byte} :
    tagsLegal cfg ch cs ↔ (ch = 3 ∨ ch = 4) ∧ (cs = cfg.csSrgb ∨ cs = cfg.csLinear) := by
  simp only [tagsLegal, channelsRecognized, colorspaceRecognized, Bool.or_eq_true, beq_iff_eq, Config.chRgb, Config.chRgba]

/-- The test that `execHdr` and `hdrParse` make of the tags. -/
theorem recognized_iff_tagsLegal {cfg : Config} {ch cs : Byte} :
    (channelsRecognized ch && colorspaceRecognized cfg cs) = true ↔ tagsLegal cfg ch cs := by
  rw [Bool.and_eq_true]

/-! ### hdr_parse (R114, R117) -/

/-- A header that decodes parses when its tags are recognized, and is InvalidTag otherwise. -/
theorem hdrParse_of_decoded {cfg : Config} {bs rest : List Byte} {w h : BitVec 32} {ch cs : Byte}
    (hd : decodeHeader cfg bs = .ok (.hdr w h ch cs, rest)) :
    hdrParse cfg bs = if tagsLegal cfg ch cs then .ok (w, h, ch, cs) else .error .invalidTag := by
  simp only [hdrParse, hd, recognized_iff_tagsLegal]

theorem hdrParse_of_rejected {cfg : Config} {bs : List Byte} {k : Reject} (hd : decodeHeader cfg bs = .error k) :
    hdrParse cfg bs = .error (rejectError k) := by
  simp only [hdrParse, hd]

/-- What parses is a header that decodes to the same fields. -/
theorem decodeHeader_of_hdrParse {cfg : Config} {bs : List Byte} {w h : BitVec 32} {ch cs : Byte}
    (hp : hdrParse cfg bs = .ok (w, h, ch, cs)) : ∃ rest, decodeHeader cfg bs = .ok (.hdr w h ch cs, rest) := by
  cases hd : decodeHeader cfg bs with
  | error k => rw [hdrParse_of_rejected hd] at hp; cases hp
  | ok r =>
    obtain ⟨i, rest⟩ := r
    have hi : i.part = .header := (decodeHeader_append hd []).1
    cases i with
    | hdr w' h' ch' cs' =>
      rw [hdrParse_of_decoded hd] at hp
      split at hp
      · cases hp; exact ⟨rest, rfl⟩
      · cases hp
    | _ => cases hi

theorem headerBytes_length (cfg : Config) (w h : BitVec 32) (ch cs : Byte) : (headerBytes cfg w h ch cs).length = 14 := by
  simp [headerBytes, be32]

/-- Settles O6: header bytes decode to their fields, and the bytes of what decoded are the ones read, with none left over when
there are 14 of them. -/
theorem headerRoundTrip : Obligations.HeaderRoundTrip := by
  intro cfg
  refine ⟨fun w h ch cs ht => ?_, fun bs w h ch cs hl hp => ?_⟩
  · have hd := decodeHeader_headerBytes cfg w h ch cs []
    rw [List.append_nil] at hd
    rw [hdrParse_of_decoded hd, if_pos ht]
  · obtain ⟨rest, hd⟩ := decodeHeader_of_hdrParse hp
    have hb : headerBytes cfg w h ch cs ++ rest = bs := encode_hdr cfg w h ch cs ▸ encode_of_decodeHeader hd
    have hrest : rest = [] := by
      rw [← hb, List.length_append, headerBytes_length] at hl
      exact List.eq_nil_of_length_eq_zero (by omega)
    rw [← hb, hrest, List.append_nil]

/-- Settles O7: decoding tests the magic first; the tags are tested together, which is one test after the other, since each
fails with the same error. -/
theorem headerChecksInOrder : Obligations.HeaderChecksInOrder := by
  intro cfg m0 m1 m2 m3 w0 w1 w2 w3 h0 h1 h2 h3 ch cs
  by_cases hm : [m0, m1, m2, m3] = cfg.magic.toList
  · have hd : decodeHeader cfg [m0, m1, m2, m3, w0, w1, w2, w3, h0, h1, h2, h3, ch, cs] =
        .ok (.hdr (unbe32 w0 w1 w2 w3) (unbe32 h0 h1 h2 h3) ch cs, []) := if_pos hm
    rw [hdrParse_of_decoded hd, if_neg (not_not.mpr hm)]
    simp only [tagsLegal_iff, ite_and, ne_eq, ← not_or, ite_not]
  · have hd : decodeHeader cfg [m0, m1, m2, m3, w0, w1, w2, w3, h0, h1, h2, h3, ch, cs] = .error .badMagic := if_neg hm
    rw [hdrParse_of_rejected hd, if_pos hm, rejectError]

/-! ### HDR and DEC_HEADER (R112, R114, R282) -/

theorem exec_hdr_legal {s : State} {w h : BitVec 32} {ch cs : Byte} (ht : tagsLegal s.cfg ch cs) :
    exec (.hdr w h ch cs) s = .next (acceptHeader w h ch cs s) := by
  rw [exec_hdr, if_pos (recognized_iff_tagsLegal.mpr ht)]

theorem exec_hdr_illegal {s : State} {w h : BitVec 32} {ch cs : Byte} (ht : ¬ tagsLegal s.cfg ch cs) :
    exec (.hdr w h ch cs) s = .next (raise .invalidTag s) := by
  rw [exec_hdr, if_neg (mt recognized_iff_tagsLegal.mp ht)]

/-- Settles O16: HDR accepts or raises, as its tags are recognized or not. -/
theorem headerExecutes : Obligations.HeaderExecutes := by
  intro s w h ch cs
  rw [← tagsLegal_iff]
  exact ⟨exec_hdr_legal, exec_hdr_illegal⟩

/-- Settles O27: the bytes are those of the header of their two numbers, which DEC_HEADER takes and executes. -/
theorem decoderAcceptsHeader : Obligations.DecoderAcceptsHeader := by
  intro s cmds w0 w1 w2 w3 h0 h1 h2 h3 ch cs tail he hp ht
  have hd : decodeHeader s.cfg (s.cfg.magic.toList ++ [w0, w1, w2, w3] ++ [h0, h1, h2, h3] ++ [ch, cs] ++ tail) =
      .ok (.hdr (unbe32 w0 w1 w2 w3) (unbe32 h0 h1 h2 h3) ch cs, tail) := by
    rw [← be32_unbe32 w0 w1 w2 w3, ← be32_unbe32 h0 h1 h2 h3]
    exact decodeHeader_headerBytes s.cfg _ _ ch cs tail
  exact (step_decHeader_exec (by rfl) (by exact he) (by exact hd) (by exact hp)).trans (exec_hdr_legal ht)

/-! ### ENC_HEADER (R51, R111) -/

theorem headerOperandsLegal_iff {cfg : Config} {w h ch cs : Nat} :
    headerOperandsLegal cfg w h ch cs = true ↔
      w < 2 ^ 32 ∧ h < 2 ^ 32 ∧ (ch = 3 ∨ ch = 4) ∧ (cs = cfg.csSrgb.toNat ∨ cs = cfg.csLinear.toNat) := by
  simp only [headerOperandsLegal, Bool.and_eq_true, Bool.or_eq_true, decide_eq_true_eq, beq_iff_eq, and_assoc]
  rfl

/-- The bytes of a number written in 32 bits are its base-256 digits (R13). -/
theorem be32_ofNat (n : Nat) : be32 (BitVec.ofNat 32 n) =
    [BitVec.ofNat 8 (n / 2 ^ 24), BitVec.ofNat 8 (n / 2 ^ 16), BitVec.ofNat 8 (n / 2 ^ 8), BitVec.ofNat 8 n] := by
  have digit (k : Nat) (hk : k + 8 ≤ 32) :
      (BitVec.ofNat 32 n).extractLsb' k 8 = BitVec.ofNat 8 (n / 2 ^ k) := by
    refine BitVec.eq_of_getLsbD_eq fun i hi => ?_
    simp only [BitVec.getLsbD_extractLsb', BitVec.getLsbD_ofNat, Nat.testBit_div_two_pow]
    simp [hi, show k + i < 32 by omega, Nat.add_comm]
  rw [be32, digit 24 (by omega), digit 16 (by omega), digit 8 (by omega), digit 0 (by omega), Nat.pow_zero, Nat.div_one]

theorem step_encHeader {s : State} {cmds : List Command} {w h ch cs : Nat}
    (hc : s.commands = .encHeader w h ch cs :: cmds) (hl : headerOperandsLegal s.cfg w h ch cs = true) :
    step s = .next { s with
      commands := cmds
      sink := s.sink ++ headerBytes s.cfg (BitVec.ofNat 32 w) (BitVec.ofNat 32 h) (BitVec.ofNat 8 ch)
        (BitVec.ofNat 8 cs) } := by
  rw [step_legal hc hl]
  exact congrArg Host.Outcome.next (encHeader_eq w h ch cs { s with commands := cmds })

/-- Settles O26: with legal operands the command is one append to the sink, and the header's numbers are their digits. -/
theorem encoderWritesHeader : Obligations.EncoderWritesHeader := by
  intro s cmds w h ch cs
  rw [← headerOperandsLegal_iff, ← be32_ofNat, ← be32_ofNat, Bool.not_eq_true]
  exact ⟨fun hl => step_encHeader (by rfl) (by exact hl), fun hl => step_illegal (by rfl) (by exact hl)⟩

/-! ### The tags change nothing else (R32, R118) -/

/-- DEC_FETCH does not look at the tags, whether an error stops it or it runs. -/
theorem decFetch_retag {s t : State} (ch cs : Byte) (h : decFetch s = .next t) :
    decFetch (s.retag ch cs s.decResult) = .next (t.retag ch cs t.decResult) := by
  cases he : s.dec.err with
  | some k =>
    obtain rfl := Host.Outcome.next.inj ((unlessStopped_stopped he).symm.trans h)
    exact unlessStopped_stopped (s := s.retag ch cs s.decResult) he
  | none =>
    have hx := (unlessStopped_running he).symm.trans h
    refine (unlessStopped_running (s := s.retag ch cs s.decResult) he).trans ?_
    obtain ⟨hfail, hdec⟩ := fetchOpcode_retag s ch cs s.decResult
    rcases fetchOpcode_inv s with ⟨p, hf⟩ | ⟨i, tail, -, -, -, -, hd, -⟩
    · rw [fetchAndExec, hf] at hx
      obtain rfl := Host.Outcome.next.inj hx
      rw [fetchAndExec, hfail _ hf, execFetched]
    · obtain rfl := Host.Outcome.next.inj ((fetchAndExec_opcode hd).symm.trans hx)
      exact fetchAndExec_opcode (hdec i tail hd)

/-- What DEC_IMAGE returns behind a header with the given size and tags, from the error register and the result of an image that
ended behind other tags. -/
def retaggedResult (w h : BitVec 32) (ch cs : Byte) (t : State) : Option DecResult :=
  if t.dec.err = none then some (.image w h ch cs) else t.decResult

theorem closeImage_dec (before : List Color) (s : State) : (closeImage before s).dec = s.dec := by
  unfold closeImage; split <;> rfl

/-- The end of DEC_IMAGE looks at the tags only to return them. -/
theorem closeImage_retag {before : List Color} {s : State} {ch cs : Byte} {r : Option DecResult}
    (hr : s.dec.err ≠ none → r = s.decResult) :
    closeImage before (s.retag ch cs r) = (closeImage before s).retag ch cs
      (retaggedResult s.dec.width s.dec.height ch cs (closeImage before s)) := by
  rw [retaggedResult, closeImage_dec]
  by_cases he : s.dec.err = none
  · rw [closeImage_done he, closeImage_done (s := s.retag ch cs r) he, if_pos he]; rfl
  · rw [closeImage_failed he, closeImage_failed (s := s.retag ch cs r) he, if_neg he, hr he]; rfl

/-- DEC_IMAGE whose header is accepted and whose pixels are too many takes the header only (R243). -/
theorem imageAndExec_oversized {s : State} {w h : BitVec 32} {ch cs : Byte} {body : List Byte}
    (ht : tagsLegal s.cfg ch cs) (hm : s.cfg.maxPixels < w.toNat * h.toNat)
    (hs : s.source = headerBytes s.cfg w h ch cs ++ body) :
    imageAndExec s = .next (closeImage s.pixOut (raise .outOfMemory (loopStart s w h ch cs body))) :=
  imageAndExec_accepted (headerAndExec_headed ht hs) rfl (decodePixels_oversized (by exact hm))

/-- DEC_IMAGE behind two headers that differ in recognized tags alone. -/
theorem imageAndExec_retag {s t : State} {w h : BitVec 32} {ch cs ch' cs' : Byte} {body : List Byte}
    (ht : tagsLegal s.cfg ch cs) (ht' : tagsLegal s.cfg ch' cs') (hs : s.source = headerBytes s.cfg w h ch cs ++ body)
    (hx : imageAndExec s = .next t) :
    imageAndExec { s with source := headerBytes s.cfg w h ch' cs' ++ body } =
      .next (t.retag ch' cs' (retaggedResult w h ch' cs' t)) := by
  by_cases hm : w.toNat * h.toNat ≤ s.cfg.maxPixels
  · obtain ⟨u, hu, -, hframe, -⟩ :=
      imageLoop_ends body.length (loopStart s w h ch cs body) rfl (Nat.zero_le _) (Nat.le_refl _)
    obtain ⟨r, hu', hr⟩ := imageLoop_retag _ _ _ ch' cs' (some (.header w h ch' cs')) rfl hu
    obtain rfl := Host.Outcome.next.inj ((imageAndExec_loop ht hm hs hu).symm.trans hx)
    have hw : u.dec.width = w := by rw [hframe]; rfl
    have hh : u.dec.height = h := by rw [hframe]; rfl
    have hc := closeImage_retag (before := s.pixOut) (ch := ch') (cs := cs') hr
    rw [hw, hh] at hc
    rw [← hc]
    exact imageAndExec_loop ht' hm rfl hu'
  · have hm' : s.cfg.maxPixels < w.toNat * h.toNat := Nat.lt_of_not_le hm
    obtain rfl := Host.Outcome.next.inj ((imageAndExec_oversized ht hm' hs).symm.trans hx)
    exact imageAndExec_oversized (s := { s with source := headerBytes s.cfg w h ch' cs' ++ body }) ht' hm' rfl

/-- Settles O51: DEC_FETCH does not read the tags, the loop of DEC_IMAGE carries them to its end, and the opcodes of ENC_IMAGE
are a function of the pixels. -/
theorem tagsAreInformational : Obligations.TagsAreInformational := by
  refine ⟨fun s t cmds ch cs h => ?_, fun s t cmds w h ch cs ch' cs' body he ht ht' hx => ?_,
    fun s cmds w h ch cs ch' cs' pixels hl hl' => ?_⟩
  · refine (step_legal (cmds := cmds) (by rfl) rfl).trans ?_
    exact decFetch_retag ch cs (commandEffect_of_step (c := .decFetch) (by rfl) h)
  · rw [step_decImage (by rfl) (by exact he)] at hx ⊢
    exact imageAndExec_retag (s := { s with commands := cmds, source := headerBytes s.cfg w h ch cs ++ body })
      ht ht' rfl hx
  · refine ⟨{ regsAfter s.cfg Encoder.reset pixels with run := 0 },
      encodeAll s.cfg (imageInstrs s.cfg Encoder.reset pixels) ++ s.cfg.endMarker.toList, ?_, ?_⟩
    all_goals rw [← List.append_assoc (headerBytes ..)]
    · exact step_encImage (by rfl) (by exact hl)
    · exact step_encImage (by rfl) (by exact hl')

end Sys2Proof.Machine

/-! ## The colour-cache statements: every step keeps the invariant (O10), the two caches agree (O54), the hash in wrapping bytes
(O8), a store (O9) -/

namespace Sys2Proof.Machine

open Sys2Proof

/-! ### Every step keeps both caches hashed (R139) -/

theorem encRegsAfter_hashed (cfg : Config) {e : Encoder} (h : e.cache.Hashed cfg.hashW) (c : Command) :
    (encRegsAfter cfg e c).cache.Hashed cfg.hashW := by
  cases c with
  | encReset => exact hashed_reset _
  | encPush px => exact regsAfter_hashed cfg [px] e h
  | encImage w h ch cs pixels => exact regsAfter_hashed cfg pixels Encoder.reset (hashed_reset _)
  | encHeader | encFlush | encEnd | decReset | decHeader | decFetch | decImage | readReg => exact h

/-- The decoder stores a colour at its own hash slot only: DEC_HEADER stores none, and DEC_IMAGE starts from a reset cache. -/
theorem CommandRuns.decCache_hashed {c : Command} {s t : State} (h : CommandRuns c s t)
    (hs : s.dec.cache.Hashed s.cfg.hashW) : t.dec.cache.Hashed s.cfg.hashW := by
  cases h with
  | enc | readReg | stopped => exact hs
  | decReset => exact hashed_reset _
  | decHeader _ h =>
    obtain ⟨u, p, hu, -, hframe, -⟩ := headerAndExec_frame s
    obtain rfl := Host.Outcome.next.inj (hu.symm.trans h)
    rw [hframe]
    exact hs
  | decFetch _ h =>
    obtain ⟨u, p, hu, -, -, hhashed⟩ := fetchAndExec_frame s
    obtain rfl := Host.Outcome.next.inj (hu.symm.trans h)
    exact hhashed hs
  | decImage _ h =>
    obtain ⟨u, hu, himage⟩ := imageAndExec_frame s
    obtain rfl := Host.Outcome.next.inj (hu.symm.trans h)
    have hcfg : u.cfg = s.cfg := by rw [himage.frame]
    exact hcfg ▸ himage.hashed

theorem CommandRuns.cachesHashed {c : Command} {s t : State} (h : CommandRuns c s t) (hs : s.CachesHashed) :
    t.CachesHashed := by
  obtain ⟨henc, hdec⟩ := hs
  have hdec' := h.decCache_hashed hdec
  have of_dec (hc : c.isDec = true) : t.CachesHashed := by
    rw [State.CachesHashed, (h.decKeeps hc).frame]
    exact ⟨henc, hdec'⟩
  cases h with
  | enc => exact ⟨encRegsAfter_hashed s.cfg henc c, hdec'⟩
  | readReg => exact ⟨henc, hdec'⟩
  | stopped hc => exact of_dec hc
  | decReset | decHeader | decFetch | decImage => exact of_dec rfl

/-- Settles O10, by the ways a command goes. -/
theorem cachesStayHashed : Obligations.CachesStayHashed := by
  intro s t hs h
  cases hc : s.commands with
  | nil =>
    obtain rfl := Host.Outcome.next.inj ((step_idle hc).symm.trans h)
    exact hs
  | cons c cmds => exact (commandRuns_of_step hc h).cachesHashed hs

/-! ### The two caches beside each other (R140) -/

/-- An encoder's and a decoder's cache agree but, at most, in the seed's slot, where the encoder may lag behind by the seed
only if `first` holds (R140). -/
def AgreeButForSeed (cfg : Config) (first : Prop) (enc dec : Cache) : Prop :=
  (∀ i : Slot, i ≠ hashOf cfg.hashW Color.seed → enc.lookup i = dec.lookup i)
  ∧ (enc.lookup (hashOf cfg.hashW Color.seed) = dec.lookup (hashOf cfg.hashW Color.seed)
    ∨ (enc.lookup (hashOf cfg.hashW Color.seed) = Color.zero
      ∧ dec.lookup (hashOf cfg.hashW Color.seed) = Color.seed ∧ first))

theorem Beside.agreeButForSeed {cfg : Config} {first first' : Prop} {e : Encoder} {m : Cache} {cur : Color}
    (h : Beside cfg first e m cur) (hf : first → first') : AgreeButForSeed cfg first' e.cache m :=
  ⟨h.agree, h.seed_slot.imp_right fun ⟨hfirst, hzero, hseed⟩ => ⟨hzero, hseed, hf hfirst⟩⟩

theorem imageInstrs_cons (cfg : Config) (e : Encoder) (px : Color) (rest : List Color) :
    imageInstrs cfg e (px :: rest) = pushInstrs cfg e px ++ imageInstrs cfg (pushRegs cfg e px) rest := by
  simp only [imageInstrs, instrsOf, regsAfter, List.append_assoc]

/-- By the first pixel: the seed continues the run that E.PREV starts with, so the simulation from reset allows the lag; any
other pixel is stored by both units, and from then on a run repeats only colours that both caches hold. -/
theorem agreeButForSeed_image {cfg : Config} (ha : cfg.SeedApart) (pixels : List Color) :
    AgreeButForSeed cfg (pixels.head? = some Color.seed) (regsAfter cfg Encoder.reset pixels).cache
      (afterColors cfg Cache.reset Color.seed (imageInstrs cfg Encoder.reset pixels)).1 := by
  cases pixels with
  | nil => exact ⟨fun _ _ => rfl, .inl rfl⟩
  | cons px rest =>
    by_cases hseed : px = Color.seed
    · exact ((beside_reset cfg).image ha (px :: rest)).2.agreeButForSeed fun _ => congrArg some hseed
    · have hrest := ((beside_first ha hseed).2.image ha rest).2
      rw [imageInstrs_cons, afterColors_append]
      exact hrest.agreeButForSeed False.elim

theorem pushedAndFlushed_eq (cfg : Config) (pixels : List Color) :
    pushedAndFlushed cfg pixels = { freshEngine cfg with
      enc := { regsAfter cfg Encoder.reset pixels with run := 0 }
      sink := encodeAll cfg (imageInstrs cfg Encoder.reset pixels) } :=
  flushed_eq pixels (freshEngine cfg)

/-- A host that fetches what was pushed and flushed gets the pixels, and the decoder ends where the emitted opcodes take it
(R207). -/
theorem fetchTimes_pushedAndFlushed {cfg : Config} (hc : cfg.Legal) (ha : cfg.SeedApart) (pixels : List Color) :
    ∃ k t, fetchTimes k { freshEngine cfg with source := (pushedAndFlushed cfg pixels).sink } = some (t, pixels)
      ∧ t.source = []
      ∧ t.dec.cache = (afterColors cfg Cache.reset Color.seed (imageInstrs cfg Encoder.reset pixels)).1
      ∧ t.dec.cur = (afterColors cfg Cache.reset Color.seed (imageInstrs cfg Encoder.reset pixels)).2 := by
  have hem := imageInstrs_emittable cfg pixels Encoder.reset (Nat.zero_le _)
  obtain ⟨t, hfetch, hrest⟩ := fetchTimes_encoded (imageInstrs cfg Encoder.reset pixels)
    { freshEngine cfg with source := (pushedAndFlushed cfg pixels).sink } [] hc hem rfl
    (by rw [pushedAndFlushed_eq, List.append_nil]; rfl)
  have hpix : pixelsOf cfg Cache.reset Color.seed (imageInstrs cfg Encoder.reset pixels) = pixels :=
    (imageInstrs_reset ha pixels).1
  exact ⟨_, t, hfetch.trans (congrArg (fun p => some (t, p)) hpix), hrest⟩

/-- Settles O54: the fetches execute the opcodes the encoder emitted, beside which the simulation holds the two caches. -/
theorem cachesAgreeButForTheSeedSlot : Obligations.CachesAgreeButForTheSeedSlot := by
  intro cfg pixels hc ha
  obtain ⟨k, t, hfetch, hsrc, hcache, -⟩ := fetchTimes_pushedAndFlushed hc ha pixels
  refine ⟨k, t, hfetch, hsrc, ?_⟩
  rw [hcache, pushedAndFlushed_eq]
  exact agreeButForSeed_image ha pixels

/-! ### The hash in wrapping bytes (R131, R132) -/

/-- 64 divides 256, so the low 6 bits of a number do not depend on its reduction to a byte. -/
theorem low6_ofNat (n : Nat) : (BitVec.ofNat 8 n).extractLsb' 0 6 = BitVec.ofNat 6 n := by
  apply BitVec.eq_of_toNat_eq
  simp only [BitVec.extractLsb'_toNat, BitVec.toNat_ofNat, Nat.shiftRight_zero]
  omega

/-- The weighted sum of a colour's channels, reduced to a byte, is the sum of wrapping products. -/
theorem weightedSum_ofNat (w : HashWeights) (c : Color) :
    BitVec.ofNat 8 (w.r * c.r.toNat + w.g * c.g.toNat + w.b * c.b.toNat + w.a * c.a.toNat) =
      BitVec.ofNat 8 w.r * c.r + BitVec.ofNat 8 w.g * c.g + BitVec.ofNat 8 w.b * c.b + BitVec.ofNat 8 w.a * c.a := by
  simp only [BitVec.ofNat_add, BitVec.ofNat_mul, BitVec.ofNat_toNat, BitVec.setWidth_eq]

/-- Settles O8: the byte's low bits are the sum's, the hash is the sum modulo 64, and each channel is at most 255. -/
theorem hashFromWrappingBytes : Obligations.HashFromWrappingBytes := by
  refine ⟨fun w c => ?_, fun c => BitVec.toNat_ofNat .., fun c => ?_⟩
  · rw [← weightedSum_ofNat, low6_ofNat, hashOf]
  · have hr := c.r.isLt
    have hg := c.g.isLt
    have hb := c.b.isLt
    have ha := c.a.isLt
    omega

/-! ### A store (R133, R134) -/

/-- Settles O9: the slot stored to holds the colour, every other slot what it held. -/
theorem cacheStoresWhole : Obligations.CacheStoresWhole := by
  intro m i j c
  split
  · next hji => rw [hji, lookup_store_same]
  · next hji => exact lookup_store_other m c hji

end Sys2Proof.Machine

/-! ## The encoder statements: a delta is undone (O33), what a push emits for each choice of its pixel (O35 to O38, O40), the
registers it leaves (O39) -/

namespace Sys2Proof.Machine

open Sys2Proof

/-! ### Deltas (R155, R165) -/

/-- Settles O33: `add8_delta` is the decoder's addition; modulo 256 a delta is the signed value of a byte. -/
theorem deltasDecodeInBothModes : Obligations.DeltasDecodeInBothModes := by
  intro wrap x p
  refine ⟨add8_delta wrap x p, fun hw => ?_, fun hw => ?_⟩
  · subst hw; rfl
  · subst hw
    have hlo : -128 ≤ (x - p).toInt := BitVec.le_toInt (x - p)
    have hhi : (x - p).toInt < 128 := BitVec.toInt_lt
    exact ⟨hlo, Int.le_of_lt_add_one hhi⟩

/-! ### A pixel that differs from the previous one (R153 to R160, R233) -/

theorem missOrHit_of_hit {cfg : Config} {e : Encoder} {px : Color} (h : e.cache.lookup (hashOf cfg.hashW px) = px) :
    missOrHit cfg e px = .opIndex (hashOf cfg.hashW px) := if_pos h

theorem missOrHit_of_miss {cfg : Config} {e : Encoder} {px : Color} (h : e.cache.lookup (hashOf cfg.hashW px) ≠ px) :
    missOrHit cfg e px = chooseMiss cfg px e.prev := if_neg h

/-- The bytes of a push that ends or follows no run: the pending run's, then the opcode's (R161). -/
theorem encodeAll_pushInstrs_of_ne {cfg : Config} {e : Encoder} {px : Color} (h : px ≠ e.prev) :
    encodeAll cfg (pushInstrs cfg e px) = pendingRun e.run ++ encode cfg (missOrHit cfg e px) := by
  obtain ⟨-, hinstrs⟩ := push_differs cfg h
  rw [hinstrs, encodeAll_append, encode_pendingInstrs, encodeAll_cons, encodeAll_nil, List.append_nil]

/-- A push of a pixel that differs from the previous one, as the whole next state. -/
theorem step_encPush_of_ne (s : State) (cmds : List Command) {px : Color} (h : px ≠ s.enc.prev) :
    step { s with commands := .encPush px :: cmds } = .next { s with
      commands := cmds
      enc := { cache := s.enc.cache.store (hashOf s.cfg.hashW px) px, prev := px, run := 0 }
      sink := s.sink ++ pendingRun s.enc.run ++ encode s.cfg (missOrHit s.cfg s.enc px) } := by
  obtain ⟨hregs, -⟩ := push_differs s.cfg h
  rw [step_encPush rfl, hregs, encodeAll_pushInstrs_of_ne h, List.append_assoc]

/-- Settles O35: the store of a hit changes nothing. -/
theorem cacheHitEmitsIndex : Obligations.CacheHitEmitsIndex := by
  intro s cmds px hne hhit
  rw [step_encPush_of_ne s cmds hne, missOrHit_of_hit hhit, store_same hhit]
  rfl

/-! ### The choices of a miss, in their order (R156 to R159) -/

section choices

variable {cfg : Config} {px p : Color} {dr dg db : Int} (hr : dr = delta cfg.encDeltaWrap px.r p.r)
  (hg : dg = delta cfg.encDeltaWrap px.g p.g) (hb : db = delta cfg.encDeltaWrap px.b p.b)

include hr hg hb

theorem chooseMiss_of_diff (ha : px.a = p.a) (hd : cfg.diff.Holds dr ∧ cfg.diff.Holds dg ∧ cfg.diff.Holds db) :
    chooseMiss cfg px p = .opDiff dr dg db := by
  subst hr hg hb
  exact if_pos ⟨ha, hd⟩

theorem chooseMiss_of_luma (ha : px.a = p.a) (hd : ¬ (cfg.diff.Holds dr ∧ cfg.diff.Holds dg ∧ cfg.diff.Holds db))
    (hl : cfg.lumaG.Holds dg ∧ cfg.lumaRB.Holds (dr - dg) ∧ cfg.lumaRB.Holds (db - dg)) :
    chooseMiss cfg px p = .opLuma dg (dr - dg) (db - dg) := by
  subst hr hg hb
  exact (if_neg fun h => hd h.2).trans (if_pos ⟨ha, hl⟩)

theorem chooseMiss_of_literal
    (h : px.a = p.a →
      ¬ (cfg.diff.Holds dr ∧ cfg.diff.Holds dg ∧ cfg.diff.Holds db) ∧
      ¬ (cfg.lumaG.Holds dg ∧ cfg.lumaRB.Holds (dr - dg) ∧ cfg.lumaRB.Holds (db - dg))) :
    chooseMiss cfg px p = if px.a = p.a then .opRgb px.r px.g px.b else .opRgba px.r px.g px.b px.a := by
  subst hr hg hb
  exact (if_neg fun ⟨ha, hd⟩ => (h ha).1 hd).trans (if_neg fun ⟨ha, hl⟩ => (h ha).2 hl)

end choices

/-- Settles O36: the small delta is the first choice of a miss. -/
theorem smallDeltaEmitsDiff : Obligations.SmallDeltaEmitsDiff := by
  intro s cmds px dr dg db hne hmiss ha hr hg hb hdr hdg hdb
  rw [step_encPush_of_ne s cmds hne, missOrHit_of_miss hmiss, chooseMiss_of_diff hr hg hb ha ⟨hdr, hdg, hdb⟩]

/-- Settles O37: the luma-relative delta is the second choice of a miss. -/
theorem lumaDeltaEmitsLuma : Obligations.LumaDeltaEmitsLuma := by
  intro s cmds px dr dg db hne hmiss ha hr hg hb hd hlg hlr hlb
  rw [step_encPush_of_ne s cmds hne, missOrHit_of_miss hmiss, chooseMiss_of_luma hr hg hb ha hd ⟨hlg, hlr, hlb⟩]

/-- Settles O38: with no delta form left, alpha decides between the two literals. -/
theorem otherMissesEmitLiterals : Obligations.OtherMissesEmitLiterals := by
  intro s cmds px dr dg db hne hmiss hr hg hb hlit
  rw [step_encPush_of_ne s cmds hne, missOrHit_of_miss hmiss, chooseMiss_of_literal hr hg hb hlit,
    apply_ite (encode s.cfg)]
  rfl

/-! ### The registers after any push (R162) -/

theorem pushRegs_prev (cfg : Config) (e : Encoder) (px : Color) : (pushRegs cfg e px).prev = px := by
  unfold pushRegs
  split
  · next h => exact h.symm
  · rfl

/-- An equal pixel grows the run by one, and back to 0 when it reaches 62; the cache stays (R152, R232). -/
theorem pushRegs_of_eq (cfg : Config) {e : Encoder} (h : e.run.toNat ≤ 61) :
    (pushRegs cfg e e.prev).cache = e.cache
      ∧ (pushRegs cfg e e.prev).run.toNat = if e.run.toNat + 1 = 62 then 0 else e.run.toNat + 1 := by
  by_cases hfull : e.run.toNat = 61
  · obtain ⟨hregs, -⟩ := push_equal_full cfg hfull
    rw [hregs, if_pos (by omega)]
    exact ⟨rfl, rfl⟩
  · obtain ⟨hregs, -, hadd⟩ := push_equal_grows cfg (e := e) (by omega)
    rw [hregs, if_neg (by omega)]
    exact ⟨rfl, hadd⟩

/-- Settles O39, by whether the pixel equals the previous one. -/
theorem stateAfterPush : Obligations.StateAfterPush := by
  intro s cmds px hrun
  refine ⟨_, step_encPush rfl, pushRegs_prev .., pushRegs_run_le s.cfg hrun px, fun hne => ?_, fun heq => ?_⟩
  · obtain ⟨hregs, -⟩ := push_differs s.cfg hne
    show (pushRegs s.cfg s.enc px).run = 0 ∧ (pushRegs s.cfg s.enc px).cache.lookup (hashOf s.cfg.hashW px) = px
    rw [hregs]
    exact ⟨rfl, lookup_store_same ..⟩
  · subst heq
    exact pushRegs_of_eq s.cfg hrun

/-! ### The bytes of one push (R161) -/

theorem pendingRun_zero : pendingRun 0 = [] := rfl

theorem pendingRun_of_ne {run : BitVec 6} (h : run ≠ 0) : pendingRun run = [0xC0 ||| (run.zeroExtend 8 - 1)] := if_neg h

theorem pendingRun_length_le (run : BitVec 6) : (pendingRun run).length ≤ 1 := by
  unfold pendingRun
  split
  · exact Nat.zero_le _
  · exact Nat.le_refl _

/-- The opcode of a differing pixel has 1 to 5 bytes. -/
theorem encode_missOrHit_length (cfg : Config) (e : Encoder) (px : Color) :
    1 ≤ (encode cfg (missOrHit cfg e px)).length ∧ (encode cfg (missOrHit cfg e px)).length ≤ 5 := by
  obtain ⟨-, hpart⟩ := missOrHit_emittable cfg e px
  exact ⟨encode_length_pos cfg hpart, encode_length cfg _ ▸ opcode_length_le hpart⟩

/-- An equal pixel emits at most a run byte, a differing one a run byte and an opcode. -/
theorem encodeAll_pushInstrs_length_le (cfg : Config) (e : Encoder) (px : Color) :
    (encodeAll cfg (pushInstrs cfg e px)).length ≤ 6 := by
  by_cases h : px = e.prev
  · rw [pushInstrs, if_pos h]
    split
    · exact Nat.le_add_left 1 5
    · exact Nat.zero_le _
  · rw [encodeAll_pushInstrs_of_ne h, List.length_append]
    exact Nat.add_le_add (pendingRun_length_le e.run) (encode_missOrHit_length cfg e px).2

/-- Settles O40: the opcode of a differing pixel does not depend on the pending run, whose byte stands before it, so the same
push with no run pending appends the opcode alone. -/
theorem pushEmitsAtMostSixBytes : Obligations.PushEmitsAtMostSixBytes := by
  intro s cmds px
  refine ⟨_, _, step_encPush rfl, rfl, encodeAll_pushInstrs_length_le s.cfg s.enc px, fun hne hrun => ?_⟩
  refine ⟨encode s.cfg (missOrHit s.cfg s.enc px), _, ?_, (encode_missOrHit_length s.cfg s.enc px).1,
    step_encPush_of_ne { s with enc := { s.enc with run := 0 } } cmds hne, ?_⟩
  · rw [encodeAll_pushInstrs_of_ne hne, pendingRun_of_ne hrun]
    rfl
  · show s.sink ++ pendingRun 0 ++ encode s.cfg (missOrHit s.cfg s.enc px) = _
    rw [pendingRun_zero, List.append_nil]

end Sys2Proof.Machine

/-! ## The decoder statements: what the fetches of pushed pixels return (O53), each opcode executed (O13 to O15) and fetched
(O18, O20 to O23), short reads (O24), DEC_FETCH as a whole (O25) -/

namespace Sys2Proof.Machine

open Sys2Proof

/-! ### Pushed pixels, fetched (R207) -/

/-- Settles O53: the fetches execute the opcodes the encoder emitted, beside which the simulation keeps D.CUR equal to
E.PREV. -/
theorem fetchesReturnThePushedPixels : Obligations.FetchesReturnThePushedPixels := by
  intro cfg pixels hc ha
  obtain ⟨k, t, hfetch, hsrc, -, hcur⟩ := fetchTimes_pushedAndFlushed hc ha pixels
  have hbeside := ((beside_reset cfg).image ha pixels).2
  refine ⟨k, t, hfetch, hsrc, ?_⟩
  rw [hcur, pushedAndFlushed_eq]
  exact hbeside.cur_eq

/-! ### The opcodes, executed (R192 to R197) -/

/-- The decoder's channel addition is addition modulo 256 (R13). -/
theorem add8_toNat (x : Byte) (d : Int) : ((add8 x d).toNat : Int) = ((x.toNat : Int) + d) % 256 := by
  rw [add8, BitVec.toNat_ofInt]
  omega

/-- Settles O13: a literal is one `produce` of the colour it spells. -/
theorem literalsComplete : Obligations.LiteralsComplete :=
  fun s _ _ _ _ => ⟨exec_opcode rfl s, exec_opcode rfl s⟩

/-- Settles O14: a delta opcode is one `produce` of the sum, taken channel by channel by `add8`. -/
theorem deltasComplete : Obligations.DeltasComplete :=
  ⟨fun s dr dg db => ⟨diffColor s.dec.cur dr dg db, add8_toNat .., add8_toNat .., add8_toNat .., rfl, exec_opcode rfl s⟩,
    fun s dg drg dbg => ⟨lumaColor s.dec.cur dg drg dbg, add8_toNat .., add8_toNat .., add8_toNat .., rfl,
      exec_opcode rfl s⟩⟩

/-- Settles O15: a recall is one `produce` of the slot's or of the current colour. -/
theorem recallsComplete : Obligations.RecallsComplete :=
  fun s _ _ => ⟨exec_opcode rfl s, exec_opcode rfl s⟩

/-! ### The opcodes, fetched (R190) -/

/-- Settles O18, one command at a time. -/
theorem stepRunsTheDecodedInstruction : Obligations.StepRunsTheDecodedInstruction := by
  intro s cmds i tail he
  exact ⟨fun hd hp => step_decFetch_exec (s := { s with commands := .decFetch :: cmds }) rfl he hd hp,
    fun hd hp => step_decHeader_exec (s := { s with commands := .decHeader :: cmds }) rfl he hd hp,
    step_encEnd_exec rfl⟩

/-- DEC_FETCH on the bytes of an opcode that has an encoding: they are taken and counted, and the opcode produces its
colour. -/
theorem step_decFetch_encoded {s : State} (hc : s.cfg.Legal) (he : s.dec.err = none) (cmds : List Command)
    (tail : List Byte) {i : Instr} (hi : Emittable s.cfg i) (hp : s.dec.pos.toNat + i.length < 2 ^ 64) :
    step { s with commands := .decFetch :: cmds, source := encode s.cfg i ++ tail } =
      .next (produce (opcodeColor s.dec.cache s.dec.cur i) (pixelCount i) { s with
        commands := cmds, source := tail, dec := { s.dec with pos := s.dec.pos + BitVec.ofNat 64 i.length } }) :=
  (step_decFetch_exec (s := { s with commands := .decFetch :: cmds, source := encode s.cfg i ++ tail }) rfl he
    (decodeOpcode_encode hc hi tail) hp).trans (exec_opcode hi.2 _)

/-- The byte of a run from its field (R85, R92). -/
theorem encode_opRun_field (cfg : Config) (x : BitVec 6) : encode cfg (.opRun (x.toNat + 1)) = [0b11#2 ++ x] := by
  simp only [encode, Nat.add_sub_cancel, BitVec.ofNat_toNat, BitVec.setWidth_eq]

/-- The byte of a small delta from its fields (R85, R92). -/
theorem encode_opDiff_fields (cfg : Config) (fr fg fb : BitVec 2) :
    encode cfg (.opDiff (unbiasField cfg.diff fr) (unbiasField cfg.diff fg) (unbiasField cfg.diff fb)) =
      [0b01#2 ++ fr ++ fg ++ fb] := by
  simp only [encode, bias_unbias]

/-- The bytes of a luma-relative delta from its fields (R85, R92). -/
theorem encode_opLuma_fields (cfg : Config) (fg : BitVec 6) (fr fb : BitVec 4) :
    encode cfg (.opLuma (unbiasField cfg.lumaG fg) (unbiasField cfg.lumaRB fr) (unbiasField cfg.lumaRB fb)) =
      [0b10#2 ++ fg, packNibbles cfg.lumaRedHigh fr fb] := by
  simp only [encode, bias_unbias]

theorem opRun_field_emittable (cfg : Config) {x : BitVec 6} (hx : x.toNat ≤ 61) :
    Emittable cfg (.opRun (x.toNat + 1)) :=
  ⟨decide_eq_true ⟨Nat.le_add_left 1 _, Nat.succ_le_succ hx⟩, rfl⟩

theorem opDiff_fields_emittable {cfg : Config} (hc : cfg.Legal) (fr fg fb : BitVec 2) :
    Emittable cfg (.opDiff (unbiasField cfg.diff fr) (unbiasField cfg.diff fg) (unbiasField cfg.diff fb)) := by
  obtain ⟨-, hd, -⟩ := hc
  exact ⟨by simp [Instr.wellFormed, unbias_holds hd], rfl⟩

theorem opLuma_fields_emittable {cfg : Config} (hc : cfg.Legal) (fg : BitVec 6) (fr fb : BitVec 4) :
    Emittable cfg (.opLuma (unbiasField cfg.lumaG fg) (unbiasField cfg.lumaRB fr) (unbiasField cfg.lumaRB fb)) := by
  obtain ⟨-, -, hg, hrb, -⟩ := hc
  exact ⟨by simp [Instr.wellFormed, unbias_holds hg, unbias_holds hrb], rfl⟩

/-- Settles O20: the bytes are the literal's encoding. -/
theorem fetchedLiterals : Obligations.FetchedLiterals := by
  intro s cmds r g b a tail hc he
  exact ⟨step_decFetch_encoded hc he cmds tail (i := .opRgb r g b) ⟨rfl, rfl⟩,
    step_decFetch_encoded hc he cmds tail (i := .opRgba r g b a) ⟨rfl, rfl⟩⟩

/-- Settles O21: the byte is the encoding of the slot, or of the run one longer than the field. -/
theorem fetchedRecalls : Obligations.FetchedRecalls := by
  intro s cmds tail hc he hp
  refine ⟨fun idx => step_decFetch_encoded hc he cmds tail (i := .opIndex idx) ⟨rfl, rfl⟩ hp, fun x hx => ?_⟩
  have hstep := step_decFetch_encoded hc he cmds tail (opRun_field_emittable s.cfg hx) hp
  rw [encode_opRun_field] at hstep
  exact hstep

/-- Settles O22: the byte is the encoding of the unbiased fields. -/
theorem fetchedDiff : Obligations.FetchedDiff := by
  intro s cmds fr fg fb tail hc he hp
  have hstep := step_decFetch_encoded hc he cmds tail (opDiff_fields_emittable hc fr fg fb) hp
  rw [encode_opDiff_fields] at hstep
  exact ⟨diffColor s.dec.cur (unbiasField s.cfg.diff fr) (unbiasField s.cfg.diff fg) (unbiasField s.cfg.diff fb),
    add8_toNat .., add8_toNat .., add8_toNat .., rfl, hstep⟩

/-- Settles O23: the bytes are the encoding of the unbiased fields, the nibbles in the configured order. -/
theorem fetchedLuma : Obligations.FetchedLuma := by
  intro s cmds fg fr fb tail hc he hp
  have hstep := step_decFetch_encoded hc he cmds tail (opLuma_fields_emittable hc fg fr fb) hp
  rw [encode_opLuma_fields] at hstep
  exact ⟨lumaColor s.dec.cur (unbiasField s.cfg.lumaG fg) (unbiasField s.cfg.lumaRB fr) (unbiasField s.cfg.lumaRB fb),
    add8_toNat .., add8_toNat .., add8_toNat .., rfl, hstep⟩

/-! ### Short reads (R115, R201, R202, R251, R288) -/

/-- A failed fetch executes nothing: DEC_FETCH ends in the state that holds its error. -/
theorem fetchAndExec_failed {s t : State} (hf : fetchOpcode s = .failed t) : fetchAndExec s = .next t := by
  rw [fetchAndExec, hf, execFetched]

/-- The source ends inside an opcode: it is empty, or its first byte's operand bytes are not all there. -/
def OpcodeCutShort (cfg : Config) (bs : List Byte) : Prop :=
  bs = [] ∨ ∃ b0 ops, bs = b0 :: ops ∧ ops.length < (classify cfg b0).operandBytes

/-- EndOfStream raised with every byte that exists taken and counted. -/
def drainedEndOfStream (s : State) : State :=
  raise .endOfStream { s with
    source := [], dec := { s.dec with pos := s.dec.pos + BitVec.ofNat 64 s.source.length } }

section shortRead

variable {s : State} (hp : s.dec.pos.toNat + s.source.length < 2 ^ 64)

include hp

theorem fetchAndExec_short (hcut : OpcodeCutShort s.cfg s.source) : fetchAndExec s = .next (drainedEndOfStream s) :=
  fetchAndExec_failed (fetchOpcode_short hcut hp)

theorem headerAndExec_short_drained (hl : s.source.length < 14) : headerAndExec s = .next (drainedEndOfStream s) := by
  rw [headerAndExec_short hl, takeBytes, advancePos_of_lt hp, List.drop_length, drainedEndOfStream]

end shortRead

/-- DEC_IMAGE on a header cut short: its error is no header error, so HDR_ERR_FOLD leaves it (R115, R283). -/
theorem imageAndExec_header_short {s : State} (hl : s.source.length < 14) :
    imageAndExec s = .next (raise .endOfStream { s with
      source := [], dec := { Decoder.reset with pos := BitVec.ofNat 64 s.source.length } }) := by
  have hp : (decReset s).dec.pos.toNat + (decReset s).source.length < 2 ^ 64 :=
    show 0 + s.source.length < 2 ^ 64 by omega
  have hcount : (decReset s).dec.pos + BitVec.ofNat 64 (decReset s).source.length = BitVec.ofNat 64 s.source.length :=
    BitVec.zero_add _
  rw [imageAndExec_headerError (headerAndExec_short_drained hp hl) rfl, drainedEndOfStream, foldHeaderError_short, hcount]
  rfl

/-- DEC_IMAGE behind an accepted header: the loop follows the host's fetches to the state they leave, and there it reads an
opcode cut short while pixels are missing (R251). The pixels fetched before are void. `o` is the host's state. -/
theorem imageAndExec_opcode_short {s o u : State} {w h : BitVec 32} {ch cs : Byte} {body : List Byte} {k : Nat}
    {pixels : List Color} (ht : tagsLegal s.cfg ch cs) (hm : w.toNat * h.toNat ≤ s.cfg.maxPixels)
    (hs : s.source = headerBytes s.cfg w h ch cs ++ body) (ho : o.cfg = s.cfg)
    (hf : fetchTimes k (headed o w h ch cs body) = some (u, pixels)) (hn : pixels.length < w.toNat * h.toNat)
    (hcut : OpcodeCutShort s.cfg u.source) (hp : u.dec.pos.toNat + u.source.length < 2 ^ 64) :
    imageAndExec s = .next (drainedEndOfStream { s with
      source := u.source
      dec := { u.dec with
        npix := BitVec.ofNat 64 (w.toNat * h.toNat), idx := BitVec.ofNat 64 pixels.length } }) := by
  obtain ⟨-, hfuel, r, hloop⟩ := loopStart_fetched ho hf (Nat.le_of_lt hn)
  have htotal : (BitVec.ofNat 64 (w.toNat * h.toNat)).toNat = w.toNat * h.toNat := by rw [← npix_ofNat, npix_exact]
  have hmissing : BitVec.ofNat 64 pixels.length < BitVec.ofNat 64 (w.toNat * h.toNat) := by
    rw [BitVec.lt_def, htotal, BitVec.toNat_ofNat]
    exact (Nat.mod_le ..).trans_lt hn
  rw [imageAndExec_loop ht hm hs (hloop.trans (imageLoop_short hmissing hcut hp hfuel)), closeImage_failed (by simp)]
  rfl

/-- Settles O24: DEC_FETCH and DEC_HEADER drain the source; DEC_IMAGE does so at its header, or where its fetches end. -/
theorem shortReadsAreEndOfStream : Obligations.ShortReadsAreEndOfStream := by
  intro s cmds he
  refine ⟨fun c hp hshort => ?_, fun hl => ?_, fun w h ch cs body k u pixels ht hm hf hn hcut hp => ?_⟩
  · rcases hshort with ⟨rfl, hcut⟩ | ⟨rfl, hl⟩
    · exact (step_decFetch (by rfl) (by exact he)).trans (fetchAndExec_short (s := { s with commands := cmds }) hp hcut)
    · exact (step_decHeader (by rfl) (by exact he)).trans
        (headerAndExec_short_drained (s := { s with commands := cmds }) hp hl)
  · exact (step_decImage (by rfl) (by exact he)).trans (imageAndExec_header_short (s := { s with commands := cmds }) hl)
  · exact (step_decImage (by rfl) (by exact he)).trans (imageAndExec_opcode_short (o := s)
      (s := { s with commands := cmds, source := headerBytes s.cfg w h ch cs ++ body }) ht hm rfl rfl hf hn hcut hp)

/-! ### DEC_FETCH as a whole (R203) -/

/-- Of the three ways a fetch ends, two raise EndOfStream with the source used up; the third executes an opcode, whose count is
1 to 62. -/
theorem fetchAndExec_total {s : State} (hc : s.cfg.Legal) (he : s.dec.err = none) : ∃ t taken,
    fetchAndExec s = .next t ∧ s.source = taken ++ t.source ∧ taken.length ≤ 5
      ∧ ((∃ n, 1 ≤ n ∧ n ≤ 62 ∧ t.dec.err = none ∧ t.decResult = some (.run t.dec.cur n))
        ∨ (t.dec.err = some .endOfStream ∧ t.decResult = some (.error .endOfStream))) := by
  rcases fetchOpcode_cases s with
    ⟨-, hf⟩ | ⟨b0, ops, hs, hshort, hf⟩ | ⟨i, b0, ops, tail, hs, hlen, hd, -, -, -⟩
  · exact ⟨_, [], fetchAndExec_failed hf, rfl, Nat.zero_le 5, .inr ⟨rfl, rfl⟩⟩
  · have hbytes : ops.length ≤ 4 := (Nat.le_of_lt hshort).trans (operandBytes_le _)
    exact ⟨_, b0 :: ops, fetchAndExec_failed hf, by simp [hs], Nat.succ_le_succ hbytes, .inr ⟨rfl, rfl⟩⟩
  · have hbytes : ops.length ≤ 4 := hlen.trans_le (operandBytes_le _)
    obtain ⟨hcount1, hcount62⟩ := decodeOpcode_count hc hd
    exact ⟨_, b0 :: ops, fetchAndExec_opcode hd, hs, Nat.succ_le_succ hbytes,
      .inl ⟨pixelCount i, hcount1, hcount62, he, rfl⟩⟩

/-- Settles O25: with no error recorded the command is the fetch and the execution. -/
theorem fetchIsTotal : Obligations.FetchIsTotal := by
  intro s cmds hc he
  obtain ⟨t, taken, hrun, hends⟩ := fetchAndExec_total (s := { s with commands := cmds }) hc he
  exact ⟨t, taken, (step_decFetch (by rfl) (by exact he)).trans hrun, hends⟩

end Sys2Proof.Machine

/-! ## The run and framing statements: runs (O34, O41, O42), the end marker (O17), a whole image encoded (O43, O44) and decoded
(O47 to O50), the buffer wrappers (O60) -/

namespace Sys2Proof.Machine

open Sys2Proof

/-! ### The end marker and the flush (R234, R236) -/

theorem step_encEnd {s : State} {cmds : List Command} (hc : s.commands = .encEnd :: cmds) :
    step s = .next { s with commands := cmds, sink := s.sink ++ s.cfg.endMarker.toList } := step_encEnd_exec hc

/-- Settles O17: END is one append to the sink, and ENC_END executes it. -/
theorem endMarkerCompletes : Obligations.EndMarkerCompletes :=
  fun s rest => ⟨encEnd_eq s, step_encEnd (s := { s with commands := .encEnd :: rest }) rfl⟩

/-- ENC_FLUSH in one equation of the registers and the sink. -/
theorem step_encFlush {s : State} {cmds : List Command} (hc : s.commands = .encFlush :: cmds) :
    step s = .next { s with
      commands := cmds
      enc := { s.enc with run := 0 }
      sink := s.sink ++ pendingRun s.enc.run } := by
  rw [step_legal hc rfl, ← encode_pendingInstrs s.cfg]
  exact commandEffect_enc rfl { s with commands := cmds }

/-- The byte of a pending run, from the run as a number. -/
theorem pendingRun_eq (run : BitVec 6) :
    pendingRun run = if run.toNat = 0 then [] else [0xC0 ||| BitVec.ofNat 8 (run.toNat - 1)] := by
  revert run; decide

/-- Settles O41: the flush appends the byte of the pending run, which `pendingRun_eq` writes with the run as a number. -/
theorem flushEmitsThePendingRun : Obligations.FlushEmitsThePendingRun := by
  intro s cmds
  rw [step_encFlush rfl, pendingRun_eq]

/-! ### Runs (R232, R235) -/

/-- Settles O34, by whether the run reaches 62. -/
theorem equalPixelGrowsTheRun : Obligations.EqualPixelGrowsTheRun := by
  intro s cmds hrun
  rw [step_encPush rfl]
  split
  · next hfull =>
    obtain ⟨hregs, hinstrs⟩ := push_equal_full s.cfg hfull
    rw [hregs, hinstrs]; rfl
  · next hgrows =>
    obtain ⟨hregs, hinstrs, -⟩ := push_equal_grows s.cfg (e := s.enc) (by omega)
    rw [hregs, hinstrs, encodeAll_nil, List.append_nil]

/-- The bytes of n equal pixels: one of 0xFD for each 62 of them, then one for the rest (R235). -/
def runBytes (n : Nat) : List Byte :=
  List.replicate (n / 62) 0xFD ++ if n % 62 = 0 then [] else [0xC0 ||| BitVec.ofNat 8 (n % 62 - 1)]

theorem runBytes_toNat {run : BitVec 6} (h : run.toNat ≤ 61) : runBytes run.toNat = pendingRun run := by
  rw [runBytes, Nat.div_eq_of_lt (by omega), Nat.mod_eq_of_lt (by omega), pendingRun_eq]
  rfl

theorem runBytes_add_62 (n : Nat) : runBytes (n + 62) = 0xFD :: runBytes n := by
  rw [runBytes, Nat.add_div_right n (by decide), Nat.add_mod_right]
  rfl

/-- Equal pixels pushed and flushed: the run they continue is counted with them, and but for E.RUN no register changes. -/
theorem equal_pixels_flushed (cfg : Config) (k : Nat) (e : Encoder) (h : e.run.toNat ≤ 61) :
    encodeAll cfg (imageInstrs cfg e (List.replicate k e.prev)) = runBytes (e.run.toNat + k)
      ∧ { regsAfter cfg e (List.replicate k e.prev) with run := 0 } = { e with run := 0 } := by
  induction k generalizing e with
  | zero => exact ⟨(encode_pendingInstrs cfg e.run).trans (runBytes_toNat h).symm, rfl⟩
  | succ k ih =>
    rw [List.replicate_succ, imageInstrs_cons, regsAfter, encodeAll_append]
    by_cases hfull : e.run.toNat = 61
    · obtain ⟨hregs, hinstrs⟩ := push_equal_full cfg hfull
      obtain ⟨hbytes, hregs'⟩ := ih { e with run := 0 } (Nat.zero_le _)
      rw [hregs, hinstrs]
      refine ⟨?_, hregs'⟩
      rw [hbytes, hfull, show 61 + (k + 1) = 0 + k + 62 by omega, runBytes_add_62]
      rfl
    · obtain ⟨hregs, hinstrs, hadd⟩ := push_equal_grows cfg (e := e) (by omega)
      obtain ⟨hbytes, hregs'⟩ := ih { e with run := e.run + 1 } (by rw [hadd]; omega)
      rw [hregs, hinstrs]
      refine ⟨?_, hregs'⟩
      rw [hbytes, hadd, show e.run.toNat + 1 + k = e.run.toNat + (k + 1) by omega]
      rfl

/-- Pushes and a flush at the head of the queue. -/
theorem run_pushes_flush (pixels : List Color) (k : Nat) (s : State) (cmds : List Command)
    (hc : s.commands = pixels.map .encPush ++ .encFlush :: cmds) :
    Host.Core.run Sys2Proof.core (pixels.length + (k + 1)) s =
      Host.Core.run Sys2Proof.core k ({ s with
        commands := cmds
        enc := { regsAfter s.cfg s.enc pixels with run := 0 }
        sink := s.sink ++ encodeAll s.cfg (imageInstrs s.cfg s.enc pixels) } : State) := by
  rw [run_pushes pixels (k + 1) s _ hc, run_succ (step_encFlush rfl), encPushAll_eq, ← encode_pendingInstrs s.cfg,
    imageInstrs, encodeAll_append, ← List.append_assoc]

/-- Settles O42: the pushes and the flush emit what k equal pixels give, continuing a run of 0. -/
theorem runLengthsProduced : Obligations.RunLengthsProduced := by
  intro s k hrun
  have hregs0 : ({ s.enc with run := 0 } : Encoder) = s.enc := by rw [← hrun]
  have hrun0 : s.enc.run.toNat = 0 := congrArg BitVec.toNat hrun
  obtain ⟨hbytes, hregs⟩ := equal_pixels_flushed s.cfg k s.enc (hrun0.trans_le (Nat.zero_le _))
  have hx := run_pushes_flush (List.replicate k s.enc.prev) 0
    { s with commands := List.replicate k (.encPush s.enc.prev) ++ [.encFlush] } [] (by rw [List.map_replicate])
  rw [List.length_replicate] at hx
  refine hx.trans ?_
  simp only [hbytes, hregs, hregs0, hrun0, Nat.zero_add, runBytes, List.append_assoc]
  rfl

/-! ### A whole image, encoded (R240 to R242) -/

/-- Settles O43: both sides are a header, the opcodes of the pixels from reset with the flush, and the end marker. -/
theorem incrementalEqualsWhole : Obligations.IncrementalEqualsWhole := by
  intro s cmds w h ch cs pixels hl
  obtain ⟨hops, -⟩ := encImage_legal_iff.mp hl
  rw [step_encImage (by rfl) (by exact hl), show pixels.length + 4 = pixels.length + 2 + 1 + 1 by rfl,
    run_succ (step_encReset rfl), run_succ (step_encHeader (by rfl) (by exact hops)),
    run_pushes_flush pixels 1 _ _ rfl, run_succ (step_encEnd rfl)]
  simp only [imageBytes, List.append_assoc]
  rfl

/-- An opcode that has an encoding stands for 1 to 62 pixels (R84, R93). -/
theorem pixelCount_of_emittable {cfg : Config} {i : Instr} (h : Emittable cfg i) :
    1 ≤ pixelCount i ∧ pixelCount i ≤ 62 := by
  obtain ⟨hw, hp⟩ := h
  cases i with
  | opRgb | opRgba | opIndex | opDiff | opLuma => exact ⟨Nat.le_refl 1, Nat.le_add_left 1 61⟩
  | opRun n => exact of_decide_eq_true hw
  | hdr | endMarker => cases hp

/-- Opcodes that stand for n pixels have at most 5n and at least n/62 bytes: each has 1 to 5 bytes and stands for 1 to 62
pixels (R241). -/
theorem encodeAll_length_bounds {cfg : Config} {is : List Instr} (hi : ∀ i ∈ is, Emittable cfg i) :
    (encodeAll cfg is).length ≤ 5 * countAll is ∧ countAll is ≤ 62 * (encodeAll cfg is).length := by
  induction is with
  | nil => exact ⟨Nat.le_refl 0, Nat.le_refl 0⟩
  | cons i is ih =>
    obtain ⟨hle, hge⟩ := ih fun j hj => hi j (List.mem_cons_of_mem _ hj)
    have hi0 := hi i (List.mem_cons_self ..)
    obtain ⟨hcount1, hcount62⟩ := pixelCount_of_emittable hi0
    have hpos := encode_length_pos cfg hi0.2
    have hfive : (encode cfg i).length ≤ 5 := encode_length cfg i ▸ opcode_length_le hi0.2
    have hsum : countAll (i :: is) = pixelCount i + countAll is := List.sum_cons
    rw [encodeAll_cons, List.length_append, hsum]
    omega

/-- Settles O44: the opcodes have encodings and stand for the pixels, of which there are w*h. -/
theorem wholeImageLayout : Obligations.WholeImageLayout := by
  intro s cmds w h ch cs pixels
  refine ⟨fun hl => ?_, fun hl => step_illegal (by rfl) (by exact hl)⟩
  obtain ⟨-, hlen⟩ := encImage_legal_iff.mp hl
  have hcount : countAll (imageInstrs s.cfg Encoder.reset pixels) = w * h := by
    rw [imageInstrs_count s.cfg pixels Encoder.reset (Nat.zero_le _), hlen]
    exact Nat.zero_add _
  have hbounds := encodeAll_length_bounds (imageInstrs_emittable s.cfg pixels Encoder.reset (Nat.zero_le _))
  rw [hcount] at hbounds
  refine ⟨_, encodeAll s.cfg (imageInstrs s.cfg Encoder.reset pixels), step_encImage (by rfl) (by exact hl), rfl,
    hbounds.1, hbounds.2, ?_, rfl⟩
  simp only [imageBytes, List.length_append, headerBytes_length, Vector.length_toList]
  omega

/-! ### The ways DEC_IMAGE goes (R243, R244) -/

/-- DEC_IMAGE raises an error at its header, finds the image too large behind it, or closes what its loop leaves. -/
inductive ImageRuns (s : State) : State → Prop
  | headerError {k : ErrKind} {n : Nat} : ImageRuns s (raise k (takeBytes n (decReset s)))
  | oversized {w h : BitVec 32} {ch cs : Byte} {body : List Byte} (ht : tagsLegal s.cfg ch cs)
      (hs : s.source = headerBytes s.cfg w h ch cs ++ body) (hm : s.cfg.maxPixels < w.toNat * h.toNat) :
      ImageRuns s (raise .outOfMemory (loopStart s w h ch cs body))
  | looped {w h : BitVec 32} {ch cs : Byte} {body : List Byte} {u : State} (ht : tagsLegal s.cfg ch cs)
      (hs : s.source = headerBytes s.cfg w h ch cs ++ body) (hm : w.toNat * h.toNat ≤ s.cfg.maxPixels)
      (hu : imageLoop body.length (loopStart s w h ch cs body) = .next u) : ImageRuns s (closeImage s.pixOut u)

/-- A folded header error is InvalidData in the place of the error (R283). -/
theorem foldHeaderError_raise (k : ErrKind) (s : State) : ∃ k', foldHeaderError (raise k s) = raise k' s := by
  unfold foldHeaderError
  split
  · exact ⟨.invalidData, rfl⟩
  · exact ⟨k, rfl⟩

theorem imageLoop_loopStart_ends (s : State) (w h : BitVec 32) (ch cs : Byte) (body : List Byte) :
    ∃ u, imageLoop body.length (loopStart s w h ch cs body) = .next u ∧ LoopEnds (loopStart s w h ch cs body) u :=
  imageLoop_ends _ _ rfl (Nat.zero_le _) (Nat.le_refl _)

theorem imageAndExec_runs (s : State) : ∃ t, imageAndExec s = .next t ∧ ImageRuns s t := by
  have headerError {k : ErrKind} {n : Nat} (hx : headerAndExec (decReset s) = .next (raise k (takeBytes n (decReset s)))) :
      ∃ t, imageAndExec s = .next t ∧ ImageRuns s t := by
    obtain ⟨k', hfold⟩ := foldHeaderError_raise k (takeBytes n (decReset s))
    exact ⟨_, (imageAndExec_headerError hx rfl).trans (congrArg _ hfold), .headerError⟩
  rcases headerAndExec_cases (decReset s) with ⟨-, hx⟩ | ⟨k, -, -, -, hx⟩ |
    ⟨w, h, ch, cs, ht, hs, -⟩
  · exact headerError hx
  · exact headerError hx
  · by_cases hm : w.toNat * h.toNat ≤ s.cfg.maxPixels
    · obtain ⟨u, hu, -⟩ := imageLoop_loopStart_ends s w h ch cs (s.source.drop 14)
      exact ⟨_, imageAndExec_loop ht hm hs hu, .looped ht hs hm hu⟩
    · refine ⟨_, ?_, .oversized ht hs (Nat.lt_of_not_le hm)⟩
      rw [imageAndExec_oversized (s := s) ht (Nat.lt_of_not_le hm) hs, closeImage_failed (by simp)]
      rfl

theorem imageRuns_of_imageAndExec {s t : State} (h : imageAndExec s = .next t) : ImageRuns s t := by
  obtain ⟨u, hu, hruns⟩ := imageAndExec_runs s
  obtain rfl := Host.Outcome.next.inj (hu.symm.trans h)
  exact hruns

/-- DEC_IMAGE that ends with no error recorded came through its loop. -/
theorem ImageRuns.complete {s t : State} (h : ImageRuns s t) (he : t.dec.err = none) :
    ∃ w h ch cs body u, tagsLegal s.cfg ch cs ∧ s.source = headerBytes s.cfg w h ch cs ++ body
      ∧ w.toNat * h.toNat ≤ s.cfg.maxPixels ∧ imageLoop body.length (loopStart s w h ch cs body) = .next u
      ∧ u.dec.err = none ∧ t = closeImage s.pixOut u := by
  cases h with
  | headerError | oversized => cases he
  | looped ht hs hm hu => exact ⟨_, _, _, _, _, _, ht, hs, hm, hu, closeImage_dec s.pixOut _ ▸ he, rfl⟩

/-- DEC_IMAGE that returns no error took a header with recognized tags. -/
theorem ImageRuns.header_taken {s t : State} (h : ImageRuns s t) (hr : ∀ k, t.decResult ≠ some (.error k)) :
    ∃ w h ch cs body, tagsLegal s.cfg ch cs ∧ s.source = headerBytes s.cfg w h ch cs ++ body := by
  cases h with
  | headerError => exact absurd rfl (hr _)
  | oversized ht hs | looped ht hs => exact ⟨_, _, _, _, _, ht, hs⟩

/-! ### Images of no pixels, and bytes behind the last opcode (R246, R247) -/

/-- Settles O47: the loop has ended before its first fetch. -/
theorem emptyImageTakesOnlyTheHeader : Obligations.EmptyImageTakesOnlyTheHeader := by
  intro s cmds w h ch cs tail he ht hempty
  have hnpix : (w.zeroExtend 64 * h.zeroExtend 64 : BitVec 64) = 0 := by rw [npix_ofNat, hempty]; rfl
  let s' : State := { s with commands := cmds, source := headerBytes s.cfg w h ch cs ++ tail }
  have hdone : ¬ (loopStart s' w h ch cs tail).dec.idx < (loopStart s' w h ch cs tail).dec.npix := by
    show ¬ (0 : BitVec 64) < w.zeroExtend 64 * h.zeroExtend 64
    rw [hnpix]
    decide
  rw [step_decImage (by rfl) (by exact he),
    imageAndExec_loop (s := s') ht (hempty.trans_le (Nat.zero_le _)) rfl (imageLoop_done hdone), closeImage_done rfl]
  simp only [loopStart, setPixelTotal, headed, hnpix]
  rfl

/-- Settles O50: the header is the same, and a loop that completes does the same with bytes added behind. -/
theorem trailingBytesAreNeverRead : Obligations.TrailingBytesAreNeverRead := by
  intro s t cmds extra hstep he het
  rw [step_decImage (by rfl) (by exact he)] at hstep ⊢
  obtain ⟨w, h, ch, cs, body, u, ht, hs, hm, hu, heu, rfl⟩ := (imageRuns_of_imageAndExec hstep).complete het
  have hs' : s.source = headerBytes s.cfg w h ch cs ++ body := hs
  have hu' := imageLoop_append _ extra.length _ u extra rfl hu heu
  rw [← List.length_append] at hu'
  refine (imageAndExec_loop (s := { s with commands := cmds, source := s.source ++ extra }) ht hm
    (by rw [hs', List.append_assoc]) hu').trans ?_
  rw [closeImage_done heu, closeImage_done (s := { u with source := u.source ++ extra }) heu]

/-! ### A run past the image (R245) -/

/-- The loop of DEC_IMAGE through opcodes that leave pixels missing, and one more that stands for more than are missing: it is
executed, and its pixels are not delivered. -/
theorem imageLoop_overrun {is : List Instr} {i : Instr} {m : Nat} {s : State} {tail : List Byte} (hc : s.cfg.Legal)
    (his : ∀ j ∈ is, Emittable s.cfg j) (hi : Emittable s.cfg i) (he : s.dec.err = none)
    (hs : s.source = encodeAll s.cfg is ++ (encode s.cfg i ++ tail)) (hm : is.length < m)
    (hmissing : s.dec.idx.toNat + countAll is < s.dec.npix.toNat)
    (hover : s.dec.npix.toNat < s.dec.idx.toNat + countAll is + pixelCount i) :
    ∃ u, imageLoop m s = .next (raise .invalidData u) ∧ u.source = tail
      ∧ u.dec.idx.toNat = s.dec.idx.toNat + countAll is ∧ u.dec.npix = s.dec.npix
      ∧ u.dec.cache.lookup (hashOf s.cfg.hashW u.dec.cur) = u.dec.cur := by
  obtain ⟨k, rfl⟩ : ∃ k, m = k + 1 + is.length := ⟨m - is.length - 1, by omega⟩
  obtain ⟨p, r, -, hthrough⟩ := imageLoop_through is (k + 1) s _ hc his he hs hmissing
  have hadd : (s.dec.idx + BitVec.ofNat 64 (countAll is)).toNat = s.dec.idx.toNat + countAll is :=
    toNat_add_count (Nat.le_of_lt hmissing)
  have hlt : s.dec.idx + BitVec.ofNat 64 (countAll is) < s.dec.npix := by rwa [BitVec.lt_def, hadd]
  rw [← hadd] at hover
  refine ⟨_, hthrough.trans ((imageLoop_opcode (by exact hlt) (by exact he)
    (by exact decodeOpcode_encode hc hi tail)).trans (if_pos hover)), rfl, hadd, rfl, lookup_store_same ..⟩

/-- DEC_IMAGE on a header, opcodes that leave pixels missing, and one that overruns the image (R245). -/
theorem imageAndExec_overrun {s : State} {w h : BitVec 32} {ch cs : Byte} {is : List Instr} {i : Instr} {tail : List Byte}
    (hc : s.cfg.Legal) (ht : tagsLegal s.cfg ch cs) (hm : w.toNat * h.toNat ≤ s.cfg.maxPixels)
    (his : ∀ j ∈ is, Emittable s.cfg j) (hi : Emittable s.cfg i)
    (hs : s.source = headerBytes s.cfg w h ch cs ++ (encodeAll s.cfg is ++ (encode s.cfg i ++ tail)))
    (hmissing : countAll is < w.toNat * h.toNat) (hover : w.toNat * h.toNat < countAll is + pixelCount i) :
    ∃ t, imageAndExec s = .next t ∧ t.decResult = some (.error .invalidData) ∧ t.dec.err = some .invalidData
      ∧ t.source = tail ∧ t.pixOut = s.pixOut ∧ t.dec.idx.toNat = countAll is
      ∧ t.dec.npix.toNat = w.toNat * h.toNat
      ∧ t.dec.cache.lookup (hashOf s.cfg.hashW t.dec.cur) = t.dec.cur := by
  let start := loopStart s w h ch cs (encodeAll s.cfg is ++ (encode s.cfg i ++ tail))
  have hidx0 : start.dec.idx.toNat + countAll is = countAll is := Nat.zero_add _
  have hnpix : start.dec.npix.toNat = w.toNat * h.toNat := npix_exact w h
  have hfuel : is.length < (encodeAll s.cfg is ++ (encode s.cfg i ++ tail)).length := by
    have hall := length_le_encodeAll his
    have hone := encode_length_pos s.cfg hi.2
    simp only [List.length_append]
    omega
  obtain ⟨u, hu, hsrc, hidx, hnp, hlookup⟩ := imageLoop_overrun (s := start) hc his hi rfl rfl hfuel
    (by rwa [hidx0, hnpix]) (by rwa [hidx0, hnpix])
  refine ⟨_, imageAndExec_loop ht hm hs hu, ?_⟩
  rw [closeImage_failed (by simp)]
  exact ⟨rfl, rfl, hsrc, rfl, hidx.trans hidx0, (congrArg BitVec.toNat hnp).trans hnpix, hlookup⟩

/-- After DEC_IMAGE D.POS is the number of bytes taken, while it fits (R27). -/
theorem imageAndExec_pos {s t : State} {taken : List Byte} (h : imageAndExec s = .next t)
    (hs : s.source = taken ++ t.source) (hlt : taken.length < 2 ^ 64) : t.dec.pos.toNat = taken.length := by
  obtain ⟨taken', hsrc, hpos⟩ := (imageAndExec_counted h).from_zero rfl
  obtain rfl : taken' = taken := List.append_cancel_right (hsrc.symm.trans hs)
  rw [hpos hlt, BitVec.toNat_ofNat, Nat.mod_eq_of_lt hlt]

/-- Settles O48: the run is the opcode that overruns; the position counts the bytes in front of the tail. -/
theorem overrunIsInvalidData : Obligations.OverrunIsInvalidData := by
  intro s cmds w h ch cs before x tail hc he ht hm hx hbefore hmissing hover
  let bytes := headerBytes s.cfg w h ch cs ++ (before.flatMap (encode s.cfg) ++ [0b11#2 ++ x])
  have hlen : bytes.length = 14 + (before.flatMap (encode s.cfg)).length + 1 := by
    simp only [bytes, List.length_append, List.length_singleton, headerBytes_length, Nat.add_assoc]
  obtain ⟨t, hrun, hres, herr, hsrc, hout, hidx, hnpix, hlookup⟩ := imageAndExec_overrun
    (s := { s with
      commands := cmds
      source := headerBytes s.cfg w h ch cs ++ (before.flatMap (encode s.cfg) ++ (0b11#2 ++ x) :: tail) })
    (tail := tail) hc ht hm (fun i hi => (hbefore i hi).symm) (opRun_field_emittable s.cfg hx)
    (by rw [encode_opRun_field]; rfl) hmissing hover
  have hframe := (imageAndExec_keeps hrun).frame
  refine ⟨t, (step_decImage (by rfl) (by exact he)).trans hrun, hres, herr, hsrc, hout, hidx, hnpix, hlookup, ?_, ?_⟩
  · rw [← hlen]
    exact imageAndExec_pos hrun (by simp [bytes, hsrc])
  · rw [hframe, hout]

/-! ### A complete image or an error (R244, R250, R280) -/

/-- What DEC_IMAGE leaves with no error recorded: all the pixels of the image whose header it took first. -/
def ImageComplete (s t : State) (taken : List Byte) : Prop :=
  ∃ pixels body, t.dec.err = none ∧ t.pixOut = s.pixOut ++ pixels
    ∧ taken = headerBytes s.cfg t.dec.width t.dec.height t.dec.channels t.dec.colorspace ++ body
    ∧ pixels.length = t.dec.width.toNat * t.dec.height.toNat ∧ pixels.length ≤ s.cfg.maxPixels
    ∧ t.dec.idx = t.dec.npix ∧ t.dec.npix.toNat = pixels.length
    ∧ t.decResult = some (.image t.dec.width t.dec.height t.dec.channels t.dec.colorspace)

/-- What DEC_IMAGE leaves with an error recorded: no pixel. -/
def ImageVoid (s t : State) : Prop := ∃ k, t.dec.err = some k ∧ t.pixOut = s.pixOut ∧ t.decResult = some (.error k)

theorem ImageRuns.complete_or_void {s t : State} (h : ImageRuns s t) :
    ∃ taken, s.source = taken ++ t.source ∧ (ImageComplete s t taken ∨ ImageVoid s t) := by
  cases h with
  | @headerError k n => exact ⟨s.source.take n, (List.take_append_drop ..).symm, .inr ⟨k, rfl, rfl, rfl⟩⟩
  | oversized ht hs hm => exact ⟨_, hs, .inr ⟨.outOfMemory, rfl, rfl, rfl⟩⟩
  | @looped w h ch cs body u ht hs hm hu =>
    obtain ⟨v, hv, ⟨taken, htaken⟩, hframe, -, -, hends⟩ := imageLoop_loopStart_ends s w h ch cs body
    obtain rfl := Host.Outcome.next.inj (hu.symm.trans hv)
    have hs' : s.source = (headerBytes s.cfg w h ch cs ++ taken) ++ u.source := by
      rw [hs, List.append_assoc]
      exact congrArg _ htaken
    have hdec : u.dec.width = w ∧ u.dec.height = h ∧ u.dec.channels = ch ∧ u.dec.colorspace = cs
        ∧ u.dec.npix = w.zeroExtend 64 * h.zeroExtend 64 := by
      rw [hframe]; exact ⟨rfl, rfl, rfl, rfl, rfl⟩
    obtain ⟨hw, hh, hch, hcs, hnpix⟩ := hdec
    rcases hends with ⟨heu, hidx, pixels, hout, hlen⟩ | ⟨k, heu, hres, -⟩
    · have hlen' : pixels.length = w.toNat * h.toNat := hlen.trans (npix_exact w h)
      rw [closeImage_done heu]
      refine ⟨_, hs', .inl ⟨pixels, taken, heu, hout, ?_, ?_, ?_, hidx, ?_, rfl⟩⟩
      · simp only [hw, hh, hch, hcs]
      · simp only [hw, hh, hlen']
      · exact hlen'.trans_le hm
      · simp only [hnpix, npix_exact, hlen']
    · rw [closeImage_failed (by rw [heu]; nofun)]
      exact ⟨_, hs', .inr ⟨k, heu, rfl, hres⟩⟩

/-- DEC_IMAGE behind an accepted header, whenever a host's fetches behind it return colours whose counts fill the image: it
delivers those colours and leaves the decoder as the fetches do. `o` is the host's state. -/
theorem imageAndExec_fetched {s o u : State} {w h : BitVec 32} {ch cs : Byte} {body : List Byte} {k : Nat}
    {pixels : List Color} (ht : tagsLegal s.cfg ch cs) (hm : w.toNat * h.toNat ≤ s.cfg.maxPixels)
    (hs : s.source = headerBytes s.cfg w h ch cs ++ body) (ho : o.cfg = s.cfg)
    (hf : fetchTimes k (headed o w h ch cs body) = some (u, pixels)) (hn : pixels.length = w.toNat * h.toNat) :
    imageAndExec s = .next { s with
      source := u.source
      pixOut := s.pixOut ++ pixels
      dec := { u.dec with
        npix := BitVec.ofNat 64 (w.toNat * h.toNat), idx := BitVec.ofNat 64 (w.toNat * h.toNat) }
      decResult := some (.image w h ch cs) } := by
  obtain ⟨heu, -, r, hloop⟩ := loopStart_fetched ho hf hn.le
  obtain ⟨-, hframe⟩ := fetchTimes_frame k _ u pixels rfl hf
  rw [hn] at hloop
  rw [imageAndExec_loop ht hm hs (hloop.trans (imageLoop_done (BitVec.lt_irrefl _))), closeImage_done (by exact heu),
    hframe]
  rfl

/-- Settles O49: by the ways DEC_IMAGE goes, by the fetches of a host, and by the fetches of opcodes that have encodings. -/
theorem imageOrError : Obligations.ImageOrError := by
  intro s cmds he
  refine ⟨?_, fun w h ch cs body k u pixels ht hm hf hn => ?_, fun w h ch cs is tail hc ht hm hopcodes hsum => ?_⟩
  · obtain ⟨t, ht, hruns⟩ := imageAndExec_runs { s with commands := cmds }
    obtain ⟨taken, hsrc, hends⟩ := hruns.complete_or_void
    exact ⟨t, taken, (step_decImage (by rfl) (by exact he)).trans ht, hsrc, (imageAndExec_keeps ht).frame, hends⟩
  · exact (step_decImage (by rfl) (by exact he)).trans (imageAndExec_fetched (o := s)
      (s := { s with commands := cmds, source := headerBytes s.cfg w h ch cs ++ body }) ht hm rfl rfl hf hn)
  · let body := is.flatMap (encode s.cfg) ++ tail
    obtain ⟨u, hf, hsrc, -⟩ := fetchTimes_encoded is (headed s w h ch cs body) tail hc
      (fun i hi => (hopcodes i hi).symm) rfl rfl
    have hn := (pixelsOf_length s.cfg is Cache.reset Color.seed).trans hsum
    have hrun := imageAndExec_fetched (o := s)
      (s := { s with commands := cmds, source := headerBytes s.cfg w h ch cs ++ body }) ht hm rfl rfl hf hn
    have heu := (loopStart_fetched (s := s) rfl hf hn.le).1
    rw [pixelsInOrder_eq is _ fun i hi => (hopcodes i hi).1]
    exact ⟨u, _, hf, (step_decImage (by rfl) (by exact he)).trans hrun, rfl, hsrc, heu, rfl, rfl, rfl⟩

/-! ### The buffer wrappers (R242, R248, R249) -/

/-- A buffer that is long enough decodes to what DEC_IMAGE on its bytes results in. -/
theorem decodeBuffer_of_imageAndExec {cfg : Config} {bs : List Byte} {t : State} (hl : cfg.minContainerBytes ≤ bs.length)
    (ht : imageAndExec { freshEngine cfg with source := bs } = .next t) : decodeBuffer cfg bs = imageResult t := by
  have hrun : runCommand .decImage { freshEngine cfg with source := bs } = .next t := ht
  simp only [decodeBuffer, if_neg (Nat.not_lt.mpr hl), hrun]

/-- What encodes to a buffer is a legal image, and the buffer holds its bytes. -/
theorem encodeBuffer_some {cfg : Config} {w h ch cs : Nat} {pixels : List Color} {bs : List Byte}
    (hb : encodeBuffer cfg w h ch cs pixels = some bs) :
    (Command.encImage w h ch cs pixels).legal cfg = true ∧ bs = imageBytes cfg w h ch cs pixels := by
  have hstep : runCommand (.encImage w h ch cs pixels) (freshEngine cfg) =
      step { freshEngine cfg with commands := [.encImage w h ch cs pixels] } := rfl
  cases hl : (Command.encImage w h ch cs pixels).legal cfg with
  | false =>
    rw [encodeBuffer, hstep, step_illegal (by rfl) (by exact hl)] at hb
    cases hb
  | true =>
    rw [encodeBuffer, hstep, step_encImage (by rfl) (by exact hl)] at hb
    exact ⟨rfl, (Option.some.inj hb).symm⟩

theorem imageBytes_length_ge (cfg : Config) (w h ch cs : Nat) (pixels : List Color) :
    22 ≤ (imageBytes cfg w h ch cs pixels).length := by
  simp only [imageBytes, List.length_append, headerBytes_length, Vector.length_toList]
  omega

/-- A buffer that is long enough and begins with a header with recognized tags is a valid container. -/
theorem isValidContainer_of_header {cfg : Config} {w h : BitVec 32} {ch cs : Byte} {body : List Byte}
    (ht : tagsLegal cfg ch cs) (hl : cfg.minContainerBytes ≤ (headerBytes cfg w h ch cs ++ body).length) :
    isValidContainer cfg (headerBytes cfg w h ch cs ++ body) = true := by
  have htake : (headerBytes cfg w h ch cs ++ body).take Config.headerBytes = headerBytes cfg w h ch cs :=
    List.take_left' (headerBytes_length cfg w h ch cs)
  rw [isValidContainer, htake, (headerRoundTrip cfg).1 w h ch cs ht, decide_eq_true hl]
  rfl

theorem imageResult_ok {t : State} {im : Image} (h : imageResult t = .ok im) (k : ErrKind) :
    t.decResult ≠ some (.error k) := by
  intro hk
  rw [imageResult, hk] at h
  cases h

/-- Settles O60: a short buffer is not looked into; the bytes of an image are long enough and come back as in O52; what decodes
began with a header that was accepted. -/
theorem bufferWrappers : Obligations.BufferWrappers := by
  intro cfg hc ha
  refine ⟨fun bs hl => ⟨if_pos hl, ?_⟩, fun w h ch cs pixels bs hmin hm hb => ?_, fun bs im hb => ?_⟩
  · rw [isValidContainer, decide_eq_false (Nat.not_le.mpr hl), Bool.false_and]
  · obtain ⟨hl, rfl⟩ := encodeBuffer_some hb
    obtain ⟨v, hv, hres, hout, -⟩ := step_decImage_imageBytes
      (s := { freshEngine cfg with commands := [.decImage], source := imageBytes cfg w h ch cs pixels }) (tail := [])
      hc ha hm hl rfl rfl (List.append_nil _).symm
    rw [decodeBuffer_of_imageAndExec (hmin.trans (imageBytes_length_ge ..)) ((step_decImage rfl rfl).symm.trans hv),
      imageResult, hres, hout]
    rfl
  · have hl : cfg.minContainerBytes ≤ bs.length := by
      by_contra hshort
      rw [decodeBuffer, if_pos (Nat.not_le.mp hshort)] at hb
      cases hb
    obtain ⟨t, ht, hruns⟩ := imageAndExec_runs { freshEngine cfg with source := bs }
    rw [decodeBuffer_of_imageAndExec hl ht] at hb
    obtain ⟨w, h, ch, cs, body, htags, hs⟩ := hruns.header_taken (imageResult_ok hb)
    obtain rfl : bs = headerBytes cfg w h ch cs ++ body := hs
    exact isValidContainer_of_header htags hl

end Sys2Proof.Machine

/-! ## The exception statements: header errors (O28), the stopped decoder (O29), an image past MAX_PIXELS (O46) -/

namespace Sys2Proof.Machine

open Sys2Proof

/-! ### Header errors (R281, R282, R283) -/

/-- DEC_HEADER on 14 bytes that are no good header: they are taken and counted, and what hdr_parse gives is raised. -/
theorem headerAndExec_rejects_counted {s : State} {bs tail : List Byte} {k : ErrKind} (hs : s.source = bs ++ tail)
    (hl : bs.length = 14) (hk : hdrParse s.cfg bs = .error k) (hp : s.dec.pos.toNat + 14 < 2 ^ 64) :
    headerAndExec s = .next (raise k { s with source := tail, dec := { s.dec with pos := s.dec.pos + 14 } }) := by
  have hdrop : s.source.drop 14 = tail := by rw [hs]; exact List.drop_left' hl
  obtain ⟨-, hx⟩ := headerAndExec_rejects hs hl hk
  rw [hx, takeBytes, advancePos_of_lt hp, hdrop]
  rfl

/-- HDR_ERR_FOLD puts InvalidData in the place of a header error, and without it the error stays (R283). -/
theorem foldHeaderError_header {k : ErrKind} (hk : k = .invalidMagic ∨ k = .invalidTag) (s : State) :
    foldHeaderError (raise k s) = raise (if s.cfg.hdrErrFold then .invalidData else k) s := by
  have hheader : (raise k s).dec.err = some .invalidMagic ∨ (raise k s).dec.err = some .invalidTag :=
    hk.imp (congrArg some) (congrArg some)
  by_cases hf : s.cfg.hdrErrFold = true
  · rw [foldHeaderError, if_pos ⟨hf, hheader⟩, if_pos hf]; rfl
  · rw [foldHeaderError, if_neg fun ⟨hf', _⟩ => hf hf', if_neg hf]

/-- DEC_IMAGE on 14 bytes that are no good header: the decoder is reset, the bytes are taken and counted, and the error
of DEC_HEADER is raised, folded or not. -/
theorem imageAndExec_rejects {s : State} {bs tail : List Byte} {k : ErrKind} (hs : s.source = bs ++ tail)
    (hl : bs.length = 14) (hk : hdrParse s.cfg bs = .error k) :
    imageAndExec s = .next (raise (if s.cfg.hdrErrFold then .invalidData else k)
      { s with source := tail, dec := { Decoder.reset with pos := 14 } }) := by
  obtain ⟨hkind, -⟩ := headerAndExec_rejects hs hl hk
  have hp : (decReset s).dec.pos.toNat + 14 < 2 ^ 64 := show 0 + 14 < 2 ^ 64 by decide
  have hx := headerAndExec_rejects_counted (s := decReset s) hs hl hk hp
  rw [imageAndExec_headerError hx rfl, foldHeaderError_header hkind]
  rfl

/-- Settles O28: both commands take the 14 bytes; DEC_IMAGE does so from reset registers and folds. -/
theorem headerErrorsAtBothLevels : Obligations.HeaderErrorsAtBothLevels := by
  intro s cmds b14 tail k he hp hl hk
  let s' : State := { s with commands := cmds, source := b14 ++ tail }
  obtain ⟨hkind, -⟩ := headerAndExec_rejects (s := s') rfl hl hk
  exact ⟨hkind,
    (step_decHeader (by rfl) (by exact he)).trans (headerAndExec_rejects_counted (s := s') rfl hl hk hp),
    (step_decImage (by rfl) (by exact he)).trans (imageAndExec_rejects (s := s') rfl hl hk)⟩

/-! ### The stopped decoder (R286, R291) -/

/-- A command of the decoder but DEC_RESET is guarded: while an error is recorded it only reports it. -/
theorem commandEffect_stopped {c : Command} {s : State} {k : ErrKind} (he : s.dec.err = some k) (hc : c.isDec = true)
    (hr : c ≠ .decReset) : commandEffect c s = .next { s with decResult := some (.error k) } := by
  cases c with
  | decReset => exact absurd rfl hr
  | decHeader | decFetch | decImage => exact unlessStopped_stopped he
  | encReset | encHeader | encPush | encFlush | encEnd | encImage | readReg => cases hc

/-- The operands of a command of the decoder are always in their sets (R52). -/
theorem Command.legal_of_isDec {c : Command} (hc : c.isDec = true) (cfg : Config) : c.legal cfg = true := by
  cases c with
  | decReset | decHeader | decFetch | decImage => rfl
  | encReset | encHeader | encPush | encFlush | encEnd | encImage | readReg => cases hc

/-- Every command but DEC_RESET keeps a recorded error: the encoder's do not touch the decoder, the decoder's are
stopped. -/
theorem CommandRuns.err_kept {c : Command} {s t : State} {k : ErrKind} (h : CommandRuns c s t)
    (he : s.dec.err = some k) (hr : c ≠ .decReset) : t.dec.err = some k := by
  cases h with
  | enc | readReg | stopped => exact he
  | decReset => exact absurd rfl hr
  | decHeader hn | decFetch hn | decImage hn => exact nomatch hn.symm.trans he

/-- Settles O29: the guard stops the decoder's commands, and DEC_RESET alone clears the error. -/
theorem stoppedUntilReset : Obligations.StoppedUntilReset := by
  refine ⟨fun s cmds c k he hc hr => ?_, fun s t k he h => ?_⟩
  · rw [step_legal (s := { s with commands := c :: cmds }) rfl (c.legal_of_isDec hc _)]
    exact commandEffect_stopped (s := { s with commands := cmds }) he hc hr
  · cases hcmds : s.commands with
    | nil =>
      obtain rfl := Host.Outcome.next.inj ((step_idle hcmds).symm.trans h)
      exact .inl he
    | cons c cmds =>
      by_cases hr : c = .decReset
      · subst hr
        obtain rfl := Host.Outcome.next.inj ((step_decReset hcmds).symm.trans h)
        exact .inr ⟨rfl, cmds, rfl⟩
      · exact .inl ((commandRuns_of_step hcmds h).err_kept he hr)

/-! ### An image past MAX_PIXELS (R243, R287) -/

/-- Settles O46: the header is accepted and the pixel count found too large before the loop's first fetch. -/
theorem oversizedImageIsOutOfMemory : Obligations.OversizedImageIsOutOfMemory := by
  intro s cmds w h ch cs tail he ht hm
  rw [step_decImage (by rfl) (by exact he),
    imageAndExec_oversized (s := { s with commands := cmds, source := headerBytes s.cfg w h ch cs ++ tail }) ht hm rfl,
    closeImage_failed (by simp), ← npix_ofNat]
  rfl

end Sys2Proof.Machine

/-! ## The reset and hazard statements: nothing leaks between images (O45), the two reset commands (O30) -/

namespace Sys2Proof.Machine

open Sys2Proof

/-! ### Nothing leaks between images (R240, R314) -/

/-- ENC_IMAGE starts from the encoder's reset registers: the registers it leaves and the bytes it appends depend on the
configuration and its operands alone. -/
theorem encImage_effect_of_step {s t : State} {cmds : List Command} {w h ch cs : Nat} {pixels : List Color}
    (hc : s.commands = .encImage w h ch cs pixels :: cmds) (hstep : step s = .next t) :
    t.sink = s.sink ++ imageBytes s.cfg w h ch cs pixels
      ∧ t.enc = { regsAfter s.cfg Encoder.reset pixels with run := 0 } := by
  have heff : encImage w h ch cs pixels { s with commands := cmds } = .next t := commandEffect_of_step hc hstep
  obtain rfl := Host.Outcome.next.inj ((encImage_eq w h ch cs pixels _).symm.trans heff)
  exact ⟨rfl, rfl⟩

/-- Settles O45: under one configuration both encodings append the same `imageBytes` and end in the same registers. -/
theorem nothingLeaksBetweenImages : Obligations.NothingLeaksBetweenImages := by
  intro s1 s2 t1 t2 c1 c2 w h ch cs pixels hcfg h1 h2
  obtain ⟨hsink1, henc1⟩ := encImage_effect_of_step (by rfl) h1
  obtain ⟨hsink2, henc2⟩ := encImage_effect_of_step (by rfl) h2
  refine ⟨imageBytes s1.cfg w h ch cs pixels, hsink1, ?_, ?_⟩
  · simpa only [hcfg] using hsink2
  · simp only [henc1, henc2, hcfg]

/-! ### The two reset commands (R310, R311, R312) -/

/-- Settles O30: each reset command writes its unit's reset value, whose cache holds the zero colour in every slot, and keeps
the rest of the state. -/
theorem unitResets : Obligations.UnitResets := by
  intro s cmds
  constructor
  · exact ⟨_, step_encReset (s := { s with commands := .encReset :: cmds }) rfl, lookup_reset, rfl, rfl, rfl⟩
  · exact ⟨_, step_decReset (s := { s with commands := .decReset :: cmds }) rfl, lookup_reset,
      rfl, rfl, rfl, rfl, rfl, rfl, rfl, rfl, rfl, rfl, rfl⟩

end Sys2Proof.Machine
